-- ==== Sys2Proof/Word.lean ====
section
/-! DEFINITION. The value types of the block: bytes, accumulator cells, line drives (10_state.md R20, R40). -/
namespace Sys2Proof

/-- One byte: a ring cell, the Shift Register, a command, a reply or a packet byte (20_memory.md R66). -/
abbrev Byte := BitVec 8

/-- What an accumulator holds: the integer that its two's complement cell of ACC_BITS bits denotes (10_state.md R51).
The width is OPEN (00_scope.md R7, D17): it is the configuration input `accBits` of State, and every write goes through
`Machine.wrap` (log 11). -/
abbrev Acc := Int

/-- What one side does to an open-drain line: nothing, or pull it low (10_state.md R40, R42). -/
inductive Drive where
  | released
  | low
deriving DecidableEq, Repr

end Sys2Proof
end

