-- ==== Sys2Proof/Config.lean ====
section
/-! DEFINITION. The parameters of 00_scope.md R7: fixed and decided constants, and the one free value. -/
namespace Sys2Proof.Config

/-- `N`, the ring capacity (R7, R30). -/
abbrev ringCapacity : Nat := 256

/-- `FC_READ_INIT` (R7, R25). -/
abbrev fcReadInit : BitVec 4 := 11

/-- `FC_WRITE_INIT` (R7, R25). -/
abbrev fcWriteInit : BitVec 4 := 11

/-- `FC_RELOAD`, written in the last phase of a good frame before the decrement (R7, R141). -/
abbrev fcReload : BitVec 4 := 12

/-- The lower bound of `T_HOLD` in microseconds (R7, R322). -/
abbrev holdMinimum : ℝ := 100

/-- FREE VALUE: by how many microseconds, any non-negative real, the hold exceeds its lower bound; the spec leaves it
open (R7, R322, U14; log 21); safe. -/
opaque holdExtra : NNReal

/-- `T_HOLD`: any real number of microseconds not below 100 (R7, R8, R322). -/
def tHold : ℝ := holdMinimum + (holdExtra : ℝ)

/-! Command bytes, host to device (30_encoding.md R106). -/
abbrev cmdReset : Byte := 0xFF
abbrev cmdGetId : Byte := 0xF2
abbrev cmdSetRate : Byte := 0xF3
abbrev cmdSetRes : Byte := 0xE8
abbrev cmdEnable : Byte := 0xF4

/-! Reply bytes, device to host (30_encoding.md R107). -/
abbrev rspAck : Byte := 0xFA
abbrev rspBatOk : Byte := 0xAA
abbrev rspIdStd : Byte := 0x00

/-- `WHEEL_ID` (R107, D16). PRESUMED by the spec itself from general knowledge (log 22); unsafe. -/
abbrev wheelId : Byte := 0x03

/-! Argument bytes: the magic rates 200, 100, 80 (30_encoding.md R108). -/
abbrev rate200 : Byte := 0xC8
abbrev rate100 : Byte := 0x64
abbrev rate80 : Byte := 0x50

/-- `RES_ARG`, set-resolution argument for 8 counts/mm (R108, D15). PRESUMED by the spec itself from
general knowledge (log 22); unsafe. -/
abbrev resArg : Byte := 0x03

end Sys2Proof.Config
end

