-- ==== Sys2Proof/Machine/Flags.lean ====
section
/-! DEFINITION. The conditions the block computes: odd parity and the ring's full and empty tests
(30_encoding.md R95, 10_state.md R28). -/
namespace Sys2Proof.Machine

/-- `P(v)`, the odd-parity bit: 1 exactly when `v` has an even number of one bits (R95). -/
def parity (v : Byte) : Bool :=
  true ^^ v.getLsbD 0 ^^ v.getLsbD 1 ^^ v.getLsbD 2 ^^ v.getLsbD 3
    ^^ v.getLsbD 4 ^^ v.getLsbD 5 ^^ v.getLsbD 6 ^^ v.getLsbD 7

/-- "full": the comparison `count = N` (R28). -/
def ringFull (count : Nat) : Bool := count == Config.ringCapacity

/-- "empty": the comparison `count = 0` (R28). -/
def ringEmpty (count : Nat) : Bool := count == 0

end Sys2Proof.Machine
end

