-- ==== Sys2Proof/Syntax.lean ====
section
/-! DEFINITION. The operations of the block: one constructor for each of the 60 rows of the opcode table. -/
namespace Sys2Proof

/-- One row of the opcode table each. Operands are the bits the row's encoding leaves open, and the
operands its "operands" entry names for rows of format OP (00_scope.md R9, 30_encoding.md R100 to R117). -/
inductive Instr where
  -- Bit Engine phases (R100). `f` is the cursor, which ERR_NOP leaves open (R131).
  | errNop (f : BitVec 4)
  | rdStart
  | rdDataB0 | rdDataB1 | rdDataB2 | rdDataB3 | rdDataB4 | rdDataB5 | rdDataB6 | rdDataB7
  | rdParity
  | rdStop
  | wrDataB0 | wrDataB1 | wrDataB2 | wrDataB3 | wrDataB4 | wrDataB5 | wrDataB6 | wrDataB7
  | wrParity
  | wrStop
  | wrAck
  -- Wire frames (R90, R91): the byte, the parity level, the acknowledgment level.
  | frameRx (v : Byte) (p : Bool)
  | frameTx (v : Byte) (p k : Bool)
  -- Command bytes (R106)
  | cmdReset | cmdGetId | cmdSetRate | cmdSetRes | cmdEnable
  -- Reply bytes (R107)
  | rspAck | rspBatOk | rspIdStd | rspIdWheel
  -- Argument bytes (R108)
  | argRate200 | argRate100 | argRate80 | argRes8cpmm
  | argRateCfg (r : Byte)
  -- Packets (R113): `i` is byte 0 bits 7 to 3, `m` its bits 2 to 0.
  | packet3 (i : BitVec 5) (m : BitVec 3) (dx dy : Byte)
  | packet4 (i : BitVec 5) (m : BitVec 3) (dx dy dz : Byte)
  -- Named operations (R9, R117)
  | edge (d : Bool)
  | push (v : Byte)
  | pop
  | clear
  | clkLow | clkRelease | dataLow | dataRelease
  | delay (t : Nat)
  | irqDisarm | irqArm
  | initializePort
  | writeByte (v : Byte)
  | recvByteBlocking
  | sendByteWithAck (v : Byte)
  | startSession
  | processAvailableData
  | consumerRead
  | consumerDrain (dx dy dz : Acc)
deriving DecidableEq, Repr

end Sys2Proof
end

