-- ==== Sys2Proof/WellFormed.lean ====
section
/-! DEFINITION. Which operand values an instruction admits. -/
namespace Sys2Proof

/-- A drain amount fits four bytes. -/
def amountFits (d : Int) : Bool := decide (-2147483648 ≤ d) && decide (d < 2147483648)

/-- The three checks the encodings make: a write frame carries `P(v)` at position 9, which the host itself
generates (30_encoding.md R91), a delay's time fits the four bytes of its event word (log 21), and so does each amount
of a drain as a two's complement number (log 4).
A read frame may carry any parity level: a wrong one is a frame with its own outcome (40_bit_engine.md R143). -/
def Instr.wf : Instr → Bool
  | .errNop _ | .rdStart => true
  | .rdDataB0 | .rdDataB1 | .rdDataB2 | .rdDataB3 | .rdDataB4 | .rdDataB5 | .rdDataB6 | .rdDataB7 => true
  | .rdParity | .rdStop => true
  | .wrDataB0 | .wrDataB1 | .wrDataB2 | .wrDataB3 | .wrDataB4 | .wrDataB5 | .wrDataB6 | .wrDataB7 => true
  | .wrParity | .wrStop | .wrAck => true
  | .frameRx _ _ => true
  | .frameTx v p _ => p == Machine.parity v
  | .cmdReset | .cmdGetId | .cmdSetRate | .cmdSetRes | .cmdEnable => true
  | .rspAck | .rspBatOk | .rspIdStd | .rspIdWheel => true
  | .argRate200 | .argRate100 | .argRate80 | .argRes8cpmm | .argRateCfg _ => true
  | .packet3 _ _ _ _ | .packet4 _ _ _ _ _ => true
  | .edge _ | .push _ | .pop | .clear => true
  | .clkLow | .clkRelease | .dataLow | .dataRelease => true
  | .delay t => decide (t < 2 ^ 32)
  | .irqDisarm | .irqArm | .initializePort | .writeByte _ => true
  | .recvByteBlocking | .sendByteWithAck _ | .startSession | .processAvailableData => true
  | .consumerRead => true
  | .consumerDrain dx dy dz => amountFits dx && amountFits dy && amountFits dz

end Sys2Proof
end

