-- ==== Sys2Proof/Decode.lean ====
section
/-! DEFINITION. The decoder of event words, total on any bytes and rejecting by name, and the encoder.

An event word is the list of bytes by which an operation is handed to the machine. The spec gives numbers
to the selector words, commands, replies, arguments, frames and packets, each in a format of its own
(30_encoding.md R101, R106 to R108, R90, R91, R113), and none to the named operations (R117). DESIGN
CHOICE (log 4): a word of two or more bytes begins with a format tag. A word of ONE byte is a table byte
without its format, read as log 5 says. -/
namespace Sys2Proof

/-- Why an event word is no instruction. -/
inductive Reject where
  /-- No byte at all. -/
  | empty
  /-- A selector word that R100 gives no phase: reserved (R102, U1, U2). -/
  | reservedSelector
  /-- A byte that is none of its format's rows. -/
  | unknownByte
  /-- A first byte that is no format tag. -/
  | unknownTag
  /-- The wrong number of bytes after the tag. -/
  | badLength
  /-- A start bit, stop bit or filler bit that differs from the format's fixed value. -/
  | badFixedBit
  /-- A write frame whose parity bit is not `P(v)` (R91). -/
  | badParity
deriving DecidableEq, Repr

/-- The decoder's answer. -/
inductive Decoded where
  | ok (i : Instr)
  | reject (r : Reject)
deriving DecidableEq, Repr

/-! ## Selector words (R100, R101) -/

/-- The phase a selector word `{ps[1:0], fc[3:0]}` selects; bits 7 and 6 of the byte are filler. -/
def decodeSelector (w : Byte) : Decoded :=
  match w.toNat with
  | 0x1B => .ok .rdStart
  | 0x1A => .ok .rdDataB0 | 0x19 => .ok .rdDataB1 | 0x18 => .ok .rdDataB2 | 0x17 => .ok .rdDataB3
  | 0x16 => .ok .rdDataB4 | 0x15 => .ok .rdDataB5 | 0x14 => .ok .rdDataB6 | 0x13 => .ok .rdDataB7
  | 0x12 => .ok .rdParity
  | 0x11 => .ok .rdStop
  | 0x2B => .ok .wrDataB0 | 0x2A => .ok .wrDataB1 | 0x29 => .ok .wrDataB2 | 0x28 => .ok .wrDataB3
  | 0x27 => .ok .wrDataB4 | 0x26 => .ok .wrDataB5 | 0x25 => .ok .wrDataB6 | 0x24 => .ok .wrDataB7
  | 0x23 => .ok .wrParity
  | 0x22 => .ok .wrStop
  | 0x21 => .ok .wrAck
  | n => if n < 0x10 then .ok (.errNop (w.setWidth 4))
         else if n < 0x40 then .reject .reservedSelector else .reject .badFixedBit

/-! ## Byte formats (R106, R107, R108) -/

def decodeCommand (b : Byte) : Decoded :=
  match b.toNat with
  | 0xFF => .ok .cmdReset
  | 0xF2 => .ok .cmdGetId
  | 0xF3 => .ok .cmdSetRate
  | 0xE8 => .ok .cmdSetRes
  | 0xF4 => .ok .cmdEnable
  | _ => .reject .unknownByte

def decodeReply (b : Byte) : Decoded :=
  match b.toNat with
  | 0xFA => .ok .rspAck
  | 0xAA => .ok .rspBatOk
  | 0x00 => .ok .rspIdStd
  | 0x03 => .ok .rspIdWheel
  | _ => .reject .unknownByte

def decodeArgument (b : Byte) : Decoded :=
  match b.toNat with
  | 0xC8 => .ok .argRate200
  | 0x64 => .ok .argRate100
  | 0x50 => .ok .argRate80
  | 0x03 => .ok .argRes8cpmm
  | _ => .reject .unknownByte

/-- A table byte without its format (log 5): below 0x40 it is a six-bit selector word, else the command,
reply or argument with that value (those values are all different). -/
def decodeBare (b : Byte) : Decoded :=
  if b.toNat < 0x40 then decodeSelector b
  else match decodeCommand b with
    | .ok i => .ok i
    | .reject _ =>
      match decodeReply b with
      | .ok i => .ok i
      | .reject _ => decodeArgument b

/-! ## Wire frames (R90, R91): bit `j` of the number is position `j` in time order -/

def decodeFrameRx (lo hi : Byte) : Decoded :=
  let w : BitVec 16 := hi ++ lo
  if w.getLsbD 0 = false ∧ w.getLsbD 10 = true ∧ hi.toNat < 8
  then .ok (.frameRx (w.extractLsb' 1 8) (w.getLsbD 9)) else .reject .badFixedBit

def decodeFrameTx (lo hi : Byte) : Decoded :=
  let w : BitVec 16 := hi ++ lo
  let v : Byte := w.extractLsb' 1 8
  if w.getLsbD 0 = false ∧ w.getLsbD 10 = true ∧ hi.toNat < 16
  then
    if w.getLsbD 9 = Machine.parity v then .ok (.frameTx v (w.getLsbD 9) (w.getLsbD 11)) else .reject .badParity
  else .reject .badFixedBit

/-! ## Operands of the named operations -/

/-- A byte that carries one level: 0 or 1. -/
def decodeLevel (b : Byte) : Decoded :=
  match b.toNat with
  | 0 => .ok (.edge false)
  | 1 => .ok (.edge true)
  | _ => .reject .badFixedBit

/-- An operation without operands is followed by one zero byte. -/
def decodePlain (i : Instr) (rest : List Byte) : Decoded :=
  match rest with
  | [b] => if b = 0 then .ok i else .reject .badFixedBit
  | _ => .reject .badLength

/-- An operation followed by one byte. -/
def decodeWith1 (f : Byte → Decoded) (rest : List Byte) : Decoded :=
  match rest with
  | [b] => f b
  | _ => .reject .badLength

/-- A format followed by two bytes. -/
def decodeWith2 (f : Byte → Byte → Decoded) (rest : List Byte) : Decoded :=
  match rest with
  | [lo, hi] => f lo hi
  | _ => .reject .badLength

def decodePacket3 (rest : List Byte) : Decoded :=
  match rest with
  | [b0, b1, b2] => .ok (.packet3 (b0.extractLsb' 3 5) (b0.extractLsb' 0 3) b1 b2)
  | _ => .reject .badLength

def decodePacket4 (rest : List Byte) : Decoded :=
  match rest with
  | [b0, b1, b2, b3] => .ok (.packet4 (b0.extractLsb' 3 5) (b0.extractLsb' 0 3) b1 b2 b3)
  | _ => .reject .badLength

def decodeDelay (rest : List Byte) : Decoded :=
  match rest with
  | [t0, t1, t2, t3] => .ok (.delay (t3 ++ t2 ++ t1 ++ t0).toNat)
  | _ => .reject .badLength

/-- A drain amount from its four bytes, low byte first, two's complement (log 4). -/
def amountOf (b0 b1 b2 b3 : Byte) : Int := (b3 ++ b2 ++ b1 ++ b0 : BitVec 32).toInt

def decodeDrain (rest : List Byte) : Decoded :=
  match rest with
  | [x0, x1, x2, x3, y0, y1, y2, y3, z0, z1, z2, z3] =>
    .ok (.consumerDrain (amountOf x0 x1 x2 x3) (amountOf y0 y1 y2 y3) (amountOf z0 z1 z2 z3))
  | _ => .reject .badLength

/-- A word of two or more bytes: the format tag and what follows it (log 4). -/
def decodeTagged (tag : Nat) (rest : List Byte) : Decoded :=
  match tag with
  | 0x01 => decodeWith1 decodeSelector rest
  | 0x02 => decodeWith1 decodeCommand rest
  | 0x03 => decodeWith1 decodeReply rest
  | 0x04 => decodeWith1 decodeArgument rest
  | 0x05 => decodeWith1 (fun r => .ok (.argRateCfg r)) rest
  | 0x06 => decodeWith2 decodeFrameRx rest
  | 0x07 => decodeWith2 decodeFrameTx rest
  | 0x08 => decodePacket3 rest
  | 0x09 => decodePacket4 rest
  | 0x10 => decodeWith1 decodeLevel rest
  | 0x11 => decodeWith1 (fun v => .ok (.push v)) rest
  | 0x12 => decodePlain .pop rest
  | 0x13 => decodePlain .clear rest
  | 0x14 => decodePlain .clkLow rest
  | 0x15 => decodePlain .clkRelease rest
  | 0x16 => decodePlain .dataLow rest
  | 0x17 => decodePlain .dataRelease rest
  | 0x18 => decodeDelay rest
  | 0x19 => decodePlain .irqDisarm rest
  | 0x1A => decodePlain .irqArm rest
  | 0x1B => decodePlain .initializePort rest
  | 0x1C => decodeWith1 (fun v => .ok (.writeByte v)) rest
  | 0x1D => decodePlain .recvByteBlocking rest
  | 0x1E => decodeWith1 (fun v => .ok (.sendByteWithAck v)) rest
  | 0x1F => decodePlain .startSession rest
  | 0x20 => decodePlain .processAvailableData rest
  | 0x21 => decodePlain .consumerRead rest
  | 0x22 => decodeDrain rest
  | _ => .reject .unknownTag

/-- The decoder: total on any bytes. -/
def decode (bytes : List Byte) : Decoded :=
  match bytes with
  | [] => .reject .empty
  | [b] => decodeBare b
  | tag :: b :: rest => decodeTagged tag.toNat (b :: rest)

/-! ## The encoder -/

/-- A read frame as a number: start 0, the byte, the parity level, stop 1 (R90). -/
def frameRxBits (v : Byte) (p : Bool) : BitVec 16 :=
  (0#5 ++ 1#1 ++ BitVec.ofBool p ++ v ++ 0#1 : BitVec 16)

/-- A write frame as a number: start 0, the byte, parity, stop 1, acknowledgment level (R91). -/
def frameTxBits (v : Byte) (p k : Bool) : BitVec 16 :=
  (0#4 ++ BitVec.ofBool k ++ 1#1 ++ BitVec.ofBool p ++ v ++ 0#1 : BitVec 16)

/-- Byte `j` of a drain amount. -/
def amountByte (d : Int) (j : Nat) : Byte := (BitVec.ofInt 32 d).extractLsb' (8 * j) 8

def lowByte (w : BitVec 16) : Byte := w.extractLsb' 0 8
def highByte (w : BitVec 16) : Byte := w.extractLsb' 8 8

/-- The tagged event word of an instruction. -/
def encode : Instr → List Byte
  | .errNop f => [0x01, (0#4 ++ f : BitVec 8)]
  | .rdStart => [0x01, 0x1B]
  | .rdDataB0 => [0x01, 0x1A]
  | .rdDataB1 => [0x01, 0x19]
  | .rdDataB2 => [0x01, 0x18]
  | .rdDataB3 => [0x01, 0x17]
  | .rdDataB4 => [0x01, 0x16]
  | .rdDataB5 => [0x01, 0x15]
  | .rdDataB6 => [0x01, 0x14]
  | .rdDataB7 => [0x01, 0x13]
  | .rdParity => [0x01, 0x12]
  | .rdStop => [0x01, 0x11]
  | .wrDataB0 => [0x01, 0x2B]
  | .wrDataB1 => [0x01, 0x2A]
  | .wrDataB2 => [0x01, 0x29]
  | .wrDataB3 => [0x01, 0x28]
  | .wrDataB4 => [0x01, 0x27]
  | .wrDataB5 => [0x01, 0x26]
  | .wrDataB6 => [0x01, 0x25]
  | .wrDataB7 => [0x01, 0x24]
  | .wrParity => [0x01, 0x23]
  | .wrStop => [0x01, 0x22]
  | .wrAck => [0x01, 0x21]
  | .cmdReset => [0x02, 0xFF]
  | .cmdGetId => [0x02, 0xF2]
  | .cmdSetRate => [0x02, 0xF3]
  | .cmdSetRes => [0x02, 0xE8]
  | .cmdEnable => [0x02, 0xF4]
  | .rspAck => [0x03, 0xFA]
  | .rspBatOk => [0x03, 0xAA]
  | .rspIdStd => [0x03, 0x00]
  | .rspIdWheel => [0x03, 0x03]
  | .argRate200 => [0x04, 0xC8]
  | .argRate100 => [0x04, 0x64]
  | .argRate80 => [0x04, 0x50]
  | .argRes8cpmm => [0x04, 0x03]
  | .argRateCfg r => [0x05, r]
  | .frameRx v p => [0x06, lowByte (frameRxBits v p), highByte (frameRxBits v p)]
  | .frameTx v p k => [0x07, lowByte (frameTxBits v p k), highByte (frameTxBits v p k)]
  | .packet3 i m dx dy => [0x08, (i ++ m : BitVec 8), dx, dy]
  | .packet4 i m dx dy dz => [0x09, (i ++ m : BitVec 8), dx, dy, dz]
  | .edge d => [0x10, if d then 1 else 0]
  | .push v => [0x11, v]
  | .pop => [0x12, 0]
  | .clear => [0x13, 0]
  | .clkLow => [0x14, 0]
  | .clkRelease => [0x15, 0]
  | .dataLow => [0x16, 0]
  | .dataRelease => [0x17, 0]
  | .delay t => [0x18, BitVec.ofNat 8 t, BitVec.ofNat 8 (t / 256), BitVec.ofNat 8 (t / 65536), BitVec.ofNat 8 (t / 16777216)]
  | .irqDisarm => [0x19, 0]
  | .irqArm => [0x1A, 0]
  | .initializePort => [0x1B, 0]
  | .writeByte v => [0x1C, v]
  | .recvByteBlocking => [0x1D, 0]
  | .sendByteWithAck v => [0x1E, v]
  | .startSession => [0x1F, 0]
  | .processAvailableData => [0x20, 0]
  | .consumerRead => [0x21, 0]
  | .consumerDrain dx dy dz =>
    [0x22, amountByte dx 0, amountByte dx 1, amountByte dx 2, amountByte dx 3,
      amountByte dy 0, amountByte dy 1, amountByte dy 2, amountByte dy 3,
      amountByte dz 0, amountByte dz 1, amountByte dz 2, amountByte dz 3]

/-! ## The opcode table's own numbering -/

/-- The low `n` bytes of a number, least significant first. -/
def lowBytes : Nat → Nat → List Byte
  | 0, _ => []
  | n + 1, w => BitVec.ofNat 8 w :: lowBytes n (w / 256)

/-- The bytes of an instruction whose bits are `w`: `nbits` rounded up to whole bytes, at least one. -/
def tableBytes (nbits w : Nat) : List Byte :=
  BitVec.ofNat 8 w :: lowBytes ((nbits - 1) / 8) (w / 256)

/-- What the decoder reads from an instruction whose bits are `w`, numbered as the opcode table does. -/
def decodeTableWord (nbits w : Nat) : Option Instr :=
  match decode (tableBytes nbits w) with
  | .ok i => some i
  | .reject _ => none

end Sys2Proof
end

