-- ==== Sys2Proof/Machine/State.lean ====
section
/-! DEFINITION. The state of the machine, why a step can stop, and the state after reset
(10_state.md R20, R56; INVENTORY.md lists every field). -/
namespace Sys2Proof.Machine

/-- Port State (R21). Numbered Error 0, Read 1, Write 2 in selector words only (R22). -/
inductive PortState where
  | error
  | read
  | write
deriving DecidableEq, Repr

/-- The state of the Mouse Session Protocol (R50, R210). -/
inductive Session where
  | uninitialized
  | handshaking
  | streaming
  | faulted
deriving DecidableEq, Repr

/-- The contexts that stand where an ISA has privilege modes (60_exceptions.md R264), and the consumer (R10). -/
inductive Context where
  | interrupt
  | mainline
  | consumer
deriving DecidableEq, Repr

/-- The ring storage `RB`: the cells that do not hold what an unlisted cell reads as, by rising index
(20_memory.md R60, R62). -/
abbrev Memory := List Host.Cell

/-- One atomic sub-step of main-line code (20_memory.md R71): a line primitive, a whole atomic section, or a
numbered sub-step of a rule of 42_port_control.md or 43_mouse_session.md. A list of them is what the main
line has still to do, in program order (R26; log 2). -/
inductive Micro where
  /-- `clk_low` (R175; W2). -/
  | clkLow
  /-- `clk_release` (R175; W5). -/
  | clkRelease
  /-- `data_low` (R175; W4). -/
  | dataLow
  /-- `data_release` (R175). -/
  | dataRelease
  /-- `delay(T_HOLD)` (R176, R190 W3). -/
  | hold
  /-- `delay(t)` for the operand of the named operation (R176). -/
  | wait (t : Nat)
  /-- `irq_disarm` (R177; W1). -/
  | irqDisarm
  /-- `irq_arm` (R177; W7). -/
  | irqArm
  /-- `clear()` (R164). -/
  | clear
  /-- `pop()`, whose result is returned to the caller (R162, R163). -/
  | pop
  /-- `initialize_port()`, I1 to I4 in one atomic step (R185). -/
  | initPort
  /-- W6 of `write_byte(v)` (R190). -/
  | setup (v : Byte)
  /-- B1 of `recv_byte_blocking()`: one poll (R195). -/
  | recv
  /-- A3 of `send_byte_with_ack` (R198). -/
  | ackCheck
  /-- The test of `ps` in `cmd` (R212). -/
  | cmdTest
  /-- S0 of `start_session` (R211). -/
  | sessionInit
  /-- The test of S2 (R214). -/
  | batCheck
  /-- The test of S3 (R215). -/
  | idCheck
  /-- The assignment of `wheel` in S5 (R217). -/
  | wheelRecord
  /-- `sess <- Streaming; return true` of S8 (R220): the last sub-step of a session program. -/
  | streaming
  /-- FAIL (R221). -/
  | sessionFail
  /-- P1: the test `count >= PLEN` (R224, R226). -/
  | packetTest
  /-- One `pop()` of P2 (R226). -/
  | takeByte
  /-- P3's first step, the write of `b`, for the packet just taken (R227). -/
  | decodePacket
  /-- `b <- byte0 & 0x07` (R227). -/
  | putB (v : Byte)
  /-- `x <- wrap(x + int8(v))` (R227). -/
  | addX (v : Byte)
  /-- `y <- wrap(y - int8(v))` (R227). -/
  | subY (v : Byte)
  /-- `z <- wrap(z + int8(v))` (R227). -/
  | addZ (v : Byte)
  /-- P4 (R224, R229). -/
  | recovery
deriving DecidableEq, Repr

/-- One consumer access of one variable (20_memory.md R71, R81). A drain of one accumulator is a read followed
by a write (R68). -/
inductive Access where
  | readX
  | readY
  | readZ
  | readB
  | readSess
  | readWheel
  | readErrcnt
  | writeX (d : Acc)
  | writeY (d : Acc)
  | writeZ (d : Acc)
deriving DecidableEq, Repr

/-- What a main-line operation returned (R162, R163, R195, R211, R224). -/
inductive Returned where
  | none
  /-- `pop()`: `Some(v)` or `None`. -/
  | popped (v : Option Byte)
  /-- `recv_byte_blocking()`. -/
  | byte (v : Byte)
  /-- `start_session()`, `process_available_data()`. -/
  | flag (ok : Bool)
deriving DecidableEq, Repr

/-- The consumer's own copies of the variables it reads (R58, R236). -/
structure Snapshot where
  x : Acc
  y : Acc
  z : Acc
  b : Byte
  sess : Session
  wheel : Bool
  errcnt : Nat
deriving DecidableEq, Repr

/-- One entry of the schedule that interleaves the agents (00_scope.md R10, R11; log 1). -/
inductive Turn where
  /-- An operation is invoked in a context; the bytes are its event word. -/
  | issue (c : Context) (word : List Byte)
  /-- The main line takes its next sub-step. -/
  | main
  /-- The device makes the next edge of the frame it has begun. -/
  | device
  /-- The consumer makes its next access. -/
  | consumer
  /-- The device sets its drives of the clock and the data line (R40, R43). -/
  | lines (clk data : Drive)
deriving DecidableEq, Repr

/-- The state of the machine. The first group is the spec's (R20, R7, R55, R264); the second is the model's own
record of what the agents have still to do and of returned values (logs 1, 2, 3, 19, 20). -/
structure State where
  ps : PortState
  fc : BitVec 4
  sr : Byte
  par : Bool
  irqArmed : Bool
  ring : Memory
  wr : BitVec 8
  rd : BitVec 8
  count : Nat
  clkDrive : Drive
  dataDrive : Drive
  sess : Session
  x : Acc
  y : Acc
  z : Acc
  b : Byte
  wheel : Bool
  errcnt : Nat
  devClk : Drive
  devData : Drive
  wheelEnabled : Bool
  sampleRate : Byte
  accBits : Nat
  ctx : Context
  main : List Micro
  reply : Byte
  pkt : List Byte
  ret : Returned
  dev : List Bool
  cons : List Access
  snap : Snapshot
  sched : List Turn
deriving DecidableEq, Repr

/-- What stops the machine as a fault of the model. -/
inductive Fault where
  /-- Raised by P2 and P3 of `process_available_data` when a pop finds the ring empty or the bytes taken are no
  packet. The spec gives this no effect: "`count >= PLEN` at P1 guarantees that all `PLEN` pops return `Some`"
  (R226). Safe. -/
  | packetUnderrun
deriving DecidableEq, Repr

/-- Why a step gives no meaning. -/
inductive Refusal where
  /-- Raised by `exec` for an instruction without a meaning. Safe. -/
  | notModelled (mnemonic : String)
  /-- Raised by a turn whose event word decodes to nothing (R102, R111). Safe. -/
  | badWord (r : Reject)
  /-- Raised by every operation invoked in a context that may not run it: "both are refused" (R77, R264, U6). Safe. -/
  | wrongContext
  /-- Raised by an edge whose selector R100 gives no phase: "refuses them" (R102, U1). Safe. -/
  | noPhase
  /-- Raised by a packet row whose length is not the one `wheel` selects (R113, R116). Safe. -/
  | packetLength
deriving DecidableEq, Repr

/-- The outcome of a meaning or of a step. -/
abbrev Out := Host.Outcome State Fault Refusal

/-- The machine right after reset (R56, R290, R291). DESIGN CHOICE for `fc`, `sr`, `par` (log 7), the ring's cells
(log 8), the device's drives (log 9), the configuration inputs (logs 10, 11) and the model's own fields (logs 1, 2, 3,
19, 20): the spec gives them no value. Unsafe for a claim that leans on one of those values. -/
def State.reset : State where
  ps := .error
  fc := 0
  sr := 0
  par := false
  irqArmed := false
  ring := []
  wr := 0
  rd := 0
  count := 0
  clkDrive := .released
  dataDrive := .released
  sess := .uninitialized
  x := 0
  y := 0
  z := 0
  b := 0
  wheel := false
  errcnt := 0
  devClk := .released
  devData := .released
  wheelEnabled := false
  sampleRate := 0x64
  accBits := 16
  ctx := .mainline
  main := []
  reply := 0
  pkt := []
  ret := .none
  dev := []
  cons := []
  snap := { x := 0, y := 0, z := 0, b := 0, sess := .uninitialized, wheel := false, errcnt := 0 }
  sched := []

end Sys2Proof.Machine
end

