-- ==== Sys2Proof/Machine/Operands.lean ====
section
/-! DEFINITION. What the operations read: line levels, packet fields, the levels of a frame. -/
namespace Sys2Proof.Machine

/-! ## Lines (10_state.md R40, R41; 30_encoding.md R92) -/

/-- The level a drive leaves on an otherwise free line: released is 1, low is 0 (R92). -/
def levelOf (d : Drive) : Bool :=
  match d with
  | .released => true
  | .low => false

/-- The drive that puts a bit on a line (R92). -/
def driveOf (level : Bool) : Drive := if level then .released else .low

/-- The clock line: the wired-AND of the two sides (R40). -/
def clkLine (s : State) : Bool := levelOf s.clkDrive && levelOf s.devClk

/-- The data line: the wired-AND of the two sides (R40). -/
def dataLine (s : State) : Bool := levelOf s.dataDrive && levelOf s.devData

/-- `sample()`: the level of the data line at this instant (R41). -/
def sample (s : State) : Bool := dataLine s

/-! ## Selector words (30_encoding.md R101) -/

/-- The number of a Port State (R22). -/
def portNumber (p : PortState) : BitVec 2 :=
  match p with
  | .error => 0
  | .read => 1
  | .write => 2

/-- The selector word `{ps, fc}` of a state, in a byte (R101). -/
def selectorWord (s : State) : Byte := (0#2 ++ portNumber s.ps ++ s.fc : BitVec 8)

/-! ## Packets (30_encoding.md R113, R114) -/

/-- `PLEN`: 4 if `wheel`, else 3 (R53, R116). -/
def packetLen (wheel : Bool) : Nat := if wheel then 4 else 3

/-- The button field of byte 0, `byte0 & 0x07` (R113, R115). -/
def buttonsOf (b0 : Byte) : Byte := b0 &&& 0x07

/-- `int8(v)`: the integer in -128 to 127 that the byte denotes (R8, R114). -/
def int8 (v : Byte) : Int := v.toInt

/-- `wrap_W(i)`: the integer that the two's complement cell of `W` bits holding `i mod 2^W` denotes (R8, R51). -/
def wrap (width : Nat) (i : Int) : Acc := (BitVec.ofInt width i).toInt

/-! ## Frames as levels in time order (30_encoding.md R90, R119) -/

/-- The levels of a read frame: start 0, `v[0]` to `v[7]`, the parity level, stop 1 (R90). -/
def frameLevels (v : Byte) (p : Bool) : List Bool :=
  [false, v.getLsbD 0, v.getLsbD 1, v.getLsbD 2, v.getLsbD 3, v.getLsbD 4, v.getLsbD 5, v.getLsbD 6,
    v.getLsbD 7, p, true]

/-- `TXCLOCK a`: the device leaves the data line alone for ten edges and drives it to `a` at the eleventh (R119). -/
def txClockLevels (a : Bool) : List Bool := List.replicate 10 true ++ [a]

end Sys2Proof.Machine
end

