-- ==== Sys2Proof/Machine/Ops.lean ====
section
/-! DEFINITION. The named operations over the ring storage, the ring buffer, the lines and Port State. -/
namespace Sys2Proof.Machine

/-! ## Outcomes -/

/-- Apply a change to the next state, if there is one. -/
def mapNext (f : State → State) (o : Out) : Out :=
  match o with
  | .next s => .next (f s)
  | .fault r => .fault r
  | .refused r => .refused r

/-! ## Ring storage (20_memory.md R60, R61, R66) -/

/-- What a cell that is not listed reads as. DESIGN CHOICE (log 8): the spec leaves the cells unspecified until they
are written, and shows that none is read before (R56); unsafe for a claim that leans on the value. -/
def unlistedCell : Byte := 0

/-- `MemRead(a, 1)` (R8, R61). -/
def Memory.read (m : Memory) (a : Nat) : Byte :=
  match m with
  | [] => unlistedCell
  | (k, v) :: m => if k = a then v else Memory.read m a

/-- `MemWrite(a, 1, v)` (R8, R61), keeping the canonical form. -/
def Memory.write (m : Memory) (a : Nat) (v : Byte) : Memory :=
  match m with
  | [] => if v = unlistedCell then [] else [(a, v)]
  | (k, w) :: m =>
    if a < k then
      if v = unlistedCell then (k, w) :: m else (a, v) :: (k, w) :: m
    else if a = k then
      if v = unlistedCell then m else (a, v) :: m
    else (k, w) :: Memory.write m a v

/-- Addresses rise strictly from `lo` on, stay below `N`, and no cell holds what an unlisted one reads as. -/
def Memory.wfFrom (lo : Nat) (m : Memory) : Bool :=
  match m with
  | [] => true
  | (k, v) :: m =>
    decide (lo ≤ k) && decide (k < Config.ringCapacity) && decide (v ≠ unlistedCell) && Memory.wfFrom (k + 1) m

/-- The canonical form of the ring storage. -/
def Memory.wf (m : Memory) : Bool := Memory.wfFrom 0 m

/-! ## Errors: the block's one exception (60_exceptions.md R250, R251, R260) -/

/-- The causes of R251. They are labels: nothing stores them (R250). -/
inductive Cause where
  | start | parity | stop | overflow | noAckBit | badReply | badBat | badId
deriving DecidableEq, Repr

/-- `raise PortError(cause)`: exactly `ps <- Error` (R8, R250). No control transfer, no saved state (R260). -/
def raisePortError (_cause : Cause) (s : State) : State := { s with ps := .error }

/-! ## Ring buffer (41_ring_buffer.md) -/

/-- `push(v)` (R160, R161). -/
def ringPush (v : Byte) (s : State) : State :=
  if ringFull s.count then raisePortError .overflow s
  else { s with ring := Memory.write s.ring s.wr.toNat v, wr := s.wr + 1, count := s.count + 1 }

/-- `pop()` on the ring: the byte and the state after, or nothing when it is empty (R162, R163). -/
def ringPop (s : State) : Option (Byte × State) :=
  if ringEmpty s.count then none
  else some (Memory.read s.ring s.rd.toNat, { s with rd := s.rd + 1, count := s.count - 1 })

/-- `clear()` (R164). -/
def ringClear (s : State) : State := { s with wr := 0, rd := 0, count := 0 }

/-- The bytes held, oldest first: `RB[rd]`, `RB[(rd+1) mod N]`, ... (R31). -/
def ringContents (s : State) : List Byte :=
  (List.range s.count).map fun j => Memory.read s.ring ((s.rd.toNat + j) % Config.ringCapacity)

/-! ## Port control (42_port_control.md) -/

/-- `initialize_port()`, I1 to I4: the way out of `Error` to `Read` (R185, R57). -/
def initializePort (s : State) : State :=
  { s with clkDrive := .released, dataDrive := .released, wr := 0, rd := 0, count := 0,
           ps := .read, fc := Config.fcReadInit, irqArmed := true }

/-- W6 of `write_byte(v)`: the way out of `Error` to `Write` (R190, R192). -/
def writeSetup (v : Byte) (s : State) : State :=
  { s with wr := 0, rd := 0, count := 0, ps := .write, fc := Config.fcWriteInit, sr := v, par := parity v }

/-- `delay(t)`: the main line does nothing for a time `t`; the model carries no time (R176, R13). -/
def delayFor (_t : ℝ) (s : State) : State := s

/-- S0 of `start_session`: the reinitialization, and the return from every error (R211, R261). -/
def sessionInit (s : State) : State :=
  { initializePort s with sess := .handshaking, x := 0, y := 0, z := 0, b := 0, wheel := false }

end Sys2Proof.Machine
end

