-- ==== Sys2Proof/Machine/Engine.lean ====
section
/-! DEFINITION. The Bit Engine: one invocation for one handled falling edge (40_bit_engine.md). -/
namespace Sys2Proof.Machine

/-- The nine phase actions (30_encoding.md R100). -/
inductive Phase where
  | errNop | rdStart | rdData | rdParity | rdStop | wrData | wrParity | wrStop | wrAck
deriving DecidableEq, Repr

/-- The phase of a cursor value in a read frame; none for the values R102 reserves. -/
def readPhase (f : Nat) : Option Phase :=
  match f with
  | 11 => some .rdStart
  | 10 | 9 | 8 | 7 | 6 | 5 | 4 | 3 => some .rdData
  | 2 => some .rdParity
  | 1 => some .rdStop
  | _ => none

/-- The phase of a cursor value in a write frame; none for the values R102 reserves. -/
def writePhase (f : Nat) : Option Phase :=
  match f with
  | 11 | 10 | 9 | 8 | 7 | 6 | 5 | 4 => some .wrData
  | 3 => some .wrParity
  | 2 => some .wrStop
  | 1 => some .wrAck
  | _ => none

/-- The phase the pair (`ps`, `fc`) selects (R100). -/
def phaseAt (p : PortState) (f : BitVec 4) : Option Phase :=
  match p with
  | .error => some .errNop
  | .read => readPhase f.toNat
  | .write => writePhase f.toNat

/-- The decrement that ends every invocation entered with `ps` not `Error` (R141). -/
def countDown (s : State) : State := { s with fc := s.fc - 1 }

/-- `RD_START` before the decrement (R133). -/
def readStart (s : State) : State := if sample s then raisePortError .start s else s

/-- `RD_DATA` before the decrement: shift right, then insert the sample at bit 7 (R134, R96). -/
def readData (s : State) : State :=
  { s with sr := (s.sr >>> 1) ||| ((BitVec.ofBool (sample s)).setWidth 8 <<< 7) }

/-- `RD_PARITY` before the decrement (R135). -/
def readParity (s : State) : State := if parity s.sr != sample s then raisePortError .parity s else s

/-- `RD_STOP` before the decrement, where its call is `push(v)` (R136). -/
def stopPushing (v : Byte) (s : State) : State :=
  if sample s then { ringPush v s with fc := Config.fcReload } else raisePortError .stop s

/-- `RD_STOP` before the decrement: it pushes the completed Shift Register value (R136). -/
def readStop (s : State) : State := stopPushing s.sr s

/-- `WR_DATA` before the decrement (R137, R97). -/
def writeData (s : State) : State := { s with dataDrive := driveOf (s.sr.getLsbD 0), sr := s.sr >>> 1 }

/-- `WR_PARITY` before the decrement (R138). -/
def writeParity (s : State) : State := { s with dataDrive := driveOf s.par }

/-- `WR_STOP` before the decrement (R139). -/
def writeStop (s : State) : State := { s with dataDrive := .released }

/-- `WR_ACK` before the decrement (R140). -/
def writeAck (s : State) : State :=
  if sample s then raisePortError .noAckBit s else { s with ps := .read, fc := Config.fcReload }

/-- A phase with the decrement that follows it; `ERR_NOP` changes nothing (R131, R132). -/
def runPhase (ph : Phase) (s : State) : State :=
  match ph with
  | .errNop => s
  | .rdStart => countDown (readStart s)
  | .rdData => countDown (readData s)
  | .rdParity => countDown (readParity s)
  | .rdStop => countDown (readStop s)
  | .wrData => countDown (writeData s)
  | .wrParity => countDown (writeParity s)
  | .wrStop => countDown (writeStop s)
  | .wrAck => countDown (writeAck s)

/-- One invocation of the Bit Engine (R132). -/
def engine (s : State) : Out :=
  match phaseAt s.ps s.fc with
  | some ph => .next (runPhase ph s)
  | none => .refused .noPhase

/-- A falling edge of the clock line: taken when armed, else lost for good (R130, R45, R255). -/
def fallingEdge (s : State) : Out := if s.irqArmed then engine s else .next s

/-- The device, having let the clock go, pulls it low with its data drive as it stands. While the host holds the clock
low the line cannot fall, so there is no edge (R44; log 14). An edge enters interrupt context, and the invocation runs,
only while armed; it is lost otherwise (R130, R132, R264, R45). -/
def atFall (invocation : State → Out) (s : State) : Out :=
  let s1 : State := { s with devClk := .low }
  match s.clkDrive with
  | .low => .next s1
  | .released => if s1.irqArmed then invocation s1 else .next s1

/-- `EDGE d`: the clock falls with the device's data drive at `d` (R118, R43). -/
def clockEdge (d : Bool) (s : State) : Out := atFall engine { s with devData := driveOf d }

/-- The device sets its two drives; an edge is the clock line going from 1 to 0 (R40). -/
def setDeviceLines (clk data : Drive) (s : State) : Out :=
  let s1 : State := { s with devClk := clk, devData := data }
  if clkLine s && !clkLine s1 then fallingEdge s1 else .next s1

/-- `clk_low`: it makes the line fall if it was high, and that is an edge (R175; log 15). -/
def pullClockLow (s : State) : Out :=
  let s1 : State := { s with clkDrive := .low }
  if clkLine s then fallingEdge s1 else .next s1

/-- The device makes the next edge of the frame it has begun (R119; log 3). -/
def deviceStep (s : State) : Out :=
  match s.dev with
  | [] => .next s
  | d :: rest => clockEdge d { s with dev := rest }

/-- The device begins a frame: its first edge at once, or after the frame it is still clocking (log 3). -/
def beginFrame (levels : List Bool) (s : State) : Out :=
  match s.dev with
  | [] => deviceStep { s with dev := levels }
  | _ :: _ => .next { s with dev := s.dev ++ levels }

/-- The branch of an invocation on the pair (`ps`, `fc`) read at entry: this row's phase if the pair is the row's, else
the phase that the pair does select (R132, R100). -/
def branch (p : PortState) (f : BitVec 4) (ph : Phase) (s : State) : Out :=
  if s.ps = p ∧ s.fc = f then .next (runPhase ph s) else engine s

/-- A phase row of the table as an operation: one edge, at the device's data drive as it stands, with the invocation
that handles it (R130, R132; log 13). Interrupt context only (R264). -/
def atSelector (p : PortState) (f : BitVec 4) (ph : Phase) (s : State) : Out :=
  if s.ctx = .interrupt then atFall (branch p f ph) s else .refused .wrongContext

/-- The invocation of an edge with `push(v)` as the call its stop phase makes (R132, R136, R160). At any other pair it is
the ordinary invocation, which calls no push, `ERR_NOP` in particular (R253). With `v` the Shift Register it is the
ordinary invocation everywhere. -/
def enginePushing (v : Byte) (s : State) : Out :=
  if s.ps = .read ∧ s.fc = 1 then .next (countDown (stopPushing v s)) else engine s

/-- A frame the device sends (R119); edges are interrupt context (R264). -/
def fromDevice (levels : List Bool) (s : State) : Out :=
  if s.ctx = .interrupt then beginFrame levels s else .refused .wrongContext

end Sys2Proof.Machine
end

