-- ==== Sys2Proof/Machine/BitEngine.lean ====
section
/-! DEFINITION. The meanings of the EDGE selector rows and of EDGE (40_bit_engine.md). -/
namespace Sys2Proof.Machine

/-- `ERR_NOP` with cursor `f`: nothing of the block changes (R131). -/
def execErrNop (f : BitVec 4) (s : State) : Out := atSelector .error f .errNop s

/-- `RD_START` (R133). -/
def execRdStart (s : State) : Out := atSelector .read 11 .rdStart s

/-! `RD_DATA`, bit `10 - fc` (R134). -/
def execRdDataB0 (s : State) : Out := atSelector .read 10 .rdData s
def execRdDataB1 (s : State) : Out := atSelector .read 9 .rdData s
def execRdDataB2 (s : State) : Out := atSelector .read 8 .rdData s
def execRdDataB3 (s : State) : Out := atSelector .read 7 .rdData s
def execRdDataB4 (s : State) : Out := atSelector .read 6 .rdData s
def execRdDataB5 (s : State) : Out := atSelector .read 5 .rdData s
def execRdDataB6 (s : State) : Out := atSelector .read 4 .rdData s
def execRdDataB7 (s : State) : Out := atSelector .read 3 .rdData s

/-- `RD_PARITY` (R135). -/
def execRdParity (s : State) : Out := atSelector .read 2 .rdParity s

/-- `RD_STOP` (R136). -/
def execRdStop (s : State) : Out := atSelector .read 1 .rdStop s

/-! `WR_DATA`, bit `11 - fc` (R137). -/
def execWrDataB0 (s : State) : Out := atSelector .write 11 .wrData s
def execWrDataB1 (s : State) : Out := atSelector .write 10 .wrData s
def execWrDataB2 (s : State) : Out := atSelector .write 9 .wrData s
def execWrDataB3 (s : State) : Out := atSelector .write 8 .wrData s
def execWrDataB4 (s : State) : Out := atSelector .write 7 .wrData s
def execWrDataB5 (s : State) : Out := atSelector .write 6 .wrData s
def execWrDataB6 (s : State) : Out := atSelector .write 5 .wrData s
def execWrDataB7 (s : State) : Out := atSelector .write 4 .wrData s

/-- `WR_PARITY` (R138). -/
def execWrParity (s : State) : Out := atSelector .write 3 .wrParity s

/-- `WR_STOP` (R139). -/
def execWrStop (s : State) : Out := atSelector .write 2 .wrStop s

/-- `WR_ACK` (R140). -/
def execWrAck (s : State) : Out := atSelector .write 1 .wrAck s

/-- `EDGE d`: dispatches on the selector rows (R130, R132). In interrupt context only (R264, U6). -/
def execEdge (d : Bool) (s : State) : Out :=
  if s.ctx = .interrupt then clockEdge d s else .refused .wrongContext

end Sys2Proof.Machine
end

