-- ==== Sys2Proof/Machine/Mainline.lean ====
section
/-! DEFINITION. The main line: the sub-step programs of its operations and what one sub-step does
(42_port_control.md, 43_mouse_session.md). -/
namespace Sys2Proof.Machine

/-! ## Programs -/

/-- `write_byte(v)`: W1 to W7, in this order and no other (R190). -/
def writeByteProgram (v : Byte) : List Micro :=
  [.irqDisarm, .clkLow, .hold, .dataLow, .clkRelease, .setup v, .irqArm]

/-- `send_byte_with_ack(v)`: A1 to A3 (R198). -/
def sendProgram (v : Byte) : List Micro := writeByteProgram v ++ [.recv, .ackCheck]

/-- `cmd(v)` (R212). -/
def cmdProgram (v : Byte) : List Micro := sendProgram v ++ [.cmdTest]

/-- S4 and S5, present only when `WHEEL_ENABLED` (R216, R217). -/
def wheelProgram : List Micro :=
  cmdProgram Config.cmdSetRate ++ cmdProgram Config.rate200
    ++ cmdProgram Config.cmdSetRate ++ cmdProgram Config.rate100
    ++ cmdProgram Config.cmdSetRate ++ cmdProgram Config.rate80
    ++ cmdProgram Config.cmdGetId ++ [.recv, .wheelRecord]

/-- `start_session()`: S0 to S8 (R222). -/
def sessionProgram (wheelEnabled : Bool) (rate : Byte) : List Micro :=
  [.sessionInit] ++ cmdProgram Config.cmdReset
    ++ [.recv, .batCheck, .recv, .idCheck]
    ++ (if wheelEnabled then wheelProgram else [])
    ++ cmdProgram Config.cmdSetRes ++ cmdProgram Config.resArg
    ++ cmdProgram Config.cmdSetRate ++ cmdProgram rate
    ++ cmdProgram Config.cmdEnable ++ [.streaming]

/-- What follows the session that is running: everything after its last sub-step (log 27). -/
def afterSession (l : List Micro) : List Micro :=
  match l with
  | [] => []
  | .streaming :: rest => rest
  | _ :: rest => afterSession rest

/-- `goto FAIL` (R212, R221). -/
def gotoFail (s : State) : State := { s with main := .sessionFail :: afterSession s.main }

/-- P3 for a 3-byte packet: `b`, `x`, `y` in this order (R227). -/
def packetProgram3 (b0 b1 b2 : Byte) : List Micro := [.putB b0, .addX b1, .subY b2]

/-- P3 for a 4-byte packet: `b`, `x`, `y`, `z` in this order (R227). -/
def packetProgram4 (b0 b1 b2 b3 : Byte) : List Micro := [.putB b0, .addX b1, .subY b2, .addZ b3]

/-- P2 and P3 for the next packet, then P1 again (R224). -/
def takePacketProgram (len : Nat) : List Micro :=
  List.replicate len .takeByte ++ [.decodePacket, .packetTest]

/-! ## Sub-steps. `s.main` is already what follows the sub-step. -/

/-- `b <- byte0 & 0x07`: overwriting, not merging (R227). -/
def putButtons (b0 : Byte) (s : State) : State := { s with b := buttonsOf b0 }

/-- `x <- wrap(x + int8(v))` (R227, R228). -/
def addToX (v : Byte) (s : State) : State := { s with x := wrap s.accBits (s.x + int8 v) }

/-- `y <- wrap(y - int8(v))`, the negation at accumulator width (R227, R228, R114). -/
def subFromY (v : Byte) (s : State) : State := { s with y := wrap s.accBits (s.y - int8 v) }

/-- `z <- wrap(z + int8(v))` (R227, R228). -/
def addToZ (v : Byte) (s : State) : State := { s with z := wrap s.accBits (s.z + int8 v) }

/-- `pop()` as an operation: its result goes to the caller (R162, R163). -/
def popStep (s : State) : State :=
  match ringPop s with
  | none => { s with ret := .popped none }
  | some (v, t) => { t with ret := .popped (some v) }

/-- B1: one poll. Without a byte the loop goes round again (R195, R196). -/
def recvStep (s : State) : State :=
  match ringPop s with
  | none => { s with main := .recv :: s.main }
  | some (v, t) => { t with reply := v, ret := .byte v }

/-- A3 (R198). -/
def ackCheckStep (s : State) : State :=
  if s.reply = Config.rspAck then s else raisePortError .badReply s

/-- The test of `ps` after a command (R212). -/
def cmdTestStep (s : State) : State := if s.ps = .error then gotoFail s else s

/-- S2's test (R214). -/
def batCheckStep (s : State) : State :=
  if s.reply = Config.rspBatOk then s else gotoFail (raisePortError .badBat s)

/-- S3's test (R215). -/
def idCheckStep (s : State) : State :=
  if s.reply = Config.rspIdStd then s else gotoFail (raisePortError .badId s)

/-- S5's assignment: any id is accepted (R217). -/
def wheelRecordStep (s : State) : State := { s with wheel := s.reply == Config.wheelId }

/-- S8's end (R220). -/
def streamingStep (s : State) : State := { s with sess := .streaming, ret := .flag true }

/-- FAIL (R221). -/
def sessionFailStep (s : State) : State := { s with sess := .faulted, ret := .flag false }

/-- P1: while a complete packet is held, take it; else P4 (R224, R226). -/
def packetTestStep (s : State) : State :=
  if packetLen s.wheel ≤ s.count then { s with pkt := [], main := takePacketProgram (packetLen s.wheel) ++ s.main }
  else { s with main := .recovery :: s.main }

/-- One pop of P2 (R226). -/
def takeByteStep (s : State) : Out :=
  match ringPop s with
  | none => .fault .packetUnderrun
  | some (v, t) => .next { t with pkt := t.pkt ++ [v] }

/-- P3 for the bytes taken: the write of `b` now, the accumulators in the steps that follow (R227). -/
def decodePacketStep (s : State) : Out :=
  match s.pkt with
  | [b0, b1, b2] => .next (putButtons b0 { s with main := [.addX b1, .subY b2] ++ s.main })
  | [b0, b1, b2, b3] => .next (putButtons b0 { s with main := [.addX b1, .subY b2, .addZ b3] ++ s.main })
  | _ => .fault .packetUnderrun

/-- P4: count the error and re-handshake, or return true (R224, R229, R230). -/
def recoveryStep (s : State) : State :=
  if s.ps = .error then
    { s with errcnt := s.errcnt + 1, main := sessionProgram s.wheelEnabled s.sampleRate ++ s.main }
  else { s with ret := .flag true }

/-- What one sub-step does. -/
def runMicro (m : Micro) (s : State) : Out :=
  match m with
  | .clkLow => pullClockLow s
  | .clkRelease => .next { s with clkDrive := .released }
  | .dataLow => .next { s with dataDrive := .low }
  | .dataRelease => .next { s with dataDrive := .released }
  | .hold => .next (delayFor Config.tHold s)
  | .wait t => .next (delayFor t s)
  | .irqDisarm => .next { s with irqArmed := false }
  | .irqArm => .next { s with irqArmed := true }
  | .clear => .next (ringClear s)
  | .pop => .next (popStep s)
  | .initPort => .next (initializePort s)
  | .setup v => .next (writeSetup v s)
  | .recv => .next (recvStep s)
  | .ackCheck => .next (ackCheckStep s)
  | .cmdTest => .next (cmdTestStep s)
  | .sessionInit => .next (sessionInit s)
  | .batCheck => .next (batCheckStep s)
  | .idCheck => .next (idCheckStep s)
  | .wheelRecord => .next (wheelRecordStep s)
  | .streaming => .next (streamingStep s)
  | .sessionFail => .next (sessionFailStep s)
  | .packetTest => .next (packetTestStep s)
  | .takeByte => takeByteStep s
  | .decodePacket => decodePacketStep s
  | .putB v => .next (putButtons v s)
  | .addX v => .next (addToX v s)
  | .subY v => .next (subFromY v s)
  | .addZ v => .next (addToZ v s)
  | .recovery => .next (recoveryStep s)

/-- The main line takes its next sub-step; with none it does nothing (R291). -/
def mainStep (s : State) : Out :=
  match s.main with
  | [] => .next s
  | m :: rest => runMicro m { s with main := rest }

/-- The main line is given an operation: it begins it at once, or after what it is doing (R71; log 2). -/
def beginMain (program : List Micro) (s : State) : Out :=
  match s.main with
  | [] => mainStep { s with main := program }
  | _ :: _ => .next { s with main := s.main ++ program }

/-- An operation that only main-line context may run (R264, R77). -/
def onMainLine (program : List Micro) (s : State) : Out :=
  if s.ctx = .mainline then beginMain program s else .refused .wrongContext

/-- An entry point, which the consumer may call as well: it runs on the main line (R14, R265). -/
def onEntry (program : List Micro) (s : State) : Out :=
  if s.ctx = .interrupt then .refused .wrongContext else beginMain program s

/-- The main line waits: it has nothing to do, or polls an empty ring (R195, R196). -/
def mainWaits (s : State) : Bool :=
  match s.main with
  | [] => true
  | .recv :: _ => ringEmpty s.count
  | _ :: _ => false

end Sys2Proof.Machine
end

