-- ==== Sys2Proof/Machine/Packets.lean ====
section
/-! DEFINITION. The meanings of the packet rows (30_encoding.md R113 to R116; 43_mouse_session.md R227; log 18). -/
namespace Sys2Proof.Machine

/-- `PACKET3`: used when `wheel = false`. Bits 7 to 3 of byte 0 have no effect (R115). DESIGN CHOICE (log 34) where the
main line is busy: `wheel` is tested at the invocation, and the steps of P3 that wait keep that length even if a session
that runs before them changes `wheel`; unsafe for a claim about such a row. -/
def execPacket3 (i : BitVec 5) (m : BitVec 3) (dx dy : Byte) (s : State) : Out :=
  if s.wheel then .refused .packetLength else onMainLine (packetProgram3 (i ++ m : BitVec 8) dx dy) s

/-- `PACKET4`: used when `wheel = true`, tested at the invocation as for `PACKET3` (DESIGN CHOICE, log 34). -/
def execPacket4 (i : BitVec 5) (m : BitVec 3) (dx dy dz : Byte) (s : State) : Out :=
  if s.wheel then onMainLine (packetProgram4 (i ++ m : BitVec 8) dx dy dz) s else .refused .packetLength

end Sys2Proof.Machine
end

