-- ==== Sys2Proof/Machine/Port.lean ====
section
/-! DEFINITION. The meanings of the line primitives and the blocking host primitives (42_port_control.md). -/
namespace Sys2Proof.Machine

/-- `clk_low` (R175). -/
def execClkLow (s : State) : Out := onMainLine [.clkLow] s

/-- `clk_release` (R175). -/
def execClkRelease (s : State) : Out := onMainLine [.clkRelease] s

/-- `data_low` (R175): main-line only; the data drive that R9 gives to EDGE is the write phases' (R137 to R139, R264). -/
def execDataLow (s : State) : Out := onMainLine [.dataLow] s

/-- `data_release` (R175). -/
def execDataRelease (s : State) : Out := onMainLine [.dataRelease] s

/-- `delay(t)` (R176). -/
def execDelay (t : Nat) (s : State) : Out := onMainLine [.wait t] s

/-- `irq_disarm` (R177). -/
def execIrqDisarm (s : State) : Out := onMainLine [.irqDisarm] s

/-- `irq_arm` (R177): it starts clean, no earlier edge is remembered (R45). -/
def execIrqArm (s : State) : Out := onMainLine [.irqArm] s

/-- `initialize_port()` (R185). -/
def execInitializePort (s : State) : Out := onMainLine [.initPort] s

/-- `write_byte(v)` (R190). -/
def execWriteByte (v : Byte) (s : State) : Out := onMainLine (writeByteProgram v) s

/-- `recv_byte_blocking()` (R195, R196). -/
def execRecvByteBlocking (s : State) : Out := onMainLine [.recv] s

/-- `send_byte_with_ack(v)` (R198). -/
def execSendByteWithAck (v : Byte) (s : State) : Out := onMainLine (sendProgram v) s

end Sys2Proof.Machine
end

