-- ==== Sys2Proof/Machine/Ring.lean ====
section
/-! DEFINITION. The meanings of push, pop and clear (41_ring_buffer.md). -/
namespace Sys2Proof.Machine

/-- `push(v)`: interrupt context only (R160, R161, R77, R264). Its only caller is RD_STOP (R160), inside the one
invocation an armed edge gets (R130). As an operation of its own it is therefore such an edge with its whole invocation:
at the stop phase with the stop bit high the call made is `push(v)` with the named byte, and `fc` is reloaded and counted
down (R136, R141); at any other pair the phase selected there runs and nothing is pushed (R253). DESIGN CHOICE (log 32):
the spec gives no push outside RD_STOP; unsafe where `v` is not the Shift Register's value. -/
def execPush (v : Byte) (s : State) : Out :=
  if s.ctx = .interrupt then atFall (enginePushing v) s else .refused .wrongContext

/-- `pop()`: main-line context only (R162, R163, R77). -/
def execPop (s : State) : Out := onMainLine [.pop] s

/-- `clear()` (R164). -/
def execClear (s : State) : Out := onMainLine [.clear] s

end Sys2Proof.Machine
end

