-- ==== Sys2Proof/Machine/SentBytes.lean ====
section
/-! DEFINITION. The meanings of the command and argument bytes: each is sent with send_byte_with_ack
(30_encoding.md R106, R108, R110; log 17). -/
namespace Sys2Proof.Machine

def execCmdReset (s : State) : Out := onMainLine (sendProgram Config.cmdReset) s
def execCmdGetId (s : State) : Out := onMainLine (sendProgram Config.cmdGetId) s
def execCmdSetRate (s : State) : Out := onMainLine (sendProgram Config.cmdSetRate) s
def execCmdSetRes (s : State) : Out := onMainLine (sendProgram Config.cmdSetRes) s
def execCmdEnable (s : State) : Out := onMainLine (sendProgram Config.cmdEnable) s
def execArgRate200 (s : State) : Out := onMainLine (sendProgram Config.rate200) s
def execArgRate100 (s : State) : Out := onMainLine (sendProgram Config.rate100) s
def execArgRate80 (s : State) : Out := onMainLine (sendProgram Config.rate80) s
def execArgRes8cpmm (s : State) : Out := onMainLine (sendProgram Config.resArg) s

/-- `ARG_RATE_CFG r`: the configured rate, sent as it is (R219). -/
def execArgRateCfg (r : Byte) (s : State) : Out := onMainLine (sendProgram r) s

end Sys2Proof.Machine
end

