-- ==== Sys2Proof/Machine/ConsumerAccess.lean ====
section
/-! DEFINITION. The consumer's accesses, one variable a step (43_mouse_session.md R236, R237; 20_memory.md R81). -/
namespace Sys2Proof.Machine

/-- What one access does. A drain writes back the copy it read less the amount, so that an add by the decoder in
between is lost (R81; log 20). -/
def runAccess (a : Access) (s : State) : State :=
  match a with
  | .readX => { s with snap := { s.snap with x := s.x } }
  | .readY => { s with snap := { s.snap with y := s.y } }
  | .readZ => { s with snap := { s.snap with z := s.z } }
  | .readB => { s with snap := { s.snap with b := s.b } }
  | .readSess => { s with snap := { s.snap with sess := s.sess } }
  | .readWheel => { s with snap := { s.snap with wheel := s.wheel } }
  | .readErrcnt => { s with snap := { s.snap with errcnt := s.errcnt } }
  | .writeX d => { s with x := wrap s.accBits (s.snap.x - d) }
  | .writeY d => { s with y := wrap s.accBits (s.snap.y - d) }
  | .writeZ d => { s with z := wrap s.accBits (s.snap.z - d) }

/-- `consumer_read()`: `x`, `y`, `z`, `b`, and the three further variables it may read (R236, R58). DESIGN CHOICE
(log 30): it reads them all; safe, since a read changes nothing of the block. -/
def readProgram : List Access := [.readX, .readY, .readZ, .readB, .readWheel, .readErrcnt, .readSess]

/-- `consumer_drain(dx, dy, dz)` (R237). -/
def drainProgram (dx dy dz : Acc) : List Access :=
  [.readX, .writeX dx, .readY, .writeY dy, .readZ, .writeZ dz]

/-- The consumer makes its next access. -/
def consumerStep (s : State) : Out :=
  match s.cons with
  | [] => .next s
  | a :: rest => .next (runAccess a { s with cons := rest })

/-- The consumer begins an operation at once, or after what it is doing. -/
def beginConsumer (program : List Access) (s : State) : Out :=
  match s.cons with
  | [] => consumerStep { s with cons := program }
  | _ :: _ => .next { s with cons := s.cons ++ program }

/-- A consumer operation: not from interrupt context, which runs EDGE and push only (R264). -/
def byConsumer (program : List Access) (s : State) : Out :=
  if s.ctx = .interrupt then .refused .wrongContext else beginConsumer program s

end Sys2Proof.Machine
end

