-- ==== Sys2Proof/Machine/SessionOps.lean ====
section
/-! DEFINITION. The meanings of the session's entry points and of the consumer's operations (43_mouse_session.md). -/
namespace Sys2Proof.Machine

/-- `start_session()` (R222). The configuration inputs are read at the call; nothing changes them (R55; log 10). -/
def execStartSession (s : State) : Out := onEntry (sessionProgram s.wheelEnabled s.sampleRate) s

/-- `process_available_data()` (R224). -/
def execProcessAvailableData (s : State) : Out := onEntry [.packetTest] s

/-- `consumer_read()` (R236). -/
def execConsumerRead (s : State) : Out := byConsumer readProgram s

/-- `consumer_drain(dx, dy, dz)` (R237). -/
def execConsumerDrain (dx dy dz : Acc) (s : State) : Out := byConsumer (drainProgram dx dy dz) s

end Sys2Proof.Machine
end

