-- ==== Sys2Proof/Machine/Wire.lean ====
section
/-! DEFINITION. The meanings of the wire frames and of the reply bytes (30_encoding.md R90, R91, R107, R119). -/
namespace Sys2Proof.Machine

/-- `FRAME_RX`: the device clocks a read frame carrying `v` with parity level `p`, eleven edges (R90, R119). -/
def execFrameRx (v : Byte) (p : Bool) (s : State) : Out := fromDevice (frameLevels v p) s

/-- `FRAME_TX`: the host's request-to-send for `v`, then the device's eleven clock edges with `k` on the line at the
last (R16, R91; log 16). The parity position is the host's own `P(v)`, which `Instr.wf` demands of `p`. DESIGN CHOICE
(log 33) where the main line is busy: the request-to-send waits behind what it is doing, while the eleven edges stand in
`dev` from the invocation on and may be clocked before it; safe, since the device may clock at any time. -/
def execFrameTx (v : Byte) (_p k : Bool) (s : State) : Out :=
  onMainLine (writeByteProgram v) { s with dev := s.dev ++ txClockLevels k }

/-! Reply bytes: `DEVREPLY v`, a correct read frame carrying the byte (R107, R119). -/
def execRspAck (s : State) : Out := fromDevice (frameLevels Config.rspAck (parity Config.rspAck)) s
def execRspBatOk (s : State) : Out := fromDevice (frameLevels Config.rspBatOk (parity Config.rspBatOk)) s
def execRspIdStd (s : State) : Out := fromDevice (frameLevels Config.rspIdStd (parity Config.rspIdStd)) s
def execRspIdWheel (s : State) : Out := fromDevice (frameLevels Config.wheelId (parity Config.wheelId)) s

end Sys2Proof.Machine
end

