-- ==== Sys2Proof/Machine/Dispatch.lean ====
section
/-! DEFINITION. One arm per constructor of Instr: a direct call of its meaning. -/
namespace Sys2Proof.Machine

def exec (i : Instr) (s : State) : Host.Outcome State Fault Refusal :=
  match i with
  | .errNop f => Sys2Proof.Machine.execErrNop f s
  | .rdStart => Sys2Proof.Machine.execRdStart s
  | .rdDataB0 => Sys2Proof.Machine.execRdDataB0 s
  | .rdDataB1 => Sys2Proof.Machine.execRdDataB1 s
  | .rdDataB2 => Sys2Proof.Machine.execRdDataB2 s
  | .rdDataB3 => Sys2Proof.Machine.execRdDataB3 s
  | .rdDataB4 => Sys2Proof.Machine.execRdDataB4 s
  | .rdDataB5 => Sys2Proof.Machine.execRdDataB5 s
  | .rdDataB6 => Sys2Proof.Machine.execRdDataB6 s
  | .rdDataB7 => Sys2Proof.Machine.execRdDataB7 s
  | .rdParity => Sys2Proof.Machine.execRdParity s
  | .rdStop => Sys2Proof.Machine.execRdStop s
  | .wrDataB0 => Sys2Proof.Machine.execWrDataB0 s
  | .wrDataB1 => Sys2Proof.Machine.execWrDataB1 s
  | .wrDataB2 => Sys2Proof.Machine.execWrDataB2 s
  | .wrDataB3 => Sys2Proof.Machine.execWrDataB3 s
  | .wrDataB4 => Sys2Proof.Machine.execWrDataB4 s
  | .wrDataB5 => Sys2Proof.Machine.execWrDataB5 s
  | .wrDataB6 => Sys2Proof.Machine.execWrDataB6 s
  | .wrDataB7 => Sys2Proof.Machine.execWrDataB7 s
  | .wrParity => Sys2Proof.Machine.execWrParity s
  | .wrStop => Sys2Proof.Machine.execWrStop s
  | .wrAck => Sys2Proof.Machine.execWrAck s
  | .frameRx v p => Sys2Proof.Machine.execFrameRx v p s
  | .frameTx v p k => Sys2Proof.Machine.execFrameTx v p k s
  | .cmdReset => Sys2Proof.Machine.execCmdReset s
  | .cmdGetId => Sys2Proof.Machine.execCmdGetId s
  | .cmdSetRate => Sys2Proof.Machine.execCmdSetRate s
  | .cmdSetRes => Sys2Proof.Machine.execCmdSetRes s
  | .cmdEnable => Sys2Proof.Machine.execCmdEnable s
  | .rspAck => Sys2Proof.Machine.execRspAck s
  | .rspBatOk => Sys2Proof.Machine.execRspBatOk s
  | .rspIdStd => Sys2Proof.Machine.execRspIdStd s
  | .rspIdWheel => Sys2Proof.Machine.execRspIdWheel s
  | .argRate200 => Sys2Proof.Machine.execArgRate200 s
  | .argRate100 => Sys2Proof.Machine.execArgRate100 s
  | .argRate80 => Sys2Proof.Machine.execArgRate80 s
  | .argRes8cpmm => Sys2Proof.Machine.execArgRes8cpmm s
  | .argRateCfg r => Sys2Proof.Machine.execArgRateCfg r s
  | .packet3 i5 m dx dy => Sys2Proof.Machine.execPacket3 i5 m dx dy s
  | .packet4 i5 m dx dy dz => Sys2Proof.Machine.execPacket4 i5 m dx dy dz s
  | .edge d => Sys2Proof.Machine.execEdge d s
  | .push v => Sys2Proof.Machine.execPush v s
  | .pop => Sys2Proof.Machine.execPop s
  | .clear => Sys2Proof.Machine.execClear s
  | .clkLow => Sys2Proof.Machine.execClkLow s
  | .clkRelease => Sys2Proof.Machine.execClkRelease s
  | .dataLow => Sys2Proof.Machine.execDataLow s
  | .dataRelease => Sys2Proof.Machine.execDataRelease s
  | .delay t => Sys2Proof.Machine.execDelay t s
  | .irqDisarm => Sys2Proof.Machine.execIrqDisarm s
  | .irqArm => Sys2Proof.Machine.execIrqArm s
  | .initializePort => Sys2Proof.Machine.execInitializePort s
  | .writeByte v => Sys2Proof.Machine.execWriteByte v s
  | .recvByteBlocking => Sys2Proof.Machine.execRecvByteBlocking s
  | .sendByteWithAck v => Sys2Proof.Machine.execSendByteWithAck v s
  | .startSession => Sys2Proof.Machine.execStartSession s
  | .processAvailableData => Sys2Proof.Machine.execProcessAvailableData s
  | .consumerRead => Sys2Proof.Machine.execConsumerRead s
  | .consumerDrain dx dy dz => Sys2Proof.Machine.execConsumerDrain dx dy dz s

end Sys2Proof.Machine
end

