-- ==== Sys2Proof/Machine/Schedule.lean ====
section
/-! DEFINITION. Which agent moves, and how an event word is fetched and run (20_memory.md R71; logs 1, 6, 12). -/
namespace Sys2Proof.Machine

/-- The invocation of an operation enters its context (R264). Interrupt context is entered by an edge: each operation
that may run there (EDGE, the phase rows, push, a frame's edges) makes that edge itself, and runs its invocation only if
the clock falls while armed (`atFall`). -/
def enterContext (c : Context) (s : State) : State := { s with ctx := c }

/-- When it returns the main line is running again, nothing being restored (R259, R291). -/
def leaveContext (s : State) : State := { s with ctx := .mainline }

/-- An operation is invoked: its event word is decoded and run in its context. -/
def issue (c : Context) (word : List Byte) (s : State) : Out :=
  match decode word with
  | .ok i => mapNext leaveContext (exec i (enterContext c s))
  | .reject r => .refused (.badWord r)

/-- One listed turn. -/
def takeTurn (t : Turn) (s : State) : Out :=
  match t with
  | .issue c word => issue c word s
  | .main => mainStep s
  | .device => deviceStep s
  | .consumer => consumerStep s
  | .lines clk data => setDeviceLines clk data s

/-- The turn taken when none is listed. DESIGN CHOICE (log 1): the consumer finishes what it has begun, then the main
line moves unless it waits, then the device clocks the frame it has begun. -/
def defaultTurn (s : State) : Out :=
  match s.cons with
  | _ :: _ => consumerStep s
  | [] =>
    match mainWaits s, s.dev with
    | true, _ :: _ => deviceStep s
    | _, _ => mainStep s

/-- The next turn. -/
def nextTurn (s : State) : Out :=
  match s.sched with
  | t :: rest => takeTurn t { s with sched := rest }
  | [] => defaultTurn s

/-! ## Placing an operation where the next step fetches it -/

/-- The context that runs an operation (00_scope.md R9, R264; the device's frames are edges, hence interrupt). -/
def contextOf (i : Instr) : Context :=
  match i with
  | .errNop _ | .rdStart => .interrupt
  | .rdDataB0 | .rdDataB1 | .rdDataB2 | .rdDataB3 | .rdDataB4 | .rdDataB5 | .rdDataB6 | .rdDataB7 => .interrupt
  | .rdParity | .rdStop => .interrupt
  | .wrDataB0 | .wrDataB1 | .wrDataB2 | .wrDataB3 | .wrDataB4 | .wrDataB5 | .wrDataB6 | .wrDataB7 => .interrupt
  | .wrParity | .wrStop | .wrAck => .interrupt
  | .frameRx _ _ => .interrupt
  | .frameTx _ _ _ => .mainline
  | .cmdReset | .cmdGetId | .cmdSetRate | .cmdSetRes | .cmdEnable => .mainline
  | .rspAck | .rspBatOk | .rspIdStd | .rspIdWheel => .interrupt
  | .argRate200 | .argRate100 | .argRate80 | .argRes8cpmm | .argRateCfg _ => .mainline
  | .packet3 _ _ _ _ | .packet4 _ _ _ _ _ => .mainline
  | .edge _ | .push _ => .interrupt
  | .pop | .clear => .mainline
  | .clkLow | .clkRelease | .dataLow | .dataRelease => .mainline
  | .delay _ | .irqDisarm | .irqArm | .initializePort | .writeByte _ => .mainline
  | .recvByteBlocking | .sendByteWithAck _ | .startSession | .processAvailableData => .mainline
  | .consumerRead | .consumerDrain _ _ _ => .consumer

/-- The pair (`ps`, `fc`) a phase row selects on, and the pair of push's only caller; none for every other row (R100,
R160). -/
def selectorOf (i : Instr) : Option (PortState × BitVec 4) :=
  match i with
  | .errNop f => some (.error, f)
  | .rdStart => some (.read, 11)
  | .rdDataB0 => some (.read, 10)
  | .rdDataB1 => some (.read, 9)
  | .rdDataB2 => some (.read, 8)
  | .rdDataB3 => some (.read, 7)
  | .rdDataB4 => some (.read, 6)
  | .rdDataB5 => some (.read, 5)
  | .rdDataB6 => some (.read, 4)
  | .rdDataB7 => some (.read, 3)
  | .rdParity => some (.read, 2)
  | .rdStop => some (.read, 1)
  | .wrDataB0 => some (.write, 11)
  | .wrDataB1 => some (.write, 10)
  | .wrDataB2 => some (.write, 9)
  | .wrDataB3 => some (.write, 8)
  | .wrDataB4 => some (.write, 7)
  | .wrDataB5 => some (.write, 6)
  | .wrDataB6 => some (.write, 5)
  | .wrDataB7 => some (.write, 4)
  | .wrParity => some (.write, 3)
  | .wrStop => some (.write, 2)
  | .wrAck => some (.write, 1)
  | .frameRx _ _ | .frameTx _ _ _ => none
  | .cmdReset | .cmdGetId | .cmdSetRate | .cmdSetRes | .cmdEnable => none
  | .rspAck | .rspBatOk | .rspIdStd | .rspIdWheel => none
  | .argRate200 | .argRate100 | .argRate80 | .argRes8cpmm | .argRateCfg _ => none
  | .packet3 _ _ _ _ | .packet4 _ _ _ _ _ => none
  | .push _ => some (.read, 1)
  | .edge _ | .pop | .clear => none
  | .clkLow | .clkRelease | .dataLow | .dataRelease => none
  | .delay _ | .irqDisarm | .irqArm | .initializePort | .writeByte _ => none
  | .recvByteBlocking | .sendByteWithAck _ | .startSession | .processAvailableData => none
  | .consumerRead | .consumerDrain _ _ _ => none

/-- The value of `wheel` with which a packet row is decoded; none for every other row (R113, R116). -/
def packetMode (i : Instr) : Option Bool :=
  match i with
  | .packet3 _ _ _ _ => some false
  | .packet4 _ _ _ _ _ => some true
  | _ => none

/-- What the fetch of a word needs besides the listed turn: the agent that runs it has nothing else to do, a phase
row is the one selected at an edge that can be handled (its selector word being (`ps`, `fc`) themselves, R78), push finds
the stop phase with the data line high, and a packet row has the length that `wheel` selects (log 6). -/
def readyFor (i : Instr) (s : State) : State :=
  match selectorOf i, packetMode i, contextOf i with
  | some (p, f), _, _ => { s with ps := p, fc := f, irqArmed := true, clkDrive := .released }
  | none, some w, _ => { s with wheel := w, main := [] }
  | none, none, .mainline => { s with main := [] }
  | none, none, .interrupt => { s with dev := [] }
  | none, none, .consumer => { s with cons := [] }

/-- push is called only when the stop bit is high (R136): both sides let the data line go. -/
def dataLineFor (i : Instr) (s : State) : State :=
  match i with
  | .push _ => { s with dataDrive := .released, devData := .released }
  | _ => s

/-- The turn that invokes the operation a word decodes to; a word without meaning is handed to the main line. -/
def turnFor (word : List Byte) : Turn :=
  match decode word with
  | .ok i => .issue (contextOf i) word
  | .reject _ => .issue .mainline word

/-- The state in which the next step fetches and runs the given bytes. -/
def placeWord (word : List Byte) (s : State) : State :=
  match decode word with
  | .ok i => readyFor i (dataLineFor i { s with sched := turnFor word :: s.sched })
  | .reject _ => { s with sched := turnFor word :: s.sched }

end Sys2Proof.Machine
end

