-- ==== Sys2Proof/Safety.lean ====
section
/-! DEFINITION. The terms in which claims about runs are stated: invariants, runs, and what is seen on the wire. -/
namespace Sys2Proof.Machine

/-! ## Invariants -/

/-- `0 <= count <= N` and `wr = (rd + count) mod N` (10_state.md R31), and the ring storage in canonical form; that
the indices lie in `[0, N)` is their type. -/
abbrev RingInv (s : State) : Prop :=
  Memory.wf s.ring = true ∧ s.count ≤ Config.ringCapacity ∧ s.wr = s.rd + BitVec.ofNat 8 s.count

/-- Between invocations the cursor is at most 11, and it is 1 to 11 whenever `ps` is `Read` or `Write` (R26). -/
abbrev CursorInv (s : State) : Prop :=
  s.fc.toNat ≤ 11 ∧ (s.ps ≠ .error → 1 ≤ s.fc.toNat)

/-- Bits 7 to 3 of `b` are always 0 (R52, R59). -/
abbrev ButtonInv (s : State) : Prop := s.b.toNat < 8

/-- Each accumulator holds what a two's complement cell of ACC_BITS bits can (R51). -/
abbrev AccInv (s : State) : Prop :=
  wrap s.accBits s.x = s.x ∧ wrap s.accBits s.y = s.y ∧ wrap s.accBits s.z = s.z

/-- The state invariant of the block. -/
abbrev Inv (s : State) : Prop := RingInv s ∧ CursorInv s ∧ ButtonInv s ∧ AccInv s

/-- A main-line program without P2 and P3 sub-steps. -/
def NoPacketWork (l : List Micro) : Prop := ∀ m ∈ l, m ≠ .takeByte ∧ m ≠ .decodePacket

/-- While a packet is being taken, the pops still to be made find a byte each, and the bytes taken and still to be
taken are `PLEN` (43_mouse_session.md R226). -/
def PacketInv (s : State) : Prop :=
  NoPacketWork s.main ∨
    ∃ n rest, s.main = List.replicate n .takeByte ++ .decodePacket :: rest ∧ NoPacketWork rest ∧
      n ≤ s.count ∧ s.pkt.length + n = packetLen s.wheel

/-! ## Runs -/

/-- The turn in which an operation is invoked in its own context. -/
def invoke (i : Instr) : Turn := .issue (contextOf i) (encode i)

/-- `k` steps of the machine. -/
abbrev runFor (k : Nat) (s : State) : Out := Host.Core.run Sys2Proof.core k s

/-- No agent has anything left to do and the main line is running. -/
abbrev Idle (s : State) : Prop := s.main = [] ∧ s.dev = [] ∧ s.cons = [] ∧ s.ctx = .mainline

/-- The next edge is handled in interrupt context with (`ps`, `fc`) the given pair: the interrupt is armed and the host
lets the clock go (30_encoding.md R100, 40_bit_engine.md R130, 10_state.md R44). -/
abbrev Handles (s : State) (p : PortState) (f : BitVec 4) : Prop :=
  s.ctx = .interrupt ∧ s.irqArmed = true ∧ s.clkDrive = .released ∧ s.ps = p ∧ s.fc = f

/-- The main line is in its context with nothing to do. -/
abbrev MainIdle (s : State) : Prop := s.ctx = .mainline ∧ s.main = []

/-- S0 of `start_session` is the next sub-step of the main line (R211): it is listed, or the call itself is the next turn
while the main line is idle. -/
abbrev SessionStarts (s : State) : Prop :=
  (∃ rest, s.main = .sessionInit :: rest) ∨
    (s.main = [] ∧ ∃ c w rest, s.sched = .issue c w :: rest ∧ decode w = .ok .startSession)

/-- The `j`-th byte the ring holds, counted from the oldest (R31). -/
def heldByte (s : State) (j : Nat) : Byte := Memory.read s.ring (s.rd + BitVec.ofNat 8 j).toNat

/-- `s` with the first `n` packets of its ring decoded, the ring left as it is (43_mouse_session.md R224, P3). -/
def decodeHeld (s : State) (n : Nat) : State :=
  match n with
  | 0 => s
  | n + 1 =>
    let u := decodeHeld s n
    let first := n * packetLen s.wheel
    { u with b := heldByte s first &&& 7,
             x := wrap u.accBits (u.x + (heldByte s (first + 1)).toInt),
             y := wrap u.accBits (u.y - (heldByte s (first + 2)).toInt),
             z := if s.wheel then wrap u.accBits (u.z + (heldByte s (first + 3)).toInt) else u.z }

/-- `n` main-line turns, then as many as are given of the device. -/
def mainThenDevice (n m : Nat) : List Turn := List.replicate n .main ++ List.replicate m .device

/-! ## The wire -/

/-- The table of 30_encoding.md R100, the rows of `Read` and `Write`. -/
def phaseTable : List (PortState × BitVec 4 × Instr) :=
  [(.read, 11, .rdStart), (.read, 10, .rdDataB0), (.read, 9, .rdDataB1), (.read, 8, .rdDataB2),
   (.read, 7, .rdDataB3), (.read, 6, .rdDataB4), (.read, 5, .rdDataB5), (.read, 4, .rdDataB6),
   (.read, 3, .rdDataB7), (.read, 2, .rdParity), (.read, 1, .rdStop),
   (.write, 11, .wrDataB0), (.write, 10, .wrDataB1), (.write, 9, .wrDataB2), (.write, 8, .wrDataB3),
   (.write, 7, .wrDataB4), (.write, 6, .wrDataB5), (.write, 5, .wrDataB6), (.write, 4, .wrDataB7),
   (.write, 3, .wrParity), (.write, 2, .wrStop), (.write, 1, .wrAck)]

/-- The 23 phase rows, ERR_NOP with cursor `f` first. -/
def phaseRows (f : BitVec 4) : List Instr := .errNop f :: phaseTable.map fun row => row.2.2

/-- The rows that send one byte with `send_byte_with_ack`, each with its byte (30_encoding.md R106, R108, R110). -/
def sendingRows (v : Byte) : List (Instr × Byte) :=
  [(.sendByteWithAck v, v), (.cmdReset, 0xFF), (.cmdGetId, 0xF2), (.cmdSetRate, 0xF3), (.cmdSetRes, 0xE8),
   (.cmdEnable, 0xF4), (.argRate200, 200), (.argRate100, 100), (.argRate80, 80), (.argRes8cpmm, 3),
   (.argRateCfg v, v)]

/-- The rows that are a correct read frame from the device, each with its byte (R90, R107). -/
def receivingRows (v : Byte) : List (Instr × Byte) :=
  [(.frameRx v (parity v), v), (.rspAck, 0xFA), (.rspBatOk, 0xAA), (.rspIdStd, 0x00), (.rspIdWheel, 0x03)]

/-- The host's two drives and the armed bit of a next state. -/
def drivesOf (o : Out) : Option (Drive × Drive × Bool) :=
  match o with
  | .next s => some (s.clkDrive, s.dataDrive, s.irqArmed)
  | .fault _ => none
  | .refused _ => none

/-- The levels the host's drive leaves on the data line after each of the next `n` edges of the device. -/
def hostLevels (n : Nat) (s : State) : List Bool :=
  match n with
  | 0 => []
  | n + 1 =>
    match deviceStep s with
    | .next t => levelOf t.dataDrive :: hostLevels n t
    | .fault _ => []
    | .refused _ => []

/-- A correct read frame carrying `v` (30_encoding.md R119, RXFRAME). -/
def rxFrame (v : Byte) : List Bool := frameLevels v (parity v)

/-- The device clocks a write frame, acknowledges it and replies with `r`. -/
def ackThenReply (r : Byte) : List Bool := txClockLevels false ++ rxFrame r

/-- The bytes a main-line program sends, in order. -/
def sentBytes (l : List Micro) : List Byte :=
  l.filterMap fun m =>
    match m with
    | .setup v => some v
    | _ => none

/-- The device's part of the handshake without wheel detection (30_encoding.md R112). -/
def deviceScript : List Bool :=
  ackThenReply Config.rspAck ++ rxFrame Config.rspBatOk ++ rxFrame Config.rspIdStd
    ++ (List.replicate 5 (ackThenReply Config.rspAck)).flatten

/-- The device's part of the handshake with wheel detection, answering GET_DEVICE_ID with `id` (R112). -/
def wheelDeviceScript (id : Byte) : List Bool :=
  ackThenReply Config.rspAck ++ rxFrame Config.rspBatOk ++ rxFrame Config.rspIdStd
    ++ (List.replicate 7 (ackThenReply Config.rspAck)).flatten ++ rxFrame id
    ++ (List.replicate 5 (ackThenReply Config.rspAck)).flatten

end Sys2Proof.Machine
end

