-- ==== Sys2Proof/Certificates/Slice0/Obligations.lean ====
section
/-! DEFINITION. The statements for the provers. Each docstring names the rules of spec/ it formalises; where a clause
rests on a choice of the model the docstring names the log entry. -/
open Sys2Proof Sys2Proof.Machine

/-- For every well-formed instruction of all 60 rows, with every operand value, decode (encode i) is i. The event-word
tags are the model's choice (log 4). (30_encoding.md section 3, 30_encoding.md section 4, 30_encoding.md section 5) -/
def Obligations.DecodeInvertsEncode : Prop :=
  ∀ i : Instr, i.wf = true → decode (encode i) = .ok i

/-- Selector words 0x1B, 0x1A, 0x11, 0x2B, 0x21, 0x07, command 0xFF, reply 0xFA, argument 0xC8, the read frame of 0xFA,
the write frame of 0xF4 with acknowledgment 0, and packets decode to their rows. The tag bytes are the model's choice
(logs 4 and 5). (30_encoding.md R101, R106, R107, R108, R90, R91, R113) -/
def Obligations.SpecWordsDecode : Prop :=
  decode [0x1B] = .ok .rdStart ∧ decode [0x1A] = .ok .rdDataB0 ∧ decode [0x11] = .ok .rdStop ∧
  decode [0x2B] = .ok .wrDataB0 ∧ decode [0x21] = .ok .wrAck ∧ decode [0x07] = .ok (.errNop 7) ∧
  decode [0xFF] = .ok .cmdReset ∧ decode [0xFA] = .ok .rspAck ∧ decode [0xC8] = .ok .argRate200 ∧
  decode [0x06, 0xF4, 0x07] = .ok (.frameRx 0xFA true) ∧
  decode [0x07, 0xE8, 0x05] = .ok (.frameTx 0xF4 false false) ∧
  decode [0x08, 0x09, 0x05, 0xFD] = .ok (.packet3 1 1 5 0xFD) ∧
  decode [0x09, 0x0C, 0xFB, 0x06, 0xFF] = .ok (.packet4 1 4 0xFB 6 0xFF)

/-- A selector word with ps = 3, or with ps Read or Write and a cursor outside 1 to 11, is rejected by the decoder; an
edge handled in interrupt context with such a pair is refused. (30_encoding.md R102, 10_state.md R22) -/
def Obligations.ReservedSelectorsAreRefused : Prop :=
  (∀ (p : BitVec 2) (f : BitVec 4), (p = 3 ∨ (p ≠ 0 ∧ (f = 0 ∨ 11 < f.toNat))) →
    decode [0x01, (0#2 ++ p ++ f : BitVec 8)] = .reject .reservedSelector) ∧
  (∀ (s : State) (d : Bool), s.ctx = .interrupt → s.irqArmed = true → s.clkDrive = .released → s.ps ≠ .error →
    (s.fc = 0 ∨ 11 < s.fc.toNat) → exec (.edge d) s = .refused .noPhase)

/-- When the next turn invokes bytes that decode to i in context c, the step is exec i at the state with that turn taken
off the schedule and the context c entered; a next state then returns to main-line context. Bytes without meaning are
refused by name. That an operation is invoked by a listed turn, that its bytes are an event word, and that the context
is main-line again after it are the model's choices (logs 1, 4 and 12): the block fetches no instructions (R78).
(20_memory.md R71, 60_exceptions.md R259, R264) -/
def Obligations.StepRunsTheDecodedInstruction : Prop :=
  ∀ (s : State) (c : Context) (w : List Byte) (rest : List Turn), s.sched = .issue c w :: rest →
    (∀ i, decode w = .ok i → step s = mapNext leaveContext (exec i { s with sched := rest, ctx := c })) ∧
    (∀ r, decode w = .reject r → step s = .refused (.badWord r))

/-- A listed turn of the main line, device or consumer is that agent's next sub-step, edge or access; a lines turn sets
the device's drives and is an edge exactly when the clock line falls. With no turn listed and every agent idle the
step changes nothing (the default order is the model's choice, log 1). (20_memory.md R71, 00_scope.md R10, R11) -/
def Obligations.StepMovesTheListedAgent : Prop :=
  ∀ (s : State) (rest : List Turn),
    (s.sched = .main :: rest → step s = mainStep { s with sched := rest }) ∧
    (s.sched = .device :: rest → step s = deviceStep { s with sched := rest }) ∧
    (s.sched = .consumer :: rest → step s = consumerStep { s with sched := rest }) ∧
    (∀ c d, s.sched = .lines c d :: rest → step s =
      if clkLine s = true ∧ c = .low ∧ s.irqArmed = true
      then engine { s with sched := rest, devClk := c, devData := d }
      else .next { s with sched := rest, devClk := c, devData := d }) ∧
    (s.sched = [] → s.main = [] → s.dev = [] → s.cons = [] → step s = .next s)

/-- For every row (ps, fc, phase) of the table of R100, an edge handled with that pair runs exactly that phase row on the
state with the device's lines at the edge; with ps = Error it runs ERR_NOP for any cursor. (30_encoding.md R100,
40_bit_engine.md R130, R132) -/
def Obligations.EdgeRunsTheSelectedPhase : Prop :=
  ∀ (s : State) (d : Bool), s.ctx = .interrupt → s.irqArmed = true → s.clkDrive = .released →
    (∀ row ∈ phaseTable, s.ps = row.1 → s.fc = row.2.1 →
      exec (.edge d) s = exec row.2.2 { s with devClk := .low, devData := driveOf d }) ∧
    (s.ps = .error → exec (.edge d) s = exec (.errNop s.fc) { s with devClk := .low, devData := driveOf d })

/-- In interrupt context, whenever the cursor is at most 11 and is 1 to 11 unless ps is Error, EDGE d answers a next state
in which the device holds the clock low with data at d, the host's clock drive, the armed bit, the session registers
and the ring's read index are as before. (10_state.md R26, 30_encoding.md R102, 40_bit_engine.md R130) -/
def Obligations.EdgeCompletes : Prop :=
  ∀ (s : State) (d : Bool), s.ctx = .interrupt → CursorInv s →
    ∃ t, exec (.edge d) s = .next t ∧ t.devClk = .low ∧ t.devData = driveOf d ∧ t.clkDrive = s.clkDrive ∧
      t.irqArmed = s.irqArmed ∧ t.rd = s.rd ∧ t.sess = s.sess ∧ t.x = s.x ∧ t.y = s.y ∧ t.z = s.z ∧ t.b = s.b ∧
      t.wheel = s.wheel ∧ t.errcnt = s.errcnt ∧ t.par = s.par ∧ t.main = s.main

/-- In interrupt context, if the interrupt is disarmed or the host's clock drive is Low, EDGE d changes the device's two
drives and nothing else. That an EDGE event under a held clock only moves the device's drives is the model's choice
(log 14). (10_state.md R29, R44, R45, 40_bit_engine.md R130) -/
def Obligations.UnhandledEdgeIsLost : Prop :=
  ∀ (s : State) (d : Bool), s.ctx = .interrupt → (s.irqArmed = false ∨ s.clkDrive = .low) →
    exec (.edge d) s = .next { s with devClk := .low, devData := driveOf d }

/-- clk_line and data_line are 0 when the host's or the device's drive is Low and 1 otherwise, and sample() is data_line.
(10_state.md R40, R41, R43) -/
def Obligations.LineLevelsAreWiredAnd : Prop :=
  ∀ s : State, (clkLine s = false ↔ s.clkDrive = .low ∨ s.devClk = .low) ∧
    (dataLine s = false ↔ s.dataDrive = .low ∨ s.devData = .low) ∧ sample s = dataLine s

/-- parity v is 1 exactly when the number of one bits of v is even. The polarity is the spec's own reading of odd parity,
marked from general knowledge there (log 22). (30_encoding.md R95) -/
def Obligations.ParityIsOdd : Prop :=
  ∀ v : Byte, parity v = decide (((List.range 8).filter fun j => v.getLsbD j).length % 2 = 0)

/-- With ps = Error: the row ERR_NOP, with any cursor, changes the device's clock drive (the edge itself, log 13) and
nothing else, and EDGE d, handled or not, changes the device's two drives only (so fc, sr, data_drive, the ring and ps
are untouched). (40_bit_engine.md R131) -/
def Obligations.ErrNopChangesNothing : Prop :=
  ∀ (s : State), s.ctx = .interrupt → s.ps = .error →
    (∀ f, exec (.errNop f) s = .next { s with devClk := .low }) ∧
    (∀ d, exec (.edge d) s = .next { s with devClk := .low, devData := driveOf d })

/-- With ps = Read and fc = 11, RD_START sets ps to Error if the sampled data line is 1 and leaves it Read if it is 0; the
cursor becomes 10 and nothing else of the block changes (sr in particular). The edge leaves the device's clock drive
Low; that a row stands for one edge is the model's choice (log 13). (40_bit_engine.md R133) -/
def Obligations.ReadStartChecksTheStartBit : Prop :=
  ∀ s : State, Handles s .read 11 →
    exec .rdStart s = .next { s with devClk := .low, ps := if sample s then .error else .read, fc := 10 }

/-- For each of RD_DATA.b0 to b7 (fc = 10 down to 3): sr becomes (sr >> 1) with the sampled level in bit 7, the cursor is
decremented, nothing else of the block changes. Eight such samples d0 to d7 make sr equal to d0 + 2 d1 + ... + 128 d7
whatever it held before. The edge leaves the device's clock drive Low; that a row stands for one edge is the model's
choice (log 13). (40_bit_engine.md R134, 30_encoding.md R96) -/
def Obligations.ReadDataShiftsTheSampleIn : Prop :=
  (∀ s : State, ∀ p ∈ ([(.rdDataB0, 10), (.rdDataB1, 9), (.rdDataB2, 8), (.rdDataB3, 7), (.rdDataB4, 6),
      (.rdDataB5, 5), (.rdDataB6, 4), (.rdDataB7, 3)] : List (Instr × BitVec 4)), Handles s .read p.2 →
    exec p.1 s = .next
      { s with devClk := .low, sr := (s.sr >>> 1) ||| (if sample s then 0x80 else 0), fc := s.fc - 1 }) ∧
  (∀ (w : Byte) (d0 d1 d2 d3 d4 d5 d6 d7 : Bool),
    ([d0, d1, d2, d3, d4, d5, d6, d7].foldl
      (fun (r : Byte) (d : Bool) => (r >>> 1) ||| (if d then 0x80 else 0)) w).toNat =
      d0.toNat + 2 * d1.toNat + 4 * d2.toNat + 8 * d3.toNat + 16 * d4.toNat + 32 * d5.toNat + 64 * d6.toNat +
        128 * d7.toNat)

/-- With ps = Read and fc = 2, RD_PARITY sets ps to Error if P(sr) differs from the sampled level; the cursor becomes 1;
sr, par and everything else of the block are unchanged. The edge leaves the device's clock drive Low; that a row
stands for one edge is the model's choice (log 13). (40_bit_engine.md R135) -/
def Obligations.ReadParityComparesTheParityBit : Prop :=
  ∀ s : State, Handles s .read 2 →
    exec .rdParity s = .next
      { s with devClk := .low, ps := if parity s.sr = sample s then .read else .error, fc := 1 }

/-- With ps = Read and fc = 1. Sample 1 and ring not full: RB[wr] holds sr, every other cell reads as before, wr and count
go up by one, the cursor becomes 11. Sample 1 and ring full: ps = Error, cursor 11, nothing stored. Sample 0 (full or
not): ps = Error, cursor 0. Nothing else of the block changes. The edge leaves the device's clock drive Low; that a
row stands for one edge is the model's choice (log 13). (40_bit_engine.md R136) -/
def Obligations.ReadStopPushesOrFails : Prop :=
  ∀ s : State, Handles s .read 1 → RingInv s →
    (sample s = true → s.count < 256 → ∃ m,
      exec .rdStop s = .next
        { s with devClk := .low, ring := m, wr := s.wr + 1, count := s.count + 1, fc := 11 } ∧
      Memory.read m s.wr.toNat = s.sr ∧ ∀ a, a ≠ s.wr.toNat → Memory.read m a = Memory.read s.ring a) ∧
    (sample s = true → s.count = 256 → exec .rdStop s = .next { s with devClk := .low, ps := .error, fc := 11 }) ∧
    (sample s = false → exec .rdStop s = .next { s with devClk := .low, ps := .error, fc := 0 })

/-- For each of WR_DATA.b0 to b7 (fc = 11 down to 4): data_drive becomes Released if sr[0] is 1 and Low if it is 0, sr is
shifted right by one, the cursor is decremented, nothing else of the block changes. The edge leaves the device's clock
drive Low; that a row stands for one edge is the model's choice (log 13). (40_bit_engine.md R137) -/
def Obligations.WriteDataDrivesTheLowBit : Prop :=
  ∀ s : State, ∀ p ∈ ([(.wrDataB0, 11), (.wrDataB1, 10), (.wrDataB2, 9), (.wrDataB3, 8), (.wrDataB4, 7),
      (.wrDataB5, 6), (.wrDataB6, 5), (.wrDataB7, 4)] : List (Instr × BitVec 4)), Handles s .write p.2 →
    exec p.1 s = .next
      { s with devClk := .low, dataDrive := if s.sr.getLsbD 0 then .released else .low, sr := s.sr >>> 1,
               fc := s.fc - 1 }

/-- With ps = Write: at fc = 3 WR_PARITY sets data_drive to Released if par is 1 else Low and the cursor becomes 2; at fc
= 2 WR_STOP releases data_drive and the cursor becomes 1. Nothing else of the block changes. The edge leaves the
device's clock drive Low; that a row stands for one edge is the model's choice (log 13). (40_bit_engine.md R138, R139) -/
def Obligations.WriteParityAndStopDriveTheLine : Prop :=
  ∀ s : State,
    (Handles s .write 3 →
      exec .wrParity s = .next
        { s with devClk := .low, dataDrive := if s.par then .released else .low, fc := 2 }) ∧
    (Handles s .write 2 → exec .wrStop s = .next { s with devClk := .low, dataDrive := .released, fc := 1 })

/-- With ps = Write and fc = 1: sample 0 gives ps = Read and cursor 11; sample 1 gives ps = Error and cursor 0. Nothing
else of the block changes, the ring and data_drive in particular. The edge leaves the device's clock drive Low; that a
row stands for one edge is the model's choice (log 13). (40_bit_engine.md R140) -/
def Obligations.WriteAckDecidesTheTransfer : Prop :=
  ∀ s : State, Handles s .write 1 →
    exec .wrAck s = .next
      { s with devClk := .low, ps := if sample s then .error else .read, fc := if sample s then 0 else 11 }

/-- In interrupt context, for ERR_NOP with any cursor and each of the 22 rows of phaseTable. While disarmed, or while the
host holds the clock low, the row changes the device's clock drive only. Armed with the clock released: where (ps, fc)
is the pair of a row of phaseTable, every row does what that row does; with ps = Error every row does what ERR_NOP
does; at a reserved pair every row is refused. That a row stands for one edge is the model's choice (log 13).
(40_bit_engine.md R130, R132, 30_encoding.md R100, R102, 10_state.md R44, R45) -/
def Obligations.PhaseRowsRunOnlyWhenSelected : Prop :=
  ∀ (s : State) (g : BitVec 4), s.ctx = .interrupt → ∀ i ∈ phaseRows g,
    (s.irqArmed = false ∨ s.clkDrive = .low → exec i s = .next { s with devClk := .low }) ∧
    (s.irqArmed = true → s.clkDrive = .released →
      (∀ own ∈ phaseTable, s.ps = own.1 → s.fc = own.2.1 → exec i s = exec own.2.2 s) ∧
      (s.ps = .error → exec i s = exec (.errNop s.fc) s) ∧
      (s.ps ≠ .error → (s.fc = 0 ∨ 11 < s.fc.toNat) → exec i s = .refused .noPhase))

/-- In interrupt context with the device idle, ps = Read, fc = 11, armed, host lines released, ring invariant and count <
N: the first edge of FRAME_RX v with P(v), RSP_ACK, RSP_BAT_OK, RSP_ID_STD or RSP_ID_WHEEL answers a next state, and
after ten more device turns the byte is at RB[wr], other cells read as before, wr and count are one up, sr is the
byte, fc = 11, ps = Read; nothing else of the block changes, for every initial sr and par. (40_bit_engine.md R142,
30_encoding.md R90, R107, R119) -/
def Obligations.ReadFrameDeliversTheByte : Prop :=
  ∀ (s : State) (v : Byte), ∀ row ∈ receivingRows v, s.ctx = .interrupt → s.dev = [] → s.irqArmed = true →
    s.clkDrive = .released → s.dataDrive = .released → s.ps = .read → s.fc = 11 → RingInv s → s.count < 256 →
    ∃ t m, exec row.1 s = .next t ∧
      runFor 10 { t with sched := List.replicate 10 .device } = .next
        { s with ring := m, wr := s.wr + 1, count := s.count + 1, sr := row.2, devClk := .low, devData := .released,
                 sched := [] } ∧
      Memory.read m s.wr.toNat = row.2 ∧ ∀ a, a ≠ s.wr.toNat → Memory.read m a = Memory.read s.ring a

/-- From ps = Read, fc = 11, armed, host lines released, eleven device edges with start level a, the bits of v, parity
level p and stop level z: if a = 1 or p is not P(v) or z = 0, the run ends with ps = Error and the ring, wr, rd and
count unchanged. FRAME_RX v with the wrong parity level is such a frame. (40_bit_engine.md R143) -/
def Obligations.BadReadFramePushesNothing : Prop :=
  ∀ (s : State) (v : Byte) (a p z : Bool), s.irqArmed = true → s.clkDrive = .released → s.dataDrive = .released →
    s.ps = .read → s.fc = 11 → (a = true ∨ p ≠ parity v ∨ z = false) →
    (∃ t, runFor 11 { s with dev := a :: ((frameLevels v p).drop 1).take 9 ++ [z],
                             sched := List.replicate 11 .device } = .next t ∧
      t.ps = .error ∧ t.ring = s.ring ∧ t.wr = s.wr ∧ t.rd = s.rd ∧ t.count = s.count) ∧
    (s.ctx = .interrupt → s.dev = [] → ∃ u t, exec (.frameRx v (!parity v)) s = .next u ∧
      runFor 10 { u with sched := List.replicate 10 .device } = .next t ∧
      t.ps = .error ∧ t.ring = s.ring ∧ t.wr = s.wr ∧ t.rd = s.rd ∧ t.count = s.count)

/-- From ps = Write, fc = 11, sr = v, par = P(v), data_drive = Low, armed, clock released, for any ten device levels and
an eleventh k: the host's data levels after edges 1 to 10 are v[0] to v[7], P(v), 1, and after edge 11 sr = 0,
data_drive = Released, and ps = Read with fc = 11 if k is 0, ps = Error with fc = 0 if k is 1. The ring and everything
else of the block are unchanged. (R144) -/
def Obligations.WriteFrameShiftsTheByteOut : Prop :=
  ∀ (s : State) (v : Byte) (ds : List Bool) (k : Bool), ds.length = 10 → s.irqArmed = true → s.clkDrive = .released →
    s.dataDrive = .low → s.ps = .write → s.fc = 11 → s.sr = v → s.par = parity v →
    hostLevels 10 { s with dev := ds ++ [k] } =
      [v.getLsbD 0, v.getLsbD 1, v.getLsbD 2, v.getLsbD 3, v.getLsbD 4, v.getLsbD 5, v.getLsbD 6, v.getLsbD 7,
        parity v, true] ∧
    runFor 11 { s with dev := ds ++ [k], sched := List.replicate 11 .device } = .next
      { s with ps := if k then .error else .read, fc := if k then 0 else 11, sr := 0, dataDrive := .released,
               devClk := .low, devData := driveOf k, dev := [], sched := [] }

/-- If w is in the write-start state for v and r is in the read-start state with room in the ring, the start level 0
followed by the ten levels w leaves on the line, fed as device levels to r for eleven edges, end with v in RB[wr], sr
= v, ps = Read, fc = 11, count one up. (R94) -/
def Obligations.WrittenFrameReadsBack : Prop :=
  ∀ (w r : State) (v : Byte), w.irqArmed = true → w.clkDrive = .released → w.dataDrive = .low → w.ps = .write →
    w.fc = 11 → w.sr = v → w.par = parity v → w.dev = List.replicate 10 true →
    r.irqArmed = true → r.clkDrive = .released → r.dataDrive = .released → r.ps = .read → r.fc = 11 →
    RingInv r → r.count < 256 →
    ∃ t, runFor 11 { r with dev := levelOf w.dataDrive :: hostLevels 10 w, sched := List.replicate 11 .device } = .next t ∧
      t.ps = .read ∧ t.fc = 11 ∧ t.sr = v ∧ t.count = r.count + 1 ∧ t.wr = r.wr + 1 ∧
      Memory.read t.ring r.wr.toNat = v

/-- From main-line context with main line and device idle, FRAME_TX v with P(v) and acknowledgment level k answers a next
state, and after the six remaining sub-steps of write_byte and eleven device edges: ps = Read and fc = 11 if k = 0, ps
= Error and fc = 0 if k = 1; sr = 0, par = P(v), data_drive and clk_drive Released, ring emptied, armed. That the row
includes the request-to-send is the model's reading (log 16). (30_encoding.md R91, 40_bit_engine.md R144,
42_port_control.md R190) -/
def Obligations.FrameTxSendsAndSamples : Prop :=
  ∀ (s : State) (v : Byte) (k : Bool), MainIdle s → s.dev = [] →
    ∃ t, exec (.frameTx v (parity v) k) s = .next t ∧
      runFor 17 { t with sched := mainThenDevice 6 11 } = .next
        { s with irqArmed := true, clkDrive := .released, dataDrive := .released, wr := 0, rd := 0, count := 0,
                 ps := if k then .error else .read, fc := if k then 0 else 11, sr := 0, par := parity v,
                 devClk := .low, devData := driveOf k, sched := [] }

/-- In interrupt context under the ring invariant. At the stop phase of a read frame (armed, host clock released, ps =
Read, fc = 1) with the data line high: with count < N, push v makes RB[wr] read v, leaves every other cell, and moves
wr and count up by one (wr modulo 256); with count = N it sets ps to Error; either way the invocation that calls it
leaves fc = 11, and nothing else of the block changes. With v the Shift Register's value it is the edge of the row
RD_STOP, and at any other edge (another pair, a low stop bit) it is that edge too, with the phase selected there and
no push. With ps = Error, disarmed, or the host's clock drive Low nothing of the block changes. The device's clock
drive is Low after the edge. That push runs as an operation of its own, an edge whose stop phase calls it with the
named byte, is the model's choice (log 32). (41_ring_buffer.md R160, R161, 60_exceptions.md R253, 40_bit_engine.md
R130, R136, R141) -/
def Obligations.PushStoresOrOverflows : Prop :=
  ∀ (s : State) (v : Byte), s.ctx = .interrupt → RingInv s →
    (Handles s .read 1 → sample s = true →
      (s.count < 256 → ∃ m,
        exec (.push v) s = .next
          { s with devClk := .low, ring := m, wr := s.wr + 1, count := s.count + 1, fc := 11 } ∧
        Memory.read m s.wr.toNat = v ∧ ∀ a, a ≠ s.wr.toNat → Memory.read m a = Memory.read s.ring a) ∧
      (s.count = 256 → exec (.push v) s = .next { s with devClk := .low, ps := .error, fc := 11 })) ∧
    (s.sr = v ∨ ¬ (Handles s .read 1 ∧ sample s = true) → exec (.push v) s = exec .rdStop s) ∧
    (s.ps = .error ∨ s.irqArmed = false ∨ s.clkDrive = .low → exec (.push v) s = .next { s with devClk := .low })

/-- In main-line context with the main line idle: with count > 0, pop returns Some(RB[rd]), moves rd up by one modulo 256
and count down by one, and changes nothing else; with count = 0 it returns None and changes nothing else. The returned
value is in the model's own field ret (log 19). (R162, R163) -/
def Obligations.PopRemovesTheOldestByte : Prop :=
  ∀ s : State, MainIdle s →
    (0 < s.count → exec .pop s = .next
      { s with rd := s.rd + 1, count := s.count - 1, ret := .popped (some (Memory.read s.ring s.rd.toNat)) }) ∧
    (s.count = 0 → exec .pop s = .next { s with ret := .popped none })

/-- In main-line context with the main line idle, clear answers the state with wr = rd = count = 0; the cells, ps and
everything else are unchanged. (41_ring_buffer.md R164) -/
def Obligations.ClearEmptiesTheRing : Prop :=
  ∀ s : State, MainIdle s → exec .clear s = .next { s with wr := 0, rd := 0, count := 0 }

/-- Under the ring invariant: a push with room, where RD_STOP calls it (log 32), makes the bytes held, oldest first,
longer by exactly the pushed byte at the end; a pop of a non-empty ring returns the first of them and leaves the rest
in order. (41_ring_buffer.md R165, 10_state.md R31) -/
def Obligations.RingIsFirstInFirstOut : Prop :=
  ∀ s : State, RingInv s →
    (∀ v, Handles s .read 1 → sample s = true → s.count < 256 →
      ∃ t, exec (.push v) s = .next t ∧ ringContents t = ringContents s ++ [v]) ∧
    (MainIdle s → 0 < s.count →
      ∃ t v, exec .pop s = .next t ∧ t.ret = .popped (some v) ∧ ringContents s = v :: ringContents t)

/-- count is at most N, wr = (rd + count) mod N (and the cells are in canonical form) at reset; push, pop and clear keep
them whenever they answer a next state. That push runs as an operation of its own is the model's choice (log 32).
(41_ring_buffer.md R166) -/
def Obligations.RingInvariantsArePreserved : Prop :=
  RingInv State.reset ∧
  ∀ (s t : State), RingInv s →
    (∀ v, exec (.push v) s = .next t → RingInv t) ∧ (s.main = [] → exec .pop s = .next t → RingInv t) ∧
    (s.main = [] → exec .clear s = .next t → RingInv t)

/-- With the main line idle in its context: clk_release, data_low and data_release set their drive and change nothing
else; clk_low does so when the interrupt is disarmed or the clock line is already low, and when armed with the line
high it is an edge, handled by one Bit Engine invocation on the state with the clock driven low (that the invocation
runs in the same step is the model's reading, log 15). In interrupt context, which may run EDGE and push only, all
four are refused: the data drive of R9 is that of the write phases (log 31). (42_port_control.md R175,
40_bit_engine.md R130, 60_exceptions.md R264) -/
def Obligations.LinePrimitivesWriteOneDrive : Prop :=
  ∀ s : State,
    (MainIdle s →
      exec .clkRelease s = .next { s with clkDrive := .released } ∧
      exec .dataLow s = .next { s with dataDrive := .low } ∧
      exec .dataRelease s = .next { s with dataDrive := .released } ∧
      ((s.irqArmed = false ∨ clkLine s = false) → exec .clkLow s = .next { s with clkDrive := .low }) ∧
      (s.irqArmed = true → clkLine s = true → exec .clkLow s = engine { s with clkDrive := .low })) ∧
    (s.ctx = .interrupt → ∀ i ∈ [Instr.clkLow, .clkRelease, .dataLow, .dataRelease], exec i s = .refused .wrongContext)

/-- With the main line idle in its context, delay t answers the same state; T_HOLD is not below 100 microseconds whatever
the free excess is. The model carries no time (log 21). (42_port_control.md R176, 70_reset_and_hazards.md R322) -/
def Obligations.DelayChangesNothing : Prop :=
  (∀ (s : State) (t : Nat), MainIdle s → exec (.delay t) s = .next s) ∧ 100 ≤ Config.tHold

/-- With the main line idle in its context, irq_disarm sets irq_armed to false and irq_arm to true, changing nothing else:
an edge that fell while disarmed leaves no trace that irq_arm could serve. (R177) -/
def Obligations.ArmingSetsTheArmedBit : Prop :=
  ∀ s : State, MainIdle s →
    exec .irqDisarm s = .next { s with irqArmed := false } ∧
    exec .irqArm s = .next { s with irqArmed := true } ∧
    (∀ (d : Bool) (u : State), s.irqArmed = false → exec (.edge d) { s with ctx := .interrupt } = .next u →
      exec .irqArm (leaveContext u) = .next { s with irqArmed := true, devClk := .low, devData := driveOf d })

/-- With the main line idle in its context, from any state: both drives Released, wr = rd = count = 0, ps = Read, fc = 11,
irq_armed = true; sr, par, the cells and all session registers unchanged. (R57) -/
def Obligations.InitializePortSetsThePort : Prop :=
  ∀ s : State, MainIdle s → exec .initializePort s = .next
    { s with clkDrive := .released, dataDrive := .released, wr := 0, rd := 0, count := 0, ps := .read, fc := 11,
             irqArmed := true }

/-- With the main line idle in its context, whatever ps is, write_byte v answers a next state with the interrupt disarmed
and six sub-steps to go, and after six main-line turns ps = Write, fc = 11, sr = v, par = P(v), wr = rd = count = 0,
clk_drive = Released, data_drive = Low, irq_armed = true; nothing else has changed and nothing is left to do.
(42_port_control.md R190, R191, R192) -/
def Obligations.WriteByteSetsUpTheFrame : Prop :=
  ∀ (s : State) (v : Byte), MainIdle s →
    ∃ t, exec (.writeByte v) s = .next t ∧ t.irqArmed = false ∧ t.main.length = 6 ∧
      runFor 6 { t with sched := List.replicate 6 .main } = .next
        { s with ps := .write, fc := 11, sr := v, par := parity v, wr := 0, rd := 0, count := 0,
                 clkDrive := .released, dataDrive := .low, irqArmed := true, sched := [] }

/-- Starting with both drives Released: after W1 to W7 the host's (clock, data) drives are (Released, Released), (Low,
Released), (Low, Released), (Low, Low), (Released, Low), (Released, Low), (Released, Low), and irq_armed is false
after W1 to W6 and true after W7. (42_port_control.md R190, R193, 10_state.md R44) -/
def Obligations.RequestToSendOnTheLines : Prop :=
  ∀ (s : State) (v : Byte), MainIdle s → s.clkDrive = .released → s.dataDrive = .released →
    (List.range 7).map (fun k =>
        drivesOf (runFor (k + 1) { s with sched := invoke (.writeByte v) :: List.replicate 6 .main })) =
      [some (.released, .released, false), some (.low, .released, false), some (.low, .released, false),
       some (.low, .low, false), some (.released, .low, false), some (.released, .low, false),
       some (.released, .low, true)]

/-- With the main line idle in its context: with count > 0, recv_byte_blocking returns RB[rd], moving rd up and count down
by one and nothing else; with count = 0 the poll changes nothing and the main line has the same poll to make again.
The returned byte is in the model's own fields ret and reply (log 19). (R195) -/
def Obligations.RecvTakesAByteOrPolls : Prop :=
  ∀ s : State, MainIdle s →
    (0 < s.count → exec .recvByteBlocking s = .next
      { s with rd := s.rd + 1, count := s.count - 1, reply := Memory.read s.ring s.rd.toNat,
               ret := .byte (Memory.read s.ring s.rd.toNat) }) ∧
    (s.count = 0 → exec .recvByteBlocking s = .next { s with main := [.recv] })

/-- If the main line polls an empty ring and ps = Error or the interrupt is disarmed, then after any list of main-line
turns, consumer turns, device turns, line moves and EDGE events the machine has answered a next state in which it
still polls, the ring is still empty, and ps and irq_armed are as before. (42_port_control.md R196, 40_bit_engine.md
R131) -/
def Obligations.RecvHangsWithoutABearer : Prop :=
  ∀ (s : State) (rest : List Micro) (ts : List Turn), s.main = .recv :: rest → s.count = 0 →
    (s.ps = .error ∨ s.irqArmed = false) →
    (∀ u ∈ ts, u = .main ∨ u = .consumer ∨ u = .device ∨ (∃ c d, u = .lines c d) ∨ (∃ d, u = invoke (.edge d))) →
    ∃ t, runFor ts.length { s with sched := ts } = .next t ∧ t.main = .recv :: rest ∧ t.count = 0 ∧ t.ps = s.ps ∧
      t.irqArmed = s.irqArmed

/-- For send_byte_with_ack v and for each command and argument row with its byte w: with the main line idle in its context
and the ring in canonical form, the row answers a next state, and with a device that clocks the frame, acknowledges it
and replies with the correct frame of r, after six main-line, twenty-two device and two main-line turns: ps = Read if
r = 0xFA and Error otherwise, fc = 11, sr = r, par = P(w), count = 0, wr = rd = 1, lines released, armed, nothing left
to do; RB[0] reads r, every other cell reads as before, and no session register has changed. The rows:
send_byte_with_ack, CMD_RESET, CMD_GET_ID, CMD_SET_RATE, CMD_SET_RES, CMD_ENABLE, ARG_RATE_200, ARG_RATE_100,
ARG_RATE_80, ARG_RES_8CPMM, ARG_RATE_CFG. That the command and argument rows are such sends is R110's reading (log
17). (42_port_control.md R198, 30_encoding.md R106, R108, R110) -/
def Obligations.SendByteWithAckChecksTheReply : Prop :=
  ∀ (s : State) (v r : Byte), ∀ row ∈ sendingRows v, MainIdle s → Memory.wf s.ring = true →
    ∃ t m, exec row.1 s = .next t ∧
      runFor 30 { t with dev := ackThenReply r, sched := mainThenDevice 6 22 ++ [.main, .main] } = .next
        { s with irqArmed := true, clkDrive := .released, dataDrive := .released, ring := m, wr := 1, rd := 1,
                 count := 0, ps := if r = 0xFA then .read else .error, fc := 11, sr := r, par := parity row.2,
                 devClk := .low, devData := .released, dev := [], reply := r, ret := .byte r, sched := [] } ∧
      Memory.read m 0 = r ∧ ∀ a, a ≠ 0 → Memory.read m a = Memory.read s.ring a

/-- With the main line idle in its context, if the device clocks the write frame of send_byte_with_ack v but leaves data
high at the eleventh edge, then ps = Error, the ring is empty and the main line still has the poll and the check to
do. (42_port_control.md R199, 40_bit_engine.md R140) -/
def Obligations.MissingAckBitLeavesTheSendWaiting : Prop :=
  ∀ (s : State) (v : Byte), MainIdle s →
    ∃ t u, exec (.sendByteWithAck v) s = .next t ∧
      runFor 18 { t with dev := txClockLevels true, sched := mainThenDevice 6 11 ++ [.main] } = .next u ∧
      u.ps = .error ∧ u.count = 0 ∧ u.main = [.recv, .ackCheck]

/-- Outside interrupt context with the main line idle, start_session answers the state with sess = Handshaking, the
effects of initialize_port, x = y = z = 0, b = 0, wheel = false, errcnt unchanged, and the rest of its program still
to do; the bytes that program sends are those of the handshake, with SAMPLE_RATE as configured and the wheel part only
when WHEEL_ENABLED. (43_mouse_session.md R211, R222, 42_port_control.md R185) -/
def Obligations.StartSessionReinitializes : Prop :=
  (∀ s : State, s.ctx ≠ .interrupt → s.main = [] → ∃ rest, exec .startSession s = .next
    { s with sess := .handshaking, clkDrive := .released, dataDrive := .released, wr := 0, rd := 0, count := 0,
             ps := .read, fc := 11, irqArmed := true, x := 0, y := 0, z := 0, b := 0, wheel := false, main := rest } ∧
    sentBytes rest = [0xFF] ++ (if s.wheelEnabled then [0xF3, 200, 0xF3, 100, 0xF3, 80, 0xF2] else []) ++
      [0xE8, 0x03, 0xF3, s.sampleRate, 0xF4])

/-- From an idle machine with the ring in canonical form, start_session against a device that acknowledges every frame,
replies 0xFA to every byte, and sends 0xAA 0x00 after RESET (and id after GET_DEVICE_ID when WHEEL_ENABLED) runs, in
the default order of turns (the model's choice, log 1), for 220 steps (457 with the wheel part) to sess = Streaming,
result true, ps = Read, fc = 11, count = 0, x = y = z = 0, b = 0, errcnt unchanged, wheel true exactly when enabled
and id = 0x03 (the spec's own presumed id, log 22), and an idle machine. (43_mouse_session.md R222, 30_encoding.md
R112, 95_test_vectors.md V-S1, V-S2) -/
def Obligations.HandshakeReachesStreaming : Prop :=
  ∀ (s : State) (id : Byte), Idle s → Memory.wf s.ring = true →
    ∃ t, runFor (if s.wheelEnabled then 457 else 220)
        { s with dev := if s.wheelEnabled then wheelDeviceScript id else deviceScript,
                 sched := [invoke .startSession] } = .next t ∧
      t.sess = .streaming ∧ t.ret = .flag true ∧ t.ps = .read ∧ t.fc = 11 ∧ t.count = 0 ∧ t.x = 0 ∧ t.y = 0 ∧
      t.z = 0 ∧ t.b = 0 ∧ t.errcnt = s.errcnt ∧ t.wheel = (s.wheelEnabled && id == 0x03) ∧ Idle t

/-- From an idle machine with the ring in canonical form, start_session against a device that acknowledges RESET with 0xFA
and then sends any byte w other than 0xAA runs in the default order of turns (log 1) for 47 steps to sess = Faulted,
ps = Error, result false, x = y = z = 0, b = 0, and an idle main line. (43_mouse_session.md R214, R221,
95_test_vectors.md T9) -/
def Obligations.WrongSelfTestByteFailsTheSession : Prop :=
  ∀ (s : State) (w : Byte), Idle s → Memory.wf s.ring = true → w ≠ 0xAA →
    ∃ t, runFor 47 { s with dev := ackThenReply 0xFA ++ rxFrame w, sched := [invoke .startSession] } = .next t ∧
      t.sess = .faulted ∧ t.ps = .error ∧ t.ret = .flag false ∧ t.main = [] ∧ t.x = 0 ∧ t.y = 0 ∧ t.z = 0 ∧ t.b = 0

/-- At S2 a reply 0xAA goes on and any other sets ps to Error and continues at FAIL; S3 likewise with 0x00; cmd's test
continues at FAIL exactly when ps is Error; S5 sets wheel to (reply = 0x03); S8 sets Streaming and returns true; FAIL
sets Faulted and returns false. Each changes nothing else, and FAIL drops what is left of the session.
(43_mouse_session.md R212, R214, R215, R217, R220, R221) -/
def Obligations.SessionChecksAbortTheHandshake : Prop :=
  ∀ (s : State) (rest : List Micro),
    (s.main = .batCheck :: rest → mainStep s = .next
      (if s.reply = 0xAA then { s with main := rest }
       else { s with ps := .error, main := .sessionFail :: afterSession rest })) ∧
    (s.main = .idCheck :: rest → mainStep s = .next
      (if s.reply = 0x00 then { s with main := rest }
       else { s with ps := .error, main := .sessionFail :: afterSession rest })) ∧
    (s.main = .cmdTest :: rest → mainStep s = .next
      (if s.ps = .error then { s with main := .sessionFail :: afterSession rest } else { s with main := rest })) ∧
    (s.main = .wheelRecord :: rest → mainStep s = .next { s with main := rest, wheel := s.reply == 0x03 }) ∧
    (s.main = .streaming :: rest → mainStep s = .next { s with main := rest, sess := .streaming, ret := .flag true }) ∧
    (s.main = .sessionFail :: rest → mainStep s = .next { s with main := rest, sess := .faulted, ret := .flag false }) ∧
    (∀ w r, ∀ tail, afterSession (sessionProgram w r ++ tail) = tail)

/-- With the main line idle in its context: PACKET3 with wheel = false answers a next state in which b is the low three
bits of byte 0, and after two more main-line turns x has int8(byte 1) added and y has int8(byte 2) subtracted, wrapped
at ACC_BITS, whatever that width is; PACKET4 with wheel = true likewise, and after a third turn z has int8(byte 3)
added. Bits 7 to 3 of byte 0 appear nowhere in the result; nothing else changes. With the other value of wheel the row
is refused (log 18). (30_encoding.md R113, R114, R115, R116) -/
def Obligations.PacketsAddTheirDeltas : Prop :=
  ∀ (s : State) (i : BitVec 5) (m : BitVec 3) (dx dy dz : Byte), MainIdle s →
    (s.wheel = false → ∃ t, exec (.packet3 i m dx dy) s = .next t ∧
      runFor 2 { t with sched := [.main, .main] } = .next
        { s with b := m.setWidth 8, x := wrap s.accBits (s.x + dx.toInt), y := wrap s.accBits (s.y - dy.toInt),
                 sched := [] }) ∧
    (s.wheel = true → ∃ t, exec (.packet4 i m dx dy dz) s = .next t ∧
      runFor 3 { t with sched := [.main, .main, .main] } = .next
        { s with b := m.setWidth 8, x := wrap s.accBits (s.x + dx.toInt), y := wrap s.accBits (s.y - dy.toInt),
                 z := wrap s.accBits (s.z + dz.toInt), sched := [] }) ∧
    (s.wheel = true → exec (.packet3 i m dx dy) s = .refused .packetLength) ∧
    (s.wheel = false → exec (.packet4 i m dx dy dz) s = .refused .packetLength)

/-- In process_available_data P3 begins, for the three or four bytes taken, with the write of b alone, and leaves the
writes of x, y and (4 bytes) z to be done next, in this order. A packet row begins P3 in the same order. Each of these
sub-steps writes its one variable, wrapped at ACC_BITS, and nothing else. (43_mouse_session.md R227, R228,
20_memory.md R81) -/
def Obligations.DecoderStepsAreSeparate : Prop :=
  ∀ (s : State) (v b0 b1 b2 b3 : Byte) (rest : List Micro),
    (s.main = .decodePacket :: rest → s.pkt = [b0, b1, b2] →
      mainStep s = .next { s with b := b0 &&& 7, main := .addX b1 :: .subY b2 :: rest }) ∧
    (s.main = .decodePacket :: rest → s.pkt = [b0, b1, b2, b3] →
      mainStep s = .next { s with b := b0 &&& 7, main := .addX b1 :: .subY b2 :: .addZ b3 :: rest }) ∧
    (s.main = .putB v :: rest → mainStep s = .next { s with main := rest, b := v &&& 7 }) ∧
    (s.main = .addX v :: rest → mainStep s = .next { s with main := rest, x := wrap s.accBits (s.x + v.toInt) }) ∧
    (s.main = .subY v :: rest → mainStep s = .next { s with main := rest, y := wrap s.accBits (s.y - v.toInt) }) ∧
    (s.main = .addZ v :: rest → mainStep s = .next { s with main := rest, z := wrap s.accBits (s.z + v.toInt) }) ∧
    (packetProgram3 b0 b1 b2 = [.putB b0, .addX b1, .subY b2] ∧
      packetProgram4 b0 b1 b2 b3 = [.putB b0, .addX b1, .subY b2, .addZ b3])

/-- Outside interrupt context with the main line idle, for any count = n * PLEN + r with r < PLEN, whatever ps is: the
operation answers a next state, and after 7 n + 1 more main-line turns (9 n + 1 in wheel mode) b, x, y (and z in wheel
mode) hold the effect of the n packets at rd, oldest first; rd has moved on by n * PLEN, r bytes are left, and the
cells are untouched. If ps is not Error the result is true and nothing is left to do; if it is, errcnt is one up and
the whole session program is to be done. Nothing else of the block has changed. (43_mouse_session.md R224, R225, R226,
R227, R228, R229, R230) -/
def Obligations.ProcessDecodesOnePacket : Prop :=
  ∀ (s : State) (n r : Nat), s.ctx ≠ .interrupt → s.main = [] →
    s.count = n * packetLen s.wheel + r → r < packetLen s.wheel →
    ∃ t u, exec .processAvailableData s = .next t ∧
      runFor ((if s.wheel then 9 else 7) * n + 1)
        { t with sched := List.replicate ((if s.wheel then 9 else 7) * n + 1) .main } = .next u ∧
      u = { decodeHeld s n with
              rd := s.rd + BitVec.ofNat 8 (n * packetLen s.wheel), count := r, pkt := u.pkt, sched := [],
              errcnt := if s.ps = .error then s.errcnt + 1 else s.errcnt,
              ret := if s.ps = .error then s.ret else .flag true,
              main := if s.ps = .error then sessionProgram s.wheelEnabled s.sampleRate else [] }

/-- Outside interrupt context with the main line idle, ps not Error and count < PLEN, process_available_data answers a
next state and after one more main-line turn only its result, true, is new: no accumulator, button mask, Port State or
ring byte has changed. (R231) -/
def Obligations.ProcessIsIdempotentWithoutPackets : Prop :=
  ∀ s : State, s.ctx ≠ .interrupt → s.main = [] → s.ps ≠ .error → s.count < (if s.wheel then 4 else 3) →
    ∃ t, exec .processAvailableData s = .next t ∧
      runFor 1 { t with sched := [.main] } = .next { s with ret := .flag true, sched := [] }

/-- Outside interrupt context with the main line idle, ps = Error and count < PLEN: the operation answers a next state;
after one more main-line turn errcnt is one up and the whole session program is to be done; after a second turn S0 has
run: ps = Read, sess = Handshaking, ring empty, x = y = z = 0, b = 0. (43_mouse_session.md R224, R225, R229, R232,
60_exceptions.md R261) -/
def Obligations.ProcessRecoversFromError : Prop :=
  ∀ s : State, s.ctx ≠ .interrupt → s.main = [] → s.ps = .error → s.count < (if s.wheel then 4 else 3) →
    ∃ t u, exec .processAvailableData s = .next t ∧
      runFor 1 { t with sched := [.main] } = .next
        { s with errcnt := s.errcnt + 1, main := sessionProgram s.wheelEnabled s.sampleRate, sched := [] } ∧
      runFor 2 { t with sched := [.main, .main] } = .next u ∧ u.errcnt = s.errcnt + 1 ∧ u.ps = .read ∧ u.fc = 11 ∧
      u.sess = .handshaking ∧ u.count = 0 ∧ u.x = 0 ∧ u.y = 0 ∧ u.z = 0 ∧ u.b = 0 ∧ u.wheel = false

/-- If the pops still to be made for a packet find a byte each and the bytes taken and to be taken are PLEN, then the step
does not fault, and the next state, if there is one, has the same property, whatever turn is taken.
(43_mouse_session.md R226) -/
def Obligations.PacketTakesNeverUnderrun : Prop :=
  ∀ s : State, PacketInv s → (∀ f, step s ≠ .fault f) ∧ ∀ t, step s = .next t → PacketInv t

/-- Outside interrupt context with the consumer idle: consumer_read answers a next state and after six more consumer turns
the consumer's own copies equal x, y, z, b, wheel, errcnt and sess while nothing of the block has changed (that it
makes the three optional reads too is the model's choice, log 30); consumer_drain dx dy dz answers a next state and
after five more consumer turns x, y, z are less by dx, dy, dz, wrapped at ACC_BITS, and nothing else of the block has
changed. A drain is a read and a write of each accumulator (log 20). (43_mouse_session.md R236, R237, 10_state.md R58,
20_memory.md R68, R81) -/
def Obligations.ConsumerReadsAndDrains : Prop :=
  ∀ (s : State) (dx dy dz : Acc), s.ctx ≠ .interrupt → s.cons = [] →
    (∃ t, exec .consumerRead s = .next t ∧
      runFor 6 { t with sched := List.replicate 6 .consumer } = .next
        { s with snap := { x := s.x, y := s.y, z := s.z, b := s.b, sess := s.sess, wheel := s.wheel,
                           errcnt := s.errcnt }, sched := [] }) ∧
    (∃ t u, exec (.consumerDrain dx dy dz) s = .next t ∧
      runFor 5 { t with sched := List.replicate 5 .consumer } = .next u ∧
      u = { s with x := wrap s.accBits (s.x - dx), y := wrap s.accBits (s.y - dy), z := wrap s.accBits (s.z - dz),
                   snap := u.snap, sched := [] })

/-- If a step answers a next state, then x is unchanged; or the main line's next sub-step was the decoder's add of a byte
v to x and x has int8(v) added, wrapped at ACC_BITS; or the consumer's next access was its write of x and x is its
copy less the amount; or S0 of start_session was next and x is 0 with sess = Handshaking. y likewise with the delta
subtracted, z likewise with it added. A drain's write uses the copy its read made (log 20). (10_state.md R51,
43_mouse_session.md R211, R227, R237, R238) -/
def Obligations.AccumulatorsChangeOnlyByTheirWriters : Prop :=
  ∀ s t : State, step s = .next t →
    (t.x = s.x ∨
      (∃ v rest, s.main = .addX v :: rest ∧ t.x = wrap s.accBits (s.x + (v : Byte).toInt)) ∨
      (∃ d rest, s.cons = .writeX d :: rest ∧ t.x = wrap s.accBits (s.snap.x - d)) ∨
      (SessionStarts s ∧ t.x = 0 ∧ t.sess = .handshaking)) ∧
    (t.y = s.y ∨
      (∃ v rest, s.main = .subY v :: rest ∧ t.y = wrap s.accBits (s.y - (v : Byte).toInt)) ∨
      (∃ d rest, s.cons = .writeY d :: rest ∧ t.y = wrap s.accBits (s.snap.y - d)) ∨
      (SessionStarts s ∧ t.y = 0 ∧ t.sess = .handshaking)) ∧
    (t.z = s.z ∨
      (∃ v rest, s.main = .addZ v :: rest ∧ t.z = wrap s.accBits (s.z + (v : Byte).toInt)) ∨
      (∃ d rest, s.cons = .writeZ d :: rest ∧ t.z = wrap s.accBits (s.snap.z - d)) ∨
      (SessionStarts s ∧ t.z = 0 ∧ t.sess = .handshaking))

/-- EDGE, push, the 23 phase rows and the frames of the device are refused unless the context is interrupt; pop, clear,
the line and interrupt primitives, delay, initialize_port, write_byte and the write frame, recv_byte_blocking,
send_byte_with_ack and the command and argument rows, start_session, process_available_data and the consumer's
operations are refused in it, and so are the packet rows (by packetLength where wheel selects the other length, log
18). That the frames of the device (FRAME_RX and the reply rows), being edges, belong to interrupt context, and which
context every other row of the table belongs to, is the model's deduction (log 12): the rules name EDGE, push and the
operations only. (20_memory.md R77, 60_exceptions.md R264, R265) -/
def Obligations.WrongContextIsRefused : Prop :=
  ∀ s : State,
    (s.ctx ≠ .interrupt → ∀ d v p g, ∀ i ∈ [Instr.edge d, .push v, .frameRx v p, .rspAck, .rspBatOk, .rspIdStd,
        .rspIdWheel] ++ phaseRows g, exec i s = .refused .wrongContext) ∧
    (s.ctx = .interrupt → ∀ v p k t dx dy dz, ∀ i ∈ [Instr.pop, .clear, .clkLow, .clkRelease, .dataLow, .dataRelease,
        .delay t, .irqDisarm, .irqArm, .initializePort, .writeByte v, .frameTx v p k, .recvByteBlocking, .startSession,
        .processAvailableData, .consumerRead, .consumerDrain dx dy dz] ++ (sendingRows v).map Prod.fst,
      exec i s = .refused .wrongContext) ∧
    (s.ctx = .interrupt → ∀ (i : BitVec 5) (m : BitVec 3) (dx dy dz : Byte),
      exec (.packet3 i m dx dy) s = .refused (if s.wheel then .packetLength else .wrongContext) ∧
      exec (.packet4 i m dx dy dz) s = .refused (if s.wheel then .wrongContext else .packetLength))

/-- The reset state has ps = Error, irq_armed = false, both host drives Released, wr = rd = count = 0, sess =
Uninitialized, x = y = z = 0, b = 0, wheel = false, errcnt = 0, main-line context; any EDGE event then moves the
device's drives only. (10_state.md R56, 70_reset_and_hazards.md R290, R291) -/
def Obligations.ResetLeavesTheBlockInert : Prop :=
  State.reset.ps = .error ∧ State.reset.irqArmed = false ∧ State.reset.clkDrive = .released ∧
  State.reset.dataDrive = .released ∧ State.reset.wr = 0 ∧ State.reset.rd = 0 ∧ State.reset.count = 0 ∧
  State.reset.sess = .uninitialized ∧ State.reset.x = 0 ∧ State.reset.y = 0 ∧ State.reset.z = 0 ∧
  State.reset.b = 0 ∧ State.reset.wheel = false ∧ State.reset.errcnt = 0 ∧ State.reset.ctx = .mainline ∧
  ∀ d, step { State.reset with sched := [invoke (.edge d)] } =
    .next { State.reset with devClk := .low, devData := driveOf d }

/-- The ring, cursor, button and accumulator invariants and the packet invariant hold of the reset state. (Its cursor
value, cells and width are the model's choice, logs 7, 8 and 11.) (10_state.md R26, R31, R51, R52, 41_ring_buffer.md
R166) -/
def Obligations.InvariantHoldsAtReset : Prop :=
  Inv State.reset ∧ PacketInv State.reset

/-- From every state with: count at most N, wr = (rd + count) mod N, cells in canonical form, fc at most 11 and 1 to 11
unless ps is Error, b below 8, and x, y, z values of a two's complement cell of ACC_BITS bits, whatever turn is taken:
the next state, if there is one, has the same, and the step is never refused for a reserved selector. (10_state.md
R26, R31, R51, R52, 41_ring_buffer.md R166, 20_memory.md R61) -/
def Obligations.StepKeepsTheInvariant : Prop :=
  ∀ s : State, Inv s → step s ≠ .refused .noPhase ∧ ∀ t, step s = .next t → Inv t

/-- If ps is Error before a step and not after it, then the step has set fc to 11 and emptied the ring, and ps is Read
with the interrupt armed and both drives Released (initialize_port, S0) or Write with sr loaded and par = P(sr)
(write_byte's W6). No edge and no passage of time leaves Error. (10_state.md R21, R23, 60_exceptions.md R253,
42_port_control.md R185, R192) -/
def Obligations.ErrorIsLeftOnlyByReinitialization : Prop :=
  ∀ s t : State, step s = .next t → s.ps = .error → t.ps ≠ .error →
    t.fc = 11 ∧ t.wr = 0 ∧ t.rd = 0 ∧ t.count = 0 ∧
      ((t.ps = .read ∧ t.irqArmed = true ∧ t.clkDrive = .released ∧ t.dataDrive = .released) ∨
       (t.ps = .write ∧ t.par = parity t.sr))

/-- If a step answers a next state then errcnt is unchanged, or it is one up and ps was Error when the step began.
(10_state.md R54, 43_mouse_session.md R229) -/
def Obligations.ErrorCounterCountsUpByOne : Prop :=
  ∀ s t : State, step s = .next t → t.errcnt = s.errcnt ∨ (t.errcnt = s.errcnt + 1 ∧ s.ps = .error)

/-- If a step answers a next state and some cell reads otherwise than before, that cell is the one wr pointed at, the new
wr is one up and count is one up. So pop, clear, initialize_port and write_byte leave every cell. (20_memory.md R61,
41_ring_buffer.md R160, R162, R164) -/
def Obligations.OnlyAPushWritesTheCells : Prop :=
  ∀ s t : State, step s = .next t → ∀ a, Memory.read t.ring a ≠ Memory.read s.ring a →
    a = s.wr.toNat ∧ t.wr = s.wr + 1 ∧ t.count = s.count + 1

/-- If a step answers a next state, WHEEL_ENABLED, SAMPLE_RATE and ACC_BITS are unchanged; wheel is unchanged, or S0 of
start_session was the next sub-step and has cleared it and emptied the ring, or the session's assignment of S5 was the
next sub-step and wheel is now the answer to whether the reply byte is WHEEL_ID. That the three inputs are fields no
step writes is the model's choice (logs 10 and 11). (10_state.md R53, R55, 00_scope.md R7, 30_encoding.md R116) -/
def Obligations.ConfigurationAndWheelHaveOneWriter : Prop :=
  ∀ s t : State, step s = .next t →
    t.wheelEnabled = s.wheelEnabled ∧ t.sampleRate = s.sampleRate ∧ t.accBits = s.accBits ∧
    (t.wheel = s.wheel ∨
      (SessionStarts s ∧ t.wheel = false ∧ t.sess = .handshaking ∧ t.count = 0) ∨
      (∃ rest, s.main = .wheelRecord :: rest ∧ t.wheel = (s.reply == 0x03)))

/-- A step whose turn is a device turn, a line move or an EDGE event leaves sess, x, y, z, b, wheel, errcnt, rd,
irq_armed, clk_drive, par, the configuration inputs, the main line's and the consumer's work and the returned values
unchanged. (10_state.md R58, 00_scope.md R14) -/
def Obligations.DeviceCannotReachTheSession : Prop :=
  ∀ (s t : State) (u : Turn) (rest : List Turn), s.sched = u :: rest →
    (u = .device ∨ (∃ c d, u = .lines c d) ∨ (∃ d, u = invoke (.edge d))) → step s = .next t →
    t.sess = s.sess ∧ t.x = s.x ∧ t.y = s.y ∧ t.z = s.z ∧ t.b = s.b ∧ t.wheel = s.wheel ∧ t.errcnt = s.errcnt ∧
    t.rd = s.rd ∧ t.irqArmed = s.irqArmed ∧ t.clkDrive = s.clkDrive ∧ t.par = s.par ∧
    t.wheelEnabled = s.wheelEnabled ∧ t.sampleRate = s.sampleRate ∧ t.accBits = s.accBits ∧ t.main = s.main ∧ t.cons = s.cons ∧
    t.reply = s.reply ∧ t.ret = s.ret
end

