-- ==== Sys2Proof/Laws/State.lean ====
section
/-! SUPPORT. What each named update of State does to each field: one lemma per field per update, true by rfl. -/
namespace Sys2Proof.Machine

@[simp] theorem raisePortError_ps (c : Cause) (s : State) : (raisePortError c s).ps = .error := rfl
@[simp] theorem raisePortError_fc (c : Cause) (s : State) : (raisePortError c s).fc = s.fc := rfl
@[simp] theorem raisePortError_sr (c : Cause) (s : State) : (raisePortError c s).sr = s.sr := rfl
@[simp] theorem raisePortError_par (c : Cause) (s : State) : (raisePortError c s).par = s.par := rfl
@[simp] theorem raisePortError_irqArmed (c : Cause) (s : State) : (raisePortError c s).irqArmed = s.irqArmed := rfl
@[simp] theorem raisePortError_ring (c : Cause) (s : State) : (raisePortError c s).ring = s.ring := rfl
@[simp] theorem raisePortError_wr (c : Cause) (s : State) : (raisePortError c s).wr = s.wr := rfl
@[simp] theorem raisePortError_rd (c : Cause) (s : State) : (raisePortError c s).rd = s.rd := rfl
@[simp] theorem raisePortError_count (c : Cause) (s : State) : (raisePortError c s).count = s.count := rfl
@[simp] theorem raisePortError_clkDrive (c : Cause) (s : State) : (raisePortError c s).clkDrive = s.clkDrive := rfl
@[simp] theorem raisePortError_dataDrive (c : Cause) (s : State) : (raisePortError c s).dataDrive = s.dataDrive := rfl
@[simp] theorem raisePortError_sess (c : Cause) (s : State) : (raisePortError c s).sess = s.sess := rfl
@[simp] theorem raisePortError_x (c : Cause) (s : State) : (raisePortError c s).x = s.x := rfl
@[simp] theorem raisePortError_y (c : Cause) (s : State) : (raisePortError c s).y = s.y := rfl
@[simp] theorem raisePortError_z (c : Cause) (s : State) : (raisePortError c s).z = s.z := rfl
@[simp] theorem raisePortError_b (c : Cause) (s : State) : (raisePortError c s).b = s.b := rfl
@[simp] theorem raisePortError_wheel (c : Cause) (s : State) : (raisePortError c s).wheel = s.wheel := rfl
@[simp] theorem raisePortError_errcnt (c : Cause) (s : State) : (raisePortError c s).errcnt = s.errcnt := rfl
@[simp] theorem raisePortError_devClk (c : Cause) (s : State) : (raisePortError c s).devClk = s.devClk := rfl
@[simp] theorem raisePortError_devData (c : Cause) (s : State) : (raisePortError c s).devData = s.devData := rfl
@[simp] theorem raisePortError_wheelEnabled (c : Cause) (s : State) : (raisePortError c s).wheelEnabled = s.wheelEnabled := rfl
@[simp] theorem raisePortError_sampleRate (c : Cause) (s : State) : (raisePortError c s).sampleRate = s.sampleRate := rfl
@[simp] theorem raisePortError_accBits (c : Cause) (s : State) : (raisePortError c s).accBits = s.accBits := rfl
@[simp] theorem raisePortError_ctx (c : Cause) (s : State) : (raisePortError c s).ctx = s.ctx := rfl
@[simp] theorem raisePortError_main (c : Cause) (s : State) : (raisePortError c s).main = s.main := rfl
@[simp] theorem raisePortError_reply (c : Cause) (s : State) : (raisePortError c s).reply = s.reply := rfl
@[simp] theorem raisePortError_pkt (c : Cause) (s : State) : (raisePortError c s).pkt = s.pkt := rfl
@[simp] theorem raisePortError_ret (c : Cause) (s : State) : (raisePortError c s).ret = s.ret := rfl
@[simp] theorem raisePortError_dev (c : Cause) (s : State) : (raisePortError c s).dev = s.dev := rfl
@[simp] theorem raisePortError_cons (c : Cause) (s : State) : (raisePortError c s).cons = s.cons := rfl
@[simp] theorem raisePortError_snap (c : Cause) (s : State) : (raisePortError c s).snap = s.snap := rfl
@[simp] theorem raisePortError_sched (c : Cause) (s : State) : (raisePortError c s).sched = s.sched := rfl

@[simp] theorem countDown_ps (s : State) : (countDown s).ps = s.ps := rfl
@[simp] theorem countDown_fc (s : State) : (countDown s).fc = s.fc - 1 := rfl
@[simp] theorem countDown_sr (s : State) : (countDown s).sr = s.sr := rfl
@[simp] theorem countDown_par (s : State) : (countDown s).par = s.par := rfl
@[simp] theorem countDown_irqArmed (s : State) : (countDown s).irqArmed = s.irqArmed := rfl
@[simp] theorem countDown_ring (s : State) : (countDown s).ring = s.ring := rfl
@[simp] theorem countDown_wr (s : State) : (countDown s).wr = s.wr := rfl
@[simp] theorem countDown_rd (s : State) : (countDown s).rd = s.rd := rfl
@[simp] theorem countDown_count (s : State) : (countDown s).count = s.count := rfl
@[simp] theorem countDown_clkDrive (s : State) : (countDown s).clkDrive = s.clkDrive := rfl
@[simp] theorem countDown_dataDrive (s : State) : (countDown s).dataDrive = s.dataDrive := rfl
@[simp] theorem countDown_sess (s : State) : (countDown s).sess = s.sess := rfl
@[simp] theorem countDown_x (s : State) : (countDown s).x = s.x := rfl
@[simp] theorem countDown_y (s : State) : (countDown s).y = s.y := rfl
@[simp] theorem countDown_z (s : State) : (countDown s).z = s.z := rfl
@[simp] theorem countDown_b (s : State) : (countDown s).b = s.b := rfl
@[simp] theorem countDown_wheel (s : State) : (countDown s).wheel = s.wheel := rfl
@[simp] theorem countDown_errcnt (s : State) : (countDown s).errcnt = s.errcnt := rfl
@[simp] theorem countDown_devClk (s : State) : (countDown s).devClk = s.devClk := rfl
@[simp] theorem countDown_devData (s : State) : (countDown s).devData = s.devData := rfl
@[simp] theorem countDown_wheelEnabled (s : State) : (countDown s).wheelEnabled = s.wheelEnabled := rfl
@[simp] theorem countDown_sampleRate (s : State) : (countDown s).sampleRate = s.sampleRate := rfl
@[simp] theorem countDown_accBits (s : State) : (countDown s).accBits = s.accBits := rfl
@[simp] theorem countDown_ctx (s : State) : (countDown s).ctx = s.ctx := rfl
@[simp] theorem countDown_main (s : State) : (countDown s).main = s.main := rfl
@[simp] theorem countDown_reply (s : State) : (countDown s).reply = s.reply := rfl
@[simp] theorem countDown_pkt (s : State) : (countDown s).pkt = s.pkt := rfl
@[simp] theorem countDown_ret (s : State) : (countDown s).ret = s.ret := rfl
@[simp] theorem countDown_dev (s : State) : (countDown s).dev = s.dev := rfl
@[simp] theorem countDown_cons (s : State) : (countDown s).cons = s.cons := rfl
@[simp] theorem countDown_snap (s : State) : (countDown s).snap = s.snap := rfl
@[simp] theorem countDown_sched (s : State) : (countDown s).sched = s.sched := rfl

@[simp] theorem ringClear_ps (s : State) : (ringClear s).ps = s.ps := rfl
@[simp] theorem ringClear_fc (s : State) : (ringClear s).fc = s.fc := rfl
@[simp] theorem ringClear_sr (s : State) : (ringClear s).sr = s.sr := rfl
@[simp] theorem ringClear_par (s : State) : (ringClear s).par = s.par := rfl
@[simp] theorem ringClear_irqArmed (s : State) : (ringClear s).irqArmed = s.irqArmed := rfl
@[simp] theorem ringClear_ring (s : State) : (ringClear s).ring = s.ring := rfl
@[simp] theorem ringClear_wr (s : State) : (ringClear s).wr = 0 := rfl
@[simp] theorem ringClear_rd (s : State) : (ringClear s).rd = 0 := rfl
@[simp] theorem ringClear_count (s : State) : (ringClear s).count = 0 := rfl
@[simp] theorem ringClear_clkDrive (s : State) : (ringClear s).clkDrive = s.clkDrive := rfl
@[simp] theorem ringClear_dataDrive (s : State) : (ringClear s).dataDrive = s.dataDrive := rfl
@[simp] theorem ringClear_sess (s : State) : (ringClear s).sess = s.sess := rfl
@[simp] theorem ringClear_x (s : State) : (ringClear s).x = s.x := rfl
@[simp] theorem ringClear_y (s : State) : (ringClear s).y = s.y := rfl
@[simp] theorem ringClear_z (s : State) : (ringClear s).z = s.z := rfl
@[simp] theorem ringClear_b (s : State) : (ringClear s).b = s.b := rfl
@[simp] theorem ringClear_wheel (s : State) : (ringClear s).wheel = s.wheel := rfl
@[simp] theorem ringClear_errcnt (s : State) : (ringClear s).errcnt = s.errcnt := rfl
@[simp] theorem ringClear_devClk (s : State) : (ringClear s).devClk = s.devClk := rfl
@[simp] theorem ringClear_devData (s : State) : (ringClear s).devData = s.devData := rfl
@[simp] theorem ringClear_wheelEnabled (s : State) : (ringClear s).wheelEnabled = s.wheelEnabled := rfl
@[simp] theorem ringClear_sampleRate (s : State) : (ringClear s).sampleRate = s.sampleRate := rfl
@[simp] theorem ringClear_accBits (s : State) : (ringClear s).accBits = s.accBits := rfl
@[simp] theorem ringClear_ctx (s : State) : (ringClear s).ctx = s.ctx := rfl
@[simp] theorem ringClear_main (s : State) : (ringClear s).main = s.main := rfl
@[simp] theorem ringClear_reply (s : State) : (ringClear s).reply = s.reply := rfl
@[simp] theorem ringClear_pkt (s : State) : (ringClear s).pkt = s.pkt := rfl
@[simp] theorem ringClear_ret (s : State) : (ringClear s).ret = s.ret := rfl
@[simp] theorem ringClear_dev (s : State) : (ringClear s).dev = s.dev := rfl
@[simp] theorem ringClear_cons (s : State) : (ringClear s).cons = s.cons := rfl
@[simp] theorem ringClear_snap (s : State) : (ringClear s).snap = s.snap := rfl
@[simp] theorem ringClear_sched (s : State) : (ringClear s).sched = s.sched := rfl

@[simp] theorem initializePort_ps (s : State) : (initializePort s).ps = .read := rfl
@[simp] theorem initializePort_fc (s : State) : (initializePort s).fc = 11 := rfl
@[simp] theorem initializePort_sr (s : State) : (initializePort s).sr = s.sr := rfl
@[simp] theorem initializePort_par (s : State) : (initializePort s).par = s.par := rfl
@[simp] theorem initializePort_irqArmed (s : State) : (initializePort s).irqArmed = true := rfl
@[simp] theorem initializePort_ring (s : State) : (initializePort s).ring = s.ring := rfl
@[simp] theorem initializePort_wr (s : State) : (initializePort s).wr = 0 := rfl
@[simp] theorem initializePort_rd (s : State) : (initializePort s).rd = 0 := rfl
@[simp] theorem initializePort_count (s : State) : (initializePort s).count = 0 := rfl
@[simp] theorem initializePort_clkDrive (s : State) : (initializePort s).clkDrive = .released := rfl
@[simp] theorem initializePort_dataDrive (s : State) : (initializePort s).dataDrive = .released := rfl
@[simp] theorem initializePort_sess (s : State) : (initializePort s).sess = s.sess := rfl
@[simp] theorem initializePort_x (s : State) : (initializePort s).x = s.x := rfl
@[simp] theorem initializePort_y (s : State) : (initializePort s).y = s.y := rfl
@[simp] theorem initializePort_z (s : State) : (initializePort s).z = s.z := rfl
@[simp] theorem initializePort_b (s : State) : (initializePort s).b = s.b := rfl
@[simp] theorem initializePort_wheel (s : State) : (initializePort s).wheel = s.wheel := rfl
@[simp] theorem initializePort_errcnt (s : State) : (initializePort s).errcnt = s.errcnt := rfl
@[simp] theorem initializePort_devClk (s : State) : (initializePort s).devClk = s.devClk := rfl
@[simp] theorem initializePort_devData (s : State) : (initializePort s).devData = s.devData := rfl
@[simp] theorem initializePort_wheelEnabled (s : State) : (initializePort s).wheelEnabled = s.wheelEnabled := rfl
@[simp] theorem initializePort_sampleRate (s : State) : (initializePort s).sampleRate = s.sampleRate := rfl
@[simp] theorem initializePort_accBits (s : State) : (initializePort s).accBits = s.accBits := rfl
@[simp] theorem initializePort_ctx (s : State) : (initializePort s).ctx = s.ctx := rfl
@[simp] theorem initializePort_main (s : State) : (initializePort s).main = s.main := rfl
@[simp] theorem initializePort_reply (s : State) : (initializePort s).reply = s.reply := rfl
@[simp] theorem initializePort_pkt (s : State) : (initializePort s).pkt = s.pkt := rfl
@[simp] theorem initializePort_ret (s : State) : (initializePort s).ret = s.ret := rfl
@[simp] theorem initializePort_dev (s : State) : (initializePort s).dev = s.dev := rfl
@[simp] theorem initializePort_cons (s : State) : (initializePort s).cons = s.cons := rfl
@[simp] theorem initializePort_snap (s : State) : (initializePort s).snap = s.snap := rfl
@[simp] theorem initializePort_sched (s : State) : (initializePort s).sched = s.sched := rfl

@[simp] theorem writeSetup_ps (v : Byte) (s : State) : (writeSetup v s).ps = .write := rfl
@[simp] theorem writeSetup_fc (v : Byte) (s : State) : (writeSetup v s).fc = 11 := rfl
@[simp] theorem writeSetup_sr (v : Byte) (s : State) : (writeSetup v s).sr = v := rfl
@[simp] theorem writeSetup_par (v : Byte) (s : State) : (writeSetup v s).par = parity v := by simp only [writeSetup]
@[simp] theorem writeSetup_irqArmed (v : Byte) (s : State) : (writeSetup v s).irqArmed = s.irqArmed := rfl
@[simp] theorem writeSetup_ring (v : Byte) (s : State) : (writeSetup v s).ring = s.ring := rfl
@[simp] theorem writeSetup_wr (v : Byte) (s : State) : (writeSetup v s).wr = 0 := rfl
@[simp] theorem writeSetup_rd (v : Byte) (s : State) : (writeSetup v s).rd = 0 := rfl
@[simp] theorem writeSetup_count (v : Byte) (s : State) : (writeSetup v s).count = 0 := rfl
@[simp] theorem writeSetup_clkDrive (v : Byte) (s : State) : (writeSetup v s).clkDrive = s.clkDrive := rfl
@[simp] theorem writeSetup_dataDrive (v : Byte) (s : State) : (writeSetup v s).dataDrive = s.dataDrive := rfl
@[simp] theorem writeSetup_sess (v : Byte) (s : State) : (writeSetup v s).sess = s.sess := rfl
@[simp] theorem writeSetup_x (v : Byte) (s : State) : (writeSetup v s).x = s.x := rfl
@[simp] theorem writeSetup_y (v : Byte) (s : State) : (writeSetup v s).y = s.y := rfl
@[simp] theorem writeSetup_z (v : Byte) (s : State) : (writeSetup v s).z = s.z := rfl
@[simp] theorem writeSetup_b (v : Byte) (s : State) : (writeSetup v s).b = s.b := rfl
@[simp] theorem writeSetup_wheel (v : Byte) (s : State) : (writeSetup v s).wheel = s.wheel := rfl
@[simp] theorem writeSetup_errcnt (v : Byte) (s : State) : (writeSetup v s).errcnt = s.errcnt := rfl
@[simp] theorem writeSetup_devClk (v : Byte) (s : State) : (writeSetup v s).devClk = s.devClk := rfl
@[simp] theorem writeSetup_devData (v : Byte) (s : State) : (writeSetup v s).devData = s.devData := rfl
@[simp] theorem writeSetup_wheelEnabled (v : Byte) (s : State) : (writeSetup v s).wheelEnabled = s.wheelEnabled := rfl
@[simp] theorem writeSetup_sampleRate (v : Byte) (s : State) : (writeSetup v s).sampleRate = s.sampleRate := rfl
@[simp] theorem writeSetup_accBits (v : Byte) (s : State) : (writeSetup v s).accBits = s.accBits := rfl
@[simp] theorem writeSetup_ctx (v : Byte) (s : State) : (writeSetup v s).ctx = s.ctx := rfl
@[simp] theorem writeSetup_main (v : Byte) (s : State) : (writeSetup v s).main = s.main := rfl
@[simp] theorem writeSetup_reply (v : Byte) (s : State) : (writeSetup v s).reply = s.reply := rfl
@[simp] theorem writeSetup_pkt (v : Byte) (s : State) : (writeSetup v s).pkt = s.pkt := rfl
@[simp] theorem writeSetup_ret (v : Byte) (s : State) : (writeSetup v s).ret = s.ret := rfl
@[simp] theorem writeSetup_dev (v : Byte) (s : State) : (writeSetup v s).dev = s.dev := rfl
@[simp] theorem writeSetup_cons (v : Byte) (s : State) : (writeSetup v s).cons = s.cons := rfl
@[simp] theorem writeSetup_snap (v : Byte) (s : State) : (writeSetup v s).snap = s.snap := rfl
@[simp] theorem writeSetup_sched (v : Byte) (s : State) : (writeSetup v s).sched = s.sched := rfl

@[simp] theorem sessionInit_ps (s : State) : (sessionInit s).ps = .read := rfl
@[simp] theorem sessionInit_fc (s : State) : (sessionInit s).fc = 11 := rfl
@[simp] theorem sessionInit_sr (s : State) : (sessionInit s).sr = s.sr := rfl
@[simp] theorem sessionInit_par (s : State) : (sessionInit s).par = s.par := rfl
@[simp] theorem sessionInit_irqArmed (s : State) : (sessionInit s).irqArmed = true := rfl
@[simp] theorem sessionInit_ring (s : State) : (sessionInit s).ring = s.ring := rfl
@[simp] theorem sessionInit_wr (s : State) : (sessionInit s).wr = 0 := rfl
@[simp] theorem sessionInit_rd (s : State) : (sessionInit s).rd = 0 := rfl
@[simp] theorem sessionInit_count (s : State) : (sessionInit s).count = 0 := rfl
@[simp] theorem sessionInit_clkDrive (s : State) : (sessionInit s).clkDrive = .released := rfl
@[simp] theorem sessionInit_dataDrive (s : State) : (sessionInit s).dataDrive = .released := rfl
@[simp] theorem sessionInit_sess (s : State) : (sessionInit s).sess = .handshaking := rfl
@[simp] theorem sessionInit_x (s : State) : (sessionInit s).x = 0 := rfl
@[simp] theorem sessionInit_y (s : State) : (sessionInit s).y = 0 := rfl
@[simp] theorem sessionInit_z (s : State) : (sessionInit s).z = 0 := rfl
@[simp] theorem sessionInit_b (s : State) : (sessionInit s).b = 0 := rfl
@[simp] theorem sessionInit_wheel (s : State) : (sessionInit s).wheel = false := rfl
@[simp] theorem sessionInit_errcnt (s : State) : (sessionInit s).errcnt = s.errcnt := rfl
@[simp] theorem sessionInit_devClk (s : State) : (sessionInit s).devClk = s.devClk := rfl
@[simp] theorem sessionInit_devData (s : State) : (sessionInit s).devData = s.devData := rfl
@[simp] theorem sessionInit_wheelEnabled (s : State) : (sessionInit s).wheelEnabled = s.wheelEnabled := rfl
@[simp] theorem sessionInit_sampleRate (s : State) : (sessionInit s).sampleRate = s.sampleRate := rfl
@[simp] theorem sessionInit_accBits (s : State) : (sessionInit s).accBits = s.accBits := rfl
@[simp] theorem sessionInit_ctx (s : State) : (sessionInit s).ctx = s.ctx := rfl
@[simp] theorem sessionInit_main (s : State) : (sessionInit s).main = s.main := rfl
@[simp] theorem sessionInit_reply (s : State) : (sessionInit s).reply = s.reply := rfl
@[simp] theorem sessionInit_pkt (s : State) : (sessionInit s).pkt = s.pkt := rfl
@[simp] theorem sessionInit_ret (s : State) : (sessionInit s).ret = s.ret := rfl
@[simp] theorem sessionInit_dev (s : State) : (sessionInit s).dev = s.dev := rfl
@[simp] theorem sessionInit_cons (s : State) : (sessionInit s).cons = s.cons := rfl
@[simp] theorem sessionInit_snap (s : State) : (sessionInit s).snap = s.snap := rfl
@[simp] theorem sessionInit_sched (s : State) : (sessionInit s).sched = s.sched := rfl

@[simp] theorem gotoFail_ps (s : State) : (gotoFail s).ps = s.ps := rfl
@[simp] theorem gotoFail_fc (s : State) : (gotoFail s).fc = s.fc := rfl
@[simp] theorem gotoFail_sr (s : State) : (gotoFail s).sr = s.sr := rfl
@[simp] theorem gotoFail_par (s : State) : (gotoFail s).par = s.par := rfl
@[simp] theorem gotoFail_irqArmed (s : State) : (gotoFail s).irqArmed = s.irqArmed := rfl
@[simp] theorem gotoFail_ring (s : State) : (gotoFail s).ring = s.ring := rfl
@[simp] theorem gotoFail_wr (s : State) : (gotoFail s).wr = s.wr := rfl
@[simp] theorem gotoFail_rd (s : State) : (gotoFail s).rd = s.rd := rfl
@[simp] theorem gotoFail_count (s : State) : (gotoFail s).count = s.count := rfl
@[simp] theorem gotoFail_clkDrive (s : State) : (gotoFail s).clkDrive = s.clkDrive := rfl
@[simp] theorem gotoFail_dataDrive (s : State) : (gotoFail s).dataDrive = s.dataDrive := rfl
@[simp] theorem gotoFail_sess (s : State) : (gotoFail s).sess = s.sess := rfl
@[simp] theorem gotoFail_x (s : State) : (gotoFail s).x = s.x := rfl
@[simp] theorem gotoFail_y (s : State) : (gotoFail s).y = s.y := rfl
@[simp] theorem gotoFail_z (s : State) : (gotoFail s).z = s.z := rfl
@[simp] theorem gotoFail_b (s : State) : (gotoFail s).b = s.b := rfl
@[simp] theorem gotoFail_wheel (s : State) : (gotoFail s).wheel = s.wheel := rfl
@[simp] theorem gotoFail_errcnt (s : State) : (gotoFail s).errcnt = s.errcnt := rfl
@[simp] theorem gotoFail_devClk (s : State) : (gotoFail s).devClk = s.devClk := rfl
@[simp] theorem gotoFail_devData (s : State) : (gotoFail s).devData = s.devData := rfl
@[simp] theorem gotoFail_wheelEnabled (s : State) : (gotoFail s).wheelEnabled = s.wheelEnabled := rfl
@[simp] theorem gotoFail_sampleRate (s : State) : (gotoFail s).sampleRate = s.sampleRate := rfl
@[simp] theorem gotoFail_accBits (s : State) : (gotoFail s).accBits = s.accBits := rfl
@[simp] theorem gotoFail_ctx (s : State) : (gotoFail s).ctx = s.ctx := rfl
@[simp] theorem gotoFail_main (s : State) : (gotoFail s).main = .sessionFail :: afterSession s.main := rfl
@[simp] theorem gotoFail_reply (s : State) : (gotoFail s).reply = s.reply := rfl
@[simp] theorem gotoFail_pkt (s : State) : (gotoFail s).pkt = s.pkt := rfl
@[simp] theorem gotoFail_ret (s : State) : (gotoFail s).ret = s.ret := rfl
@[simp] theorem gotoFail_dev (s : State) : (gotoFail s).dev = s.dev := rfl
@[simp] theorem gotoFail_cons (s : State) : (gotoFail s).cons = s.cons := rfl
@[simp] theorem gotoFail_snap (s : State) : (gotoFail s).snap = s.snap := rfl
@[simp] theorem gotoFail_sched (s : State) : (gotoFail s).sched = s.sched := rfl

@[simp] theorem enterContext_ps (c : Context) (s : State) : (enterContext c s).ps = s.ps := rfl
@[simp] theorem enterContext_fc (c : Context) (s : State) : (enterContext c s).fc = s.fc := rfl
@[simp] theorem enterContext_sr (c : Context) (s : State) : (enterContext c s).sr = s.sr := rfl
@[simp] theorem enterContext_par (c : Context) (s : State) : (enterContext c s).par = s.par := rfl
@[simp] theorem enterContext_irqArmed (c : Context) (s : State) : (enterContext c s).irqArmed = s.irqArmed := rfl
@[simp] theorem enterContext_ring (c : Context) (s : State) : (enterContext c s).ring = s.ring := rfl
@[simp] theorem enterContext_wr (c : Context) (s : State) : (enterContext c s).wr = s.wr := rfl
@[simp] theorem enterContext_rd (c : Context) (s : State) : (enterContext c s).rd = s.rd := rfl
@[simp] theorem enterContext_count (c : Context) (s : State) : (enterContext c s).count = s.count := rfl
@[simp] theorem enterContext_clkDrive (c : Context) (s : State) : (enterContext c s).clkDrive = s.clkDrive := rfl
@[simp] theorem enterContext_dataDrive (c : Context) (s : State) : (enterContext c s).dataDrive = s.dataDrive := rfl
@[simp] theorem enterContext_sess (c : Context) (s : State) : (enterContext c s).sess = s.sess := rfl
@[simp] theorem enterContext_x (c : Context) (s : State) : (enterContext c s).x = s.x := rfl
@[simp] theorem enterContext_y (c : Context) (s : State) : (enterContext c s).y = s.y := rfl
@[simp] theorem enterContext_z (c : Context) (s : State) : (enterContext c s).z = s.z := rfl
@[simp] theorem enterContext_b (c : Context) (s : State) : (enterContext c s).b = s.b := rfl
@[simp] theorem enterContext_wheel (c : Context) (s : State) : (enterContext c s).wheel = s.wheel := rfl
@[simp] theorem enterContext_errcnt (c : Context) (s : State) : (enterContext c s).errcnt = s.errcnt := rfl
@[simp] theorem enterContext_devClk (c : Context) (s : State) : (enterContext c s).devClk = s.devClk := rfl
@[simp] theorem enterContext_devData (c : Context) (s : State) : (enterContext c s).devData = s.devData := rfl
@[simp] theorem enterContext_wheelEnabled (c : Context) (s : State) : (enterContext c s).wheelEnabled = s.wheelEnabled := rfl
@[simp] theorem enterContext_sampleRate (c : Context) (s : State) : (enterContext c s).sampleRate = s.sampleRate := rfl
@[simp] theorem enterContext_accBits (c : Context) (s : State) : (enterContext c s).accBits = s.accBits := rfl
@[simp] theorem enterContext_ctx (c : Context) (s : State) : (enterContext c s).ctx = c := rfl
@[simp] theorem enterContext_main (c : Context) (s : State) : (enterContext c s).main = s.main := rfl
@[simp] theorem enterContext_reply (c : Context) (s : State) : (enterContext c s).reply = s.reply := rfl
@[simp] theorem enterContext_pkt (c : Context) (s : State) : (enterContext c s).pkt = s.pkt := rfl
@[simp] theorem enterContext_ret (c : Context) (s : State) : (enterContext c s).ret = s.ret := rfl
@[simp] theorem enterContext_dev (c : Context) (s : State) : (enterContext c s).dev = s.dev := rfl
@[simp] theorem enterContext_cons (c : Context) (s : State) : (enterContext c s).cons = s.cons := rfl
@[simp] theorem enterContext_snap (c : Context) (s : State) : (enterContext c s).snap = s.snap := rfl
@[simp] theorem enterContext_sched (c : Context) (s : State) : (enterContext c s).sched = s.sched := rfl

@[simp] theorem leaveContext_ps (s : State) : (leaveContext s).ps = s.ps := rfl
@[simp] theorem leaveContext_fc (s : State) : (leaveContext s).fc = s.fc := rfl
@[simp] theorem leaveContext_sr (s : State) : (leaveContext s).sr = s.sr := rfl
@[simp] theorem leaveContext_par (s : State) : (leaveContext s).par = s.par := rfl
@[simp] theorem leaveContext_irqArmed (s : State) : (leaveContext s).irqArmed = s.irqArmed := rfl
@[simp] theorem leaveContext_ring (s : State) : (leaveContext s).ring = s.ring := rfl
@[simp] theorem leaveContext_wr (s : State) : (leaveContext s).wr = s.wr := rfl
@[simp] theorem leaveContext_rd (s : State) : (leaveContext s).rd = s.rd := rfl
@[simp] theorem leaveContext_count (s : State) : (leaveContext s).count = s.count := rfl
@[simp] theorem leaveContext_clkDrive (s : State) : (leaveContext s).clkDrive = s.clkDrive := rfl
@[simp] theorem leaveContext_dataDrive (s : State) : (leaveContext s).dataDrive = s.dataDrive := rfl
@[simp] theorem leaveContext_sess (s : State) : (leaveContext s).sess = s.sess := rfl
@[simp] theorem leaveContext_x (s : State) : (leaveContext s).x = s.x := rfl
@[simp] theorem leaveContext_y (s : State) : (leaveContext s).y = s.y := rfl
@[simp] theorem leaveContext_z (s : State) : (leaveContext s).z = s.z := rfl
@[simp] theorem leaveContext_b (s : State) : (leaveContext s).b = s.b := rfl
@[simp] theorem leaveContext_wheel (s : State) : (leaveContext s).wheel = s.wheel := rfl
@[simp] theorem leaveContext_errcnt (s : State) : (leaveContext s).errcnt = s.errcnt := rfl
@[simp] theorem leaveContext_devClk (s : State) : (leaveContext s).devClk = s.devClk := rfl
@[simp] theorem leaveContext_devData (s : State) : (leaveContext s).devData = s.devData := rfl
@[simp] theorem leaveContext_wheelEnabled (s : State) : (leaveContext s).wheelEnabled = s.wheelEnabled := rfl
@[simp] theorem leaveContext_sampleRate (s : State) : (leaveContext s).sampleRate = s.sampleRate := rfl
@[simp] theorem leaveContext_accBits (s : State) : (leaveContext s).accBits = s.accBits := rfl
@[simp] theorem leaveContext_ctx (s : State) : (leaveContext s).ctx = .mainline := rfl
@[simp] theorem leaveContext_main (s : State) : (leaveContext s).main = s.main := rfl
@[simp] theorem leaveContext_reply (s : State) : (leaveContext s).reply = s.reply := rfl
@[simp] theorem leaveContext_pkt (s : State) : (leaveContext s).pkt = s.pkt := rfl
@[simp] theorem leaveContext_ret (s : State) : (leaveContext s).ret = s.ret := rfl
@[simp] theorem leaveContext_dev (s : State) : (leaveContext s).dev = s.dev := rfl
@[simp] theorem leaveContext_cons (s : State) : (leaveContext s).cons = s.cons := rfl
@[simp] theorem leaveContext_snap (s : State) : (leaveContext s).snap = s.snap := rfl
@[simp] theorem leaveContext_sched (s : State) : (leaveContext s).sched = s.sched := rfl

end Sys2Proof.Machine
end

