-- ==== Sys2Proof/Laws/Memory.lean ====
section
/-! SUPPORT. The ring storage and the ring buffer: read after write, and that every operation keeps the canonical
form and the ring invariant (20_memory.md R61; 41_ring_buffer.md R160 to R166). -/
namespace Sys2Proof.Machine

/-- Below the first address of a canonical list every cell reads as unlisted. -/
theorem Memory.read_below {m : Memory} {lo a : Nat} (h : Memory.wfFrom lo m = true) (ha : a < lo) :
    Memory.read m a = unlistedCell := by
  induction m generalizing lo with
  | nil => rfl
  | cons c m ih =>
    obtain ⟨k, v⟩ := c
    simp only [Memory.wfFrom, Bool.and_eq_true, decide_eq_true_eq] at h
    simp only [Memory.read]
    rw [if_neg (by omega), ih h.2 (by omega)]

theorem Memory.wfFrom_mono {m : Memory} {lo lo' : Nat} (h : Memory.wfFrom lo m = true) (hl : lo' ≤ lo) :
    Memory.wfFrom lo' m = true := by
  cases m with
  | nil => rfl
  | cons c m =>
    obtain ⟨k, v⟩ := c
    simp only [Memory.wfFrom, Bool.and_eq_true, decide_eq_true_eq] at h ⊢
    exact ⟨⟨⟨by omega, h.1.1.2⟩, h.1.2⟩, h.2⟩

/-- A read after a write to the same cell gives the value written. -/
theorem Memory.read_write_same {m : Memory} {lo : Nat} (h : Memory.wfFrom lo m = true) (a : Nat) (v : Byte) :
    Memory.read (Memory.write m a v) a = v := by
  induction m generalizing lo with
  | nil => unfold Memory.write; split <;> simp [Memory.read, *]
  | cons c m ih =>
    obtain ⟨k, w⟩ := c
    simp only [Memory.wfFrom, Bool.and_eq_true, decide_eq_true_eq] at h
    have hm := h.2
    unfold Memory.write
    split
    · rename_i hk
      split
      · rename_i hv
        simp only [Memory.read]
        rw [if_neg (by omega), Memory.read_below hm (by omega), hv]
      · simp [Memory.read]
    · split
      · rename_i hk
        subst hk
        split
        · rename_i hv
          rw [Memory.read_below hm (by omega), hv]
        · simp [Memory.read]
      · rename_i hne
        simp only [Memory.read]
        rw [if_neg (fun e => hne e.symm)]
        exact ih hm

/-- A write leaves every other cell alone. -/
theorem Memory.read_write_other (m : Memory) {a c : Nat} (v : Byte) (hne : c ≠ a) :
    Memory.read (Memory.write m a v) c = Memory.read m c := by
  induction m with
  | nil => unfold Memory.write; split <;> simp [Memory.read, Ne.symm hne]
  | cons p m ih =>
    obtain ⟨k, w⟩ := p
    unfold Memory.write
    split
    · split
      · rfl
      · rw [Memory.read.eq_2, if_neg (Ne.symm hne)]
    · split
      · rename_i hk
        subst hk
        split
        · rw [Memory.read.eq_2, if_neg (Ne.symm hne)]
        · rw [Memory.read.eq_2, Memory.read.eq_2, if_neg (Ne.symm hne), if_neg (Ne.symm hne)]
      · simp only [Memory.read, ih]

/-- A write inside the ring keeps the canonical form. -/
theorem Memory.write_wfFrom {m : Memory} {lo a : Nat} (v : Byte) (h : Memory.wfFrom lo m = true) (hlo : lo ≤ a)
    (ha : a < Config.ringCapacity) : Memory.wfFrom lo (Memory.write m a v) = true := by
  induction m generalizing lo with
  | nil =>
    unfold Memory.write
    split
    · rfl
    · simp [Memory.wfFrom, *]
  | cons p m ih =>
    obtain ⟨k, w⟩ := p
    have h' := h
    simp only [Memory.wfFrom, Bool.and_eq_true, decide_eq_true_eq] at h
    unfold Memory.write
    split
    · rename_i hk
      split
      · exact h'
      · rename_i hv
        simp only [Memory.wfFrom, Bool.and_eq_true, decide_eq_true_eq]
        exact ⟨⟨⟨hlo, ha⟩, hv⟩, ⟨⟨by omega, h.1.1.2⟩, h.1.2⟩, h.2⟩
    · split
      · rename_i hk
        subst hk
        split
        · exact Memory.wfFrom_mono h.2 (by omega)
        · rename_i hv
          simp only [Memory.wfFrom, Bool.and_eq_true, decide_eq_true_eq]
          exact ⟨⟨⟨hlo, ha⟩, hv⟩, h.2⟩
      · simp only [Memory.wfFrom, Bool.and_eq_true, decide_eq_true_eq]
        exact ⟨h.1, ih h.2 (by omega)⟩

/-- The one write of ring storage keeps the canonical form. -/
theorem Memory.write_wf {m : Memory} (a : BitVec 8) (v : Byte) (h : Memory.wf m = true) :
    Memory.wf (Memory.write m a.toNat v) = true :=
  Memory.write_wfFrom v h (Nat.zero_le _) a.isLt

/-! ## The ring buffer -/

/-- `push` on a full ring raises the error and does nothing else (R161). -/
theorem ringPush_full {s : State} (v : Byte) (h : s.count = 256) : ringPush v s = raisePortError .overflow s := by
  simp [ringPush, ringFull, h]

/-- `push` on a ring that is not full stores the byte (R160). -/
theorem ringPush_notFull {s : State} (v : Byte) (h : s.count ≠ 256) :
    ringPush v s =
      { s with ring := Memory.write s.ring s.wr.toNat v, wr := s.wr + 1, count := s.count + 1 } := by
  simp [ringPush, ringFull, h]

/-- Everything `push` can do. -/
theorem ringPush_cases (v : Byte) (s : State) :
    (s.count = 256 ∧ ringPush v s = raisePortError .overflow s) ∨
    (s.count ≠ 256 ∧ ringPush v s =
      { s with ring := Memory.write s.ring s.wr.toNat v, wr := s.wr + 1, count := s.count + 1 }) := by
  by_cases h : s.count = 256
  · exact .inl ⟨h, ringPush_full v h⟩
  · exact .inr ⟨h, ringPush_notFull v h⟩

theorem ringPop_empty {s : State} (h : s.count = 0) : ringPop s = none := by simp [ringPop, ringEmpty, h]

theorem ringPop_some {s : State} (h : s.count ≠ 0) :
    ringPop s = some (Memory.read s.ring s.rd.toNat, { s with rd := s.rd + 1, count := s.count - 1 }) := by
  simp [ringPop, ringEmpty, h]

/-- Everything `pop` can do. -/
theorem ringPop_cases (s : State) :
    (s.count = 0 ∧ ringPop s = none) ∨
    (s.count ≠ 0 ∧
      ringPop s = some (Memory.read s.ring s.rd.toNat, { s with rd := s.rd + 1, count := s.count - 1 })) := by
  by_cases h : s.count = 0
  · exact .inl ⟨h, ringPop_empty h⟩
  · exact .inr ⟨h, ringPop_some h⟩

theorem ringPop_eq_some {s t : State} {v : Byte} (h : ringPop s = some (v, t)) :
    s.count ≠ 0 ∧ v = Memory.read s.ring s.rd.toNat ∧ t = { s with rd := s.rd + 1, count := s.count - 1 } := by
  rcases ringPop_cases s with ⟨-, e⟩ | ⟨hc, e⟩ <;> rw [e] at h
  · cases h
  · cases h; exact ⟨hc, rfl, rfl⟩

end Sys2Proof.Machine
end

