-- ==== Sys2Proof/Laws/Agents.lean ====
section
/-! SUPPORT. Everything each shared operation of the agents can do, said once: provers cite these instead of unfolding. -/
namespace Sys2Proof.Machine

@[simp] theorem mapNext_next (f : State → State) (s : State) : mapNext f (.next s) = .next (f s) := rfl
@[simp] theorem mapNext_fault (f : State → State) (r : Fault) : mapNext f (.fault r) = .fault r := rfl
@[simp] theorem mapNext_refused (f : State → State) (r : Refusal) : mapNext f (.refused r) = .refused r := rfl

theorem mapNext_eq_next {f : State → State} {o : Out} {t : State} (h : mapNext f o = .next t) :
    ∃ u, o = .next u ∧ t = f u := by
  cases o <;> simp_all

/-- An invocation answers a next state exactly by running the selected phase (R132). -/
theorem engine_cases {s t : State} (h : engine s = .next t) :
    ∃ ph, phaseAt s.ps s.fc = some ph ∧ t = runPhase ph s := by
  unfold engine at h
  split at h
  · rename_i ph hph; cases h; exact ⟨ph, hph, rfl⟩
  · cases h

theorem engine_of_phase {s : State} {ph : Phase} (h : phaseAt s.ps s.fc = some ph) :
    engine s = .next (runPhase ph s) := by simp [engine, h]

/-- A falling edge is lost, or handled by one invocation (R130, R45). -/
theorem fallingEdge_cases {s t : State} (h : fallingEdge s = .next t) :
    (s.irqArmed = false ∧ t = s) ∨
    (s.irqArmed = true ∧ ∃ ph, phaseAt s.ps s.fc = some ph ∧ t = runPhase ph s) := by
  unfold fallingEdge at h
  split at h
  · rename_i ha; exact .inr ⟨ha, engine_cases h⟩
  · rename_i ha; cases h; exact .inl ⟨by simpa using ha, rfl⟩

/-- A fall of the device's clock: no edge or a lost one, or one invocation while armed (R44, R45, R130). -/
theorem atFall_cases {k : State → Out} {s t : State} (h : atFall k s = .next t) :
    t = { s with devClk := .low } ∨
    (s.irqArmed = true ∧ s.clkDrive = .released ∧ k { s with devClk := .low } = .next t) := by
  unfold atFall at h
  cases hc : s.clkDrive <;> simp only [hc] at h
  · split at h
    · rename_i ha; exact .inr ⟨ha, rfl, h⟩
    · cases h; exact .inl rfl
  · cases h; exact .inl rfl

theorem atFall_handled (k : State → Out) {s : State} (ha : s.irqArmed = true) (hc : s.clkDrive = .released) :
    atFall k s = k { s with devClk := .low } := by simp [atFall, ha, hc]

theorem atFall_lost (k : State → Out) {s : State} (h : s.irqArmed = false ∨ s.clkDrive = .low) :
    atFall k s = .next { s with devClk := .low } := by
  unfold atFall
  cases hc : s.clkDrive <;> simp_all

/-- What `EDGE d` can do: move the device's lines, and run the selected phase when an edge is handled. -/
theorem clockEdge_cases {d : Bool} {s t : State} (h : clockEdge d s = .next t) :
    t = { s with devClk := .low, devData := driveOf d } ∨
    (s.irqArmed = true ∧ ∃ ph, phaseAt s.ps s.fc = some ph ∧
      t = runPhase ph { s with devClk := .low, devData := driveOf d }) := by
  rcases atFall_cases h with rfl | ⟨ha, -, h⟩
  · exact .inl rfl
  · exact .inr ⟨ha, engine_cases h⟩

theorem setDeviceLines_cases {c d : Drive} {s t : State} (h : setDeviceLines c d s = .next t) :
    t = { s with devClk := c, devData := d } ∨
    (s.irqArmed = true ∧ ∃ ph, phaseAt s.ps s.fc = some ph ∧
      t = runPhase ph { s with devClk := c, devData := d }) := by
  simp only [setDeviceLines] at h
  split at h
  · rcases fallingEdge_cases h with ⟨-, rfl⟩ | ⟨ha, ph, hp, rfl⟩
    · exact .inl rfl
    · exact .inr ⟨ha, ph, hp, rfl⟩
  · cases h; exact .inl rfl

theorem pullClockLow_cases {s t : State} (h : pullClockLow s = .next t) :
    t = { s with clkDrive := .low } ∨
    (s.irqArmed = true ∧ ∃ ph, phaseAt s.ps s.fc = some ph ∧ t = runPhase ph { s with clkDrive := .low }) := by
  simp only [pullClockLow] at h
  split at h
  · rcases fallingEdge_cases h with ⟨-, rfl⟩ | ⟨ha, ph, hp, rfl⟩
    · exact .inl rfl
    · exact .inr ⟨ha, ph, hp, rfl⟩
  · cases h; exact .inl rfl

/-- The device's next edge: none left, or `EDGE` for the next level. -/
theorem deviceStep_cases {s t : State} (h : deviceStep s = .next t) :
    t = s ∨ ∃ d rest, s.dev = d :: rest ∧ clockEdge d { s with dev := rest } = .next t := by
  unfold deviceStep at h
  split at h
  · cases h; exact .inl rfl
  · rename_i d rest hd; exact .inr ⟨d, rest, hd, h⟩

theorem beginFrame_cases {l : List Bool} {s t : State} (h : beginFrame l s = .next t) :
    t = { s with dev := s.dev ++ l } ∨ deviceStep { s with dev := l } = .next t := by
  unfold beginFrame at h
  split at h
  · exact .inr h
  · cases h; exact .inl rfl

/-- The branch of a row of R100 is the invocation of R132: the row says which phase the pair selects, no more. -/
theorem branch_eq_engine {p : PortState} {f : BitVec 4} {ph : Phase} (hph : phaseAt p f = some ph) (s : State) :
    branch p f ph s = engine s := by
  unfold branch
  split
  · rename_i h; exact (engine_of_phase (by rw [h.1, h.2, hph])).symm
  · rfl

/-- What a phase row of R100 can do: move the device's clock, and run the phase that is selected. -/
theorem atSelector_cases {p : PortState} {f : BitVec 4} {ph : Phase} {s t : State} (hph : phaseAt p f = some ph)
    (h : atSelector p f ph s = .next t) :
    s.ctx = .interrupt ∧ (t = { s with devClk := .low } ∨
      (s.irqArmed = true ∧ ∃ ph', phaseAt s.ps s.fc = some ph' ∧ t = runPhase ph' { s with devClk := .low })) := by
  unfold atSelector at h
  split at h
  · rename_i hc
    refine ⟨hc, ?_⟩
    rcases atFall_cases h with rfl | ⟨ha, -, h⟩
    · exact .inl rfl
    · rw [branch_eq_engine hph] at h; exact .inr ⟨ha, engine_cases h⟩
  · cases h

/-- In interrupt context a phase row is one edge. -/
theorem atSelector_interrupt (p : PortState) (f : BitVec 4) (ph : Phase) {s : State} (hc : s.ctx = .interrupt) :
    atSelector p f ph s = atFall (branch p f ph) s := if_pos hc

theorem atSelector_selected {p : PortState} {f : BitVec 4} (ph : Phase) {s : State} (hc : s.ctx = .interrupt)
    (ha : s.irqArmed = true) (hr : s.clkDrive = .released) (hp : s.ps = p) (hf : s.fc = f) :
    atSelector p f ph s = .next (runPhase ph { s with devClk := .low }) := by
  rw [atSelector_interrupt p f ph hc, atFall_handled _ ha hr]
  exact if_pos ⟨hp, hf⟩

/-- In interrupt context push is one edge. -/
theorem execPush_interrupt (v : Byte) {s : State} (hc : s.ctx = .interrupt) : execPush v s = atFall (enginePushing v) s :=
  if_pos hc

/-- In interrupt context `EDGE d` is one edge. -/
theorem execEdge_interrupt (d : Bool) {s : State} (hc : s.ctx = .interrupt) :
    execEdge d s = atFall engine { s with devData := driveOf d } := if_pos hc

/-- With the Shift Register's own value the call of push is the ordinary one (R136). -/
theorem enginePushing_sr (s : State) : enginePushing s.sr s = engine s := by
  unfold enginePushing
  split
  · rename_i h; exact (engine_of_phase (ph := .rdStop) (by rw [h.1, h.2]; rfl)).symm
  · rfl

/-- Off the stop phase of a read frame no push is called (R253). -/
theorem enginePushing_elsewhere (v : Byte) {s : State} (h : ¬ (s.ps = .read ∧ s.fc = 1)) :
    enginePushing v s = engine s := if_neg h

theorem enginePushing_stop (v : Byte) {s : State} (hp : s.ps = .read) (hf : s.fc = 1) :
    enginePushing v s = .next (countDown (stopPushing v s)) := if_pos ⟨hp, hf⟩

/-- The invocation of an edge that pushes `v`: the stop phase with that byte, or the selected phase (R132, R136). -/
theorem enginePushing_cases {v : Byte} {s t : State} (h : enginePushing v s = .next t) :
    (s.ps = .read ∧ s.fc = 1 ∧ t = countDown (stopPushing v s)) ∨
    (∃ ph, phaseAt s.ps s.fc = some ph ∧ t = runPhase ph s) := by
  unfold enginePushing at h
  split at h
  · rename_i hp; cases h; exact .inl ⟨hp.1, hp.2, rfl⟩
  · exact .inr (engine_cases h)

/-- What `push` can do: move the device's clock, and run one invocation, the stop phase's with the byte named (R130,
R160, R253). -/
theorem execPush_cases {v : Byte} {s t : State} (h : execPush v s = .next t) :
    s.ctx = .interrupt ∧ (t = { s with devClk := .low } ∨
      (s.irqArmed = true ∧
        ((s.ps = .read ∧ s.fc = 1 ∧ t = countDown (stopPushing v { s with devClk := .low })) ∨
          ∃ ph, phaseAt s.ps s.fc = some ph ∧ t = runPhase ph { s with devClk := .low }))) := by
  unfold execPush at h
  split at h
  · rename_i hc
    refine ⟨hc, ?_⟩
    rcases atFall_cases h with rfl | ⟨ha, -, h⟩
    · exact .inl rfl
    · exact .inr ⟨ha, enginePushing_cases h⟩
  · cases h

/-- The main line's next sub-step. -/
theorem mainStep_cases {s t : State} (h : mainStep s = .next t) :
    (s.main = [] ∧ t = s) ∨ ∃ m rest, s.main = m :: rest ∧ runMicro m { s with main := rest } = .next t := by
  unfold mainStep at h
  split at h
  · rename_i hm; cases h; exact .inl ⟨hm, rfl⟩
  · rename_i m rest hm; exact .inr ⟨m, rest, hm, h⟩

/-- Beginning an operation on the main line. -/
theorem beginMain_cases {p : List Micro} {s t : State} (h : beginMain p s = .next t) :
    t = { s with main := s.main ++ p } ∨ (s.main = [] ∧ mainStep { s with main := p } = .next t) := by
  unfold beginMain at h
  split at h
  · rename_i hm; exact .inr ⟨hm, h⟩
  · cases h; exact .inl rfl

theorem onMainLine_cases {p : List Micro} {s t : State} (h : onMainLine p s = .next t) :
    s.ctx = .mainline ∧ beginMain p s = .next t := by
  unfold onMainLine at h
  split at h
  · rename_i hc; exact ⟨hc, h⟩
  · cases h

theorem onEntry_cases {p : List Micro} {s t : State} (h : onEntry p s = .next t) :
    s.ctx ≠ .interrupt ∧ beginMain p s = .next t := by
  unfold onEntry at h
  split at h
  · cases h
  · rename_i hc; exact ⟨hc, h⟩

theorem consumerStep_cases {s t : State} (h : consumerStep s = .next t) :
    t = s ∨ ∃ a rest, s.cons = a :: rest ∧ t = runAccess a { s with cons := rest } := by
  unfold consumerStep at h
  split at h
  · cases h; exact .inl rfl
  · rename_i a rest hc; cases h; exact .inr ⟨a, rest, hc, rfl⟩

theorem beginConsumer_cases {p : List Access} {s t : State} (h : beginConsumer p s = .next t) :
    t = { s with cons := s.cons ++ p } ∨ consumerStep { s with cons := p } = .next t := by
  unfold beginConsumer at h
  split at h
  · exact .inr h
  · cases h; exact .inl rfl

theorem fromDevice_cases {l : List Bool} {s t : State} (h : fromDevice l s = .next t) :
    s.ctx = .interrupt ∧ beginFrame l s = .next t := by
  unfold fromDevice at h
  split at h
  · rename_i hc; exact ⟨hc, h⟩
  · cases h

theorem byConsumer_cases {p : List Access} {s t : State} (h : byConsumer p s = .next t) :
    s.ctx ≠ .interrupt ∧ beginConsumer p s = .next t := by
  unfold byConsumer at h
  split at h
  · cases h
  · rename_i hc; exact ⟨hc, h⟩

/-- What the stop phase with its decrement leaves alone, whichever byte it pushes (R136, R141, R160, R161). -/
theorem stopPushing_frame (v : Byte) (u : State) :
    ∃ ps fc ring wr count,
      countDown (stopPushing v u) = { u with ps := ps, fc := fc, ring := ring, wr := wr, count := count } := by
  unfold stopPushing
  split
  · rcases ringPush_cases v u with ⟨-, e⟩ | ⟨-, e⟩ <;> rw [e] <;> exact ⟨_, _, _, _, _, rfl⟩
  · exact ⟨_, _, _, _, _, rfl⟩

/-- What a phase with its decrement leaves alone (R131 to R141): everything but `ps`, `fc`, `sr`, `data_drive`, and what
`push` writes. -/
theorem runPhase_frame (ph : Phase) (u : State) :
    ∃ ps fc sr dataDrive ring wr count,
      runPhase ph u = { u with ps := ps, fc := fc, sr := sr, dataDrive := dataDrive, ring := ring, wr := wr,
                               count := count } := by
  cases ph
  case rdStop =>
    obtain ⟨ps, fc, ring, wr, count, e⟩ := stopPushing_frame u.sr u
    exact ⟨ps, fc, u.sr, u.dataDrive, ring, wr, count, e⟩
  all_goals
    simp only [runPhase, countDown, readStart, readData, readParity, writeData, writeParity, writeStop, writeAck]
    (try split) <;> exact ⟨_, _, _, _, _, _, _, rfl⟩

/-- `ERR_NOP` is the only phase while `ps` is `Error`, and it changes nothing (R131). -/
theorem runPhase_of_error {ph : Phase} {u : State} (he : u.ps = .error) (h : phaseAt u.ps u.fc = some ph) :
    runPhase ph u = u := by
  rw [he] at h
  cases h
  rfl

end Sys2Proof.Machine
end

