-- ==== Sys2Proof/Laws/Arithmetic.lean ====
section
/-! SUPPORT. The accumulators' arithmetic: what `wrap` does (00_scope.md R8, 43_mouse_session.md R228). -/
namespace Sys2Proof.Machine

/-- `wrap_W` is the balanced remainder modulo `2^W`. -/
theorem wrap_eq_bmod (w : Nat) (i : Int) : wrap w i = i.bmod (2 ^ w) := BitVec.toInt_ofInt i

/-- What `wrap` answers is a value of the cell. -/
@[simp] theorem wrap_wrap (w : Nat) (i : Int) : wrap w (wrap w i) = wrap w i := by simp [wrap_eq_bmod]

@[simp] theorem wrap_zero (w : Nat) : wrap w 0 = 0 := by simp [wrap_eq_bmod]

/-- Wrapping once at the end is wrapping at every step (R228). -/
theorem wrap_add_left (w : Nat) (i j : Int) : wrap w (wrap w i + j) = wrap w (i + j) := by simp [wrap_eq_bmod]

theorem wrap_sub_left (w : Nat) (i j : Int) : wrap w (wrap w i - j) = wrap w (i - j) := by simp [wrap_eq_bmod]

/-- A sum inside the cell's range is not changed. -/
theorem wrap_of_fits {w : Nat} {i : Int} (h : -(2 ^ w : Int) ≤ 2 * i) (h' : 2 * i < 2 ^ w) : wrap w i = i := by
  rw [wrap_eq_bmod, Int.bmod_eq_of_le_mul_two] <;> push_cast <;> omega

end Sys2Proof.Machine
end

