-- ==== Sys2Proof/Laws/Encoding.lean ====
section
/-! SUPPORT. What the decoder's and the encoder's helpers do to each other (30_encoding.md R90, R91, R113; log 4). -/
namespace Sys2Proof

/-- A 16-bit value is its two bytes. -/
@[simp] theorem highByte_append_lowByte (w : BitVec 16) : (highByte w ++ lowByte w : BitVec 16) = w := by
  apply BitVec.eq_of_toNat_eq
  have h := w.isLt
  simp only [highByte, lowByte, BitVec.toNat_append, BitVec.extractLsb'_toNat]
  rw [← Nat.shiftLeft_add_eq_or_of_lt (Nat.mod_lt _ (by decide)), Nat.shiftLeft_eq, Nat.shiftRight_eq_div_pow,
    Nat.shiftRight_eq_div_pow]
  omega

/-- The four bytes of a delay's time (log 21). -/
theorem delay_bytes {t : Nat} (h : t < 2 ^ 32) :
    (BitVec.ofNat 8 (t / 16777216) ++ BitVec.ofNat 8 (t / 65536) ++ BitVec.ofNat 8 (t / 256) ++ BitVec.ofNat 8 t).toNat = t := by
  have hlt : ∀ n, n % 2 ^ 8 < 2 ^ 8 := fun n => Nat.mod_lt _ (by decide)
  simp only [BitVec.toNat_append, BitVec.toNat_ofNat]
  rw [← Nat.shiftLeft_add_eq_or_of_lt (hlt _), ← Nat.shiftLeft_add_eq_or_of_lt (hlt _),
    ← Nat.shiftLeft_add_eq_or_of_lt (hlt _)]
  simp only [Nat.shiftLeft_eq]
  omega

/-- The four bytes of a drain amount (log 4). -/
theorem amount_bytes {d : Int} (h : amountFits d = true) :
    amountOf (amountByte d 0) (amountByte d 1) (amountByte d 2) (amountByte d 3) = d := by
  have hb : (amountByte d 3 ++ amountByte d 2 ++ amountByte d 1 ++ amountByte d 0 : BitVec 32) = BitVec.ofInt 32 d := by
    generalize hw : BitVec.ofInt 32 d = w
    simp only [amountByte, hw]
    apply BitVec.eq_of_getLsbD_eq
    intro i hi
    simp only [BitVec.getLsbD_append, BitVec.getLsbD_extractLsb']
    have h1 : ¬ i < 8 → 8 * 1 + (i - 8) = i := by omega
    have h2 : ¬ i < 8 → ¬ i - 8 < 8 → 8 * 2 + (i - 8 - 8) = i := by omega
    have h3 : ¬ i < 8 → ¬ i - 8 < 8 → ¬ i - 8 - 8 < 8 → 8 * 3 + (i - 8 - 8 - 8) = i ∧ i - 8 - 8 - 8 < 8 := by omega
    repeat' split
    all_goals simp_all
  simp only [amountFits, Bool.and_eq_true, decide_eq_true_eq] at h
  simp only [amountOf, hb, BitVec.toInt_ofInt]
  rw [Int.bmod_eq_of_le] <;> omega

/-- Byte 0 of a packet is its two fields. -/
theorem packet_byte0 (i : BitVec 5) (m : BitVec 3) :
    (i ++ m : BitVec 8).extractLsb' 3 5 = i ∧ (i ++ m : BitVec 8).extractLsb' 0 3 = m := by
  revert i m
  decide

end Sys2Proof
end

