-- ==== Sys2Proof/Laws/Step.lean ====
section
/-! SUPPORT. What one step of the machine can do, said once: some bookkeeping, then at most one move of the block. -/
namespace Sys2Proof.Machine

/-! The programs operations hand to the main line hold no P2 or P3 take step: those come from P1 only. -/

theorem NoPacketWork.append {p q : List Micro} (hp : NoPacketWork p) (hq : NoPacketWork q) : NoPacketWork (p ++ q) := by
  intro m hm
  rcases List.mem_append.mp hm with h | h
  · exact hp m h
  · exact hq m h

theorem writeByteProgram_plain (v : Byte) : NoPacketWork (writeByteProgram v) := by
  simp [NoPacketWork, writeByteProgram]

theorem sendProgram_plain (v : Byte) : NoPacketWork (sendProgram v) := by
  simp [NoPacketWork, sendProgram, writeByteProgram]

theorem cmdProgram_plain (v : Byte) : NoPacketWork (cmdProgram v) := by
  simp [NoPacketWork, cmdProgram, sendProgram, writeByteProgram]

theorem wheelProgram_plain : NoPacketWork wheelProgram := by
  simp [NoPacketWork, wheelProgram, cmdProgram, sendProgram, writeByteProgram]

theorem sessionProgram_plain (w : Bool) (r : Byte) : NoPacketWork (sessionProgram w r) := by
  cases w <;> simp [NoPacketWork, sessionProgram, wheelProgram, cmdProgram, sendProgram, writeByteProgram]

/-- Bookkeeping before a move: the schedule, the context, the agents' lists of what they have still to do, and the
device's drives; never a register of the block. -/
def Prepared (s u : State) : Prop :=
  ∃ sched ctx main dev cons devClk devData,
    u = { s with sched := sched, ctx := ctx, main := main, dev := dev, cons := cons, devClk := devClk,
                 devData := devData } ∧
    ∃ p, NoPacketWork p ∧ main = s.main ++ p

/-- At most one move of the block. -/
inductive Move : State → State → Prop
  /-- Nothing. -/
  | none (u : State) : Move u u
  /-- One Bit Engine invocation (R132). -/
  | phase {u : State} {ph : Phase} (ha : u.irqArmed = true) (hp : phaseAt u.ps u.fc = some ph) : Move u (runPhase ph u)
  /-- One sub-step of the main line (R71). -/
  | micro {u v : State} {m : Micro} {rest : List Micro} (hm : u.main = m :: rest)
      (h : runMicro m { u with main := rest } = .next v) : Move u v
  /-- One access of the consumer (R81). -/
  | access (u : State) (a : Access) : Move u (runAccess a u)
  /-- The invocation of a stop phase whose call is `push(v)` (R136, R160). -/
  | push {u : State} (v : Byte) (ha : u.irqArmed = true) (hp : u.ps = .read) (hf : u.fc = 1) :
      Move u (countDown (stopPushing v u))

theorem Prepared.refl (s : State) : Prepared s s :=
  ⟨s.sched, s.ctx, s.main, s.dev, s.cons, s.devClk, s.devData, rfl, [], by simp [NoPacketWork], by simp⟩

/-- A bookkeeping change that leaves the main line alone. -/
theorem Prepared.mk {s : State} (sched ctx dev cons devClk devData) :
    Prepared s { s with sched := sched, ctx := ctx, dev := dev, cons := cons, devClk := devClk, devData := devData } :=
  ⟨sched, ctx, s.main, dev, cons, devClk, devData, rfl, [], by simp [NoPacketWork], by simp⟩

theorem Prepared.trans {s u v : State} (h1 : Prepared s u) (h2 : Prepared u v) : Prepared s v := by
  obtain ⟨a, b, m, d, e, f, g, rfl, p, hp, rfl⟩ := h1
  obtain ⟨a', b', m', d', e', f', g', rfl, q, hq, rfl⟩ := h2
  exact ⟨a', b', _, d', e', f', g', rfl, p ++ q, hp.append hq, by simp⟩

/-- Bookkeeping and then a move. -/
def Moves (s t : State) : Prop := ∃ u, Prepared s u ∧ Move u t

theorem Prepared.moves {s u t : State} (h : Prepared s u) (hm : Moves u t) : Moves s t := by
  obtain ⟨v, hv, hvt⟩ := hm
  exact ⟨v, h.trans hv, hvt⟩

theorem mainStep_moves {s t : State} (h : mainStep s = .next t) : Moves s t := by
  rcases mainStep_cases h with ⟨-, rfl⟩ | ⟨m, rest, hm, hr⟩
  · exact ⟨_, .refl _, .none _⟩
  · exact ⟨_, .refl _, .micro hm hr⟩

theorem beginMain_moves {p : List Micro} {s t : State} (hp : NoPacketWork p) (h : beginMain p s = .next t) :
    Moves s t := by
  rcases beginMain_cases h with rfl | ⟨hm, h⟩
  · exact ⟨_, ⟨s.sched, s.ctx, _, s.dev, s.cons, s.devClk, s.devData, rfl, p, hp, rfl⟩, .none _⟩
  · refine Prepared.moves ?_ (mainStep_moves h)
    exact ⟨s.sched, s.ctx, _, s.dev, s.cons, s.devClk, s.devData, rfl, p, hp, by simp [hm]⟩

theorem onMainLine_moves {p : List Micro} {s t : State} (hp : NoPacketWork p) (h : onMainLine p s = .next t) :
    Moves s t := beginMain_moves hp (onMainLine_cases h).2

theorem onEntry_moves {p : List Micro} {s t : State} (hp : NoPacketWork p) (h : onEntry p s = .next t) :
    Moves s t := beginMain_moves hp (onEntry_cases h).2

theorem clockEdge_moves {d : Bool} {s t : State} (h : clockEdge d s = .next t) : Moves s t := by
  rcases clockEdge_cases h with rfl | ⟨ha, ph, hp, rfl⟩
  · exact ⟨_, .mk s.sched s.ctx s.dev s.cons _ _, .none _⟩
  · exact ⟨_, .mk s.sched s.ctx s.dev s.cons _ _, .phase ha hp⟩

theorem setDeviceLines_moves {c d : Drive} {s t : State} (h : setDeviceLines c d s = .next t) : Moves s t := by
  rcases setDeviceLines_cases h with rfl | ⟨ha, ph, hp, rfl⟩
  · exact ⟨_, .mk s.sched s.ctx s.dev s.cons _ _, .none _⟩
  · exact ⟨_, .mk s.sched s.ctx s.dev s.cons _ _, .phase ha hp⟩

theorem deviceStep_moves {s t : State} (h : deviceStep s = .next t) : Moves s t := by
  rcases deviceStep_cases h with rfl | ⟨d, rest, -, h⟩
  · exact ⟨_, .refl _, .none _⟩
  · exact (Prepared.mk (s := s) s.sched s.ctx rest s.cons s.devClk s.devData).moves (clockEdge_moves h)

theorem fromDevice_moves {l : List Bool} {s t : State} (h : fromDevice l s = .next t) : Moves s t := by
  rcases beginFrame_cases (fromDevice_cases h).2 with rfl | h
  · exact ⟨_, .mk s.sched s.ctx _ s.cons s.devClk s.devData, .none _⟩
  · exact (Prepared.mk (s := s) s.sched s.ctx l s.cons s.devClk s.devData).moves (deviceStep_moves h)

theorem consumerStep_moves {s t : State} (h : consumerStep s = .next t) : Moves s t := by
  rcases consumerStep_cases h with rfl | ⟨a, rest, -, rfl⟩
  · exact ⟨_, .refl _, .none _⟩
  · exact ⟨_, .mk s.sched s.ctx s.dev rest s.devClk s.devData, .access _ _⟩

theorem byConsumer_moves {p : List Access} {s t : State} (h : byConsumer p s = .next t) : Moves s t := by
  rcases beginConsumer_cases (byConsumer_cases h).2 with rfl | h
  · exact ⟨_, .mk s.sched s.ctx s.dev _ s.devClk s.devData, .none _⟩
  · exact (Prepared.mk (s := s) s.sched s.ctx s.dev p s.devClk s.devData).moves (consumerStep_moves h)

theorem atSelector_moves {p : PortState} {f : BitVec 4} {ph : Phase} {s t : State}
    (hph : phaseAt p f = some ph) (h : atSelector p f ph s = .next t) : Moves s t := by
  obtain ⟨-, rfl | ⟨ha, ph, hp, rfl⟩⟩ := atSelector_cases hph h
  · exact ⟨_, .mk s.sched s.ctx s.dev s.cons _ s.devData, .none _⟩
  · exact ⟨_, .mk s.sched s.ctx s.dev s.cons _ s.devData, .phase ha hp⟩

/-- What a meaning can do. -/
theorem exec_moves {i : Instr} {s t : State} (h : exec i s = .next t) : Moves s t := by
  cases i
  case errNop f => exact atSelector_moves rfl h
  case rdStart => exact atSelector_moves rfl h
  case rdDataB0 => exact atSelector_moves rfl h
  case rdDataB1 => exact atSelector_moves rfl h
  case rdDataB2 => exact atSelector_moves rfl h
  case rdDataB3 => exact atSelector_moves rfl h
  case rdDataB4 => exact atSelector_moves rfl h
  case rdDataB5 => exact atSelector_moves rfl h
  case rdDataB6 => exact atSelector_moves rfl h
  case rdDataB7 => exact atSelector_moves rfl h
  case rdParity => exact atSelector_moves rfl h
  case rdStop => exact atSelector_moves rfl h
  case wrDataB0 => exact atSelector_moves rfl h
  case wrDataB1 => exact atSelector_moves rfl h
  case wrDataB2 => exact atSelector_moves rfl h
  case wrDataB3 => exact atSelector_moves rfl h
  case wrDataB4 => exact atSelector_moves rfl h
  case wrDataB5 => exact atSelector_moves rfl h
  case wrDataB6 => exact atSelector_moves rfl h
  case wrDataB7 => exact atSelector_moves rfl h
  case wrParity => exact atSelector_moves rfl h
  case wrStop => exact atSelector_moves rfl h
  case wrAck => exact atSelector_moves rfl h
  case frameRx v p => exact fromDevice_moves h
  case frameTx v p k =>
    exact (Prepared.mk (s := s) s.sched s.ctx _ s.cons s.devClk s.devData).moves
      (onMainLine_moves (writeByteProgram_plain v) h)
  case cmdReset => exact onMainLine_moves (sendProgram_plain _) h
  case cmdGetId => exact onMainLine_moves (sendProgram_plain _) h
  case cmdSetRate => exact onMainLine_moves (sendProgram_plain _) h
  case cmdSetRes => exact onMainLine_moves (sendProgram_plain _) h
  case cmdEnable => exact onMainLine_moves (sendProgram_plain _) h
  case rspAck => exact fromDevice_moves h
  case rspBatOk => exact fromDevice_moves h
  case rspIdStd => exact fromDevice_moves h
  case rspIdWheel => exact fromDevice_moves h
  case argRate200 => exact onMainLine_moves (sendProgram_plain _) h
  case argRate100 => exact onMainLine_moves (sendProgram_plain _) h
  case argRate80 => exact onMainLine_moves (sendProgram_plain _) h
  case argRes8cpmm => exact onMainLine_moves (sendProgram_plain _) h
  case argRateCfg r => exact onMainLine_moves (sendProgram_plain _) h
  case packet3 i m dx dy =>
    simp only [exec, execPacket3] at h
    split at h
    · cases h
    · exact onMainLine_moves (by simp [NoPacketWork, packetProgram3]) h
  case packet4 i m dx dy dz =>
    simp only [exec, execPacket4] at h
    split at h
    · exact onMainLine_moves (by simp [NoPacketWork, packetProgram4]) h
    · cases h
  case edge d =>
    simp only [exec, execEdge] at h
    split at h
    · exact clockEdge_moves h
    · cases h
  case push v =>
    obtain ⟨-, rfl | ⟨ha, ⟨hp, hf, rfl⟩ | ⟨ph, hp, rfl⟩⟩⟩ := execPush_cases h
    · exact ⟨_, .mk s.sched s.ctx s.dev s.cons _ s.devData, .none _⟩
    · exact ⟨_, .mk s.sched s.ctx s.dev s.cons _ s.devData, .push v ha hp hf⟩
    · exact ⟨_, .mk s.sched s.ctx s.dev s.cons _ s.devData, .phase ha hp⟩
  case pop => exact onMainLine_moves (by simp [NoPacketWork]) h
  case clear => exact onMainLine_moves (by simp [NoPacketWork]) h
  case clkLow => exact onMainLine_moves (by simp [NoPacketWork]) h
  case clkRelease => exact onMainLine_moves (by simp [NoPacketWork]) h
  case dataLow => exact onMainLine_moves (by simp [NoPacketWork]) h
  case dataRelease => exact onMainLine_moves (by simp [NoPacketWork]) h
  case delay t => exact onMainLine_moves (by simp [NoPacketWork]) h
  case irqDisarm => exact onMainLine_moves (by simp [NoPacketWork]) h
  case irqArm => exact onMainLine_moves (by simp [NoPacketWork]) h
  case initializePort => exact onMainLine_moves (by simp [NoPacketWork]) h
  case writeByte v => exact onMainLine_moves (writeByteProgram_plain v) h
  case recvByteBlocking => exact onMainLine_moves (by simp [NoPacketWork]) h
  case sendByteWithAck v => exact onMainLine_moves (sendProgram_plain v) h
  case startSession => exact onEntry_moves (sessionProgram_plain _ _) h
  case processAvailableData => exact onEntry_moves (by simp [NoPacketWork]) h
  case consumerRead => exact byConsumer_moves h
  case consumerDrain dx dy dz => exact byConsumer_moves h

/-- What a turn can do: bookkeeping, one move, and the return to the main line's context. -/
theorem takeTurn_moves {c : Turn} {s t : State} (h : takeTurn c s = .next t) :
    ∃ v, Moves s v ∧ (t = v ∨ t = leaveContext v) := by
  cases c with
  | issue c w =>
    simp only [takeTurn, issue] at h
    split at h
    · rename_i i hi
      obtain ⟨v, hv, rfl⟩ := mapNext_eq_next h
      exact ⟨v, (Prepared.mk (s := s) s.sched c s.dev s.cons s.devClk s.devData).moves (exec_moves hv), .inr rfl⟩
    · cases h
  | main => exact ⟨t, mainStep_moves h, .inl rfl⟩
  | device => exact ⟨t, deviceStep_moves h, .inl rfl⟩
  | consumer => exact ⟨t, consumerStep_moves h, .inl rfl⟩
  | lines c d => exact ⟨t, setDeviceLines_moves h, .inl rfl⟩

theorem defaultTurn_moves {s t : State} (h : defaultTurn s = .next t) : Moves s t := by
  unfold defaultTurn at h
  split at h
  · exact consumerStep_moves h
  · split at h
    · exact deviceStep_moves h
    · exact mainStep_moves h

/-- Everything a step can do. -/
theorem step_moves {s t : State} (h : step s = .next t) : ∃ v, Moves s v ∧ (t = v ∨ t = leaveContext v) := by
  unfold step nextTurn at h
  split at h
  · rename_i c rest hs
    obtain ⟨v, hv, ht⟩ := takeTurn_moves h
    exact ⟨v, (Prepared.mk (s := s) rest s.ctx s.dev s.cons s.devClk s.devData).moves hv, ht⟩
  · exact ⟨t, defaultTurn_moves h, .inl rfl⟩

/-- A property kept by the bookkeeping and by every move is kept by a step. -/
theorem step_keeps {P : State → Prop} (hprep : ∀ s u, Prepared s u → P s → P u) (hmove : ∀ u v, Move u v → P u → P v)
    {s t : State} (h : step s = .next t) (hs : P s) : P t := by
  obtain ⟨v, ⟨u, hu, hv⟩, rfl | rfl⟩ := step_moves h
  · exact hmove _ _ hv (hprep _ _ hu hs)
  · exact hprep v _ (.mk v.sched _ v.dev v.cons v.devClk v.devData) (hmove _ _ hv (hprep _ _ hu hs))

end Sys2Proof.Machine
end

