-- ==== Sys2Proof/Laws/Frames.lean ====
section
/-! SUPPORT. Runs of the machine: one turn of each agent, and one whole frame on the wire (40_bit_engine.md R142, R144). -/
namespace Sys2Proof.Machine

/-! ## One step of a run -/

@[simp] theorem runFor_zero (s : State) : runFor 0 s = .next s := rfl

theorem runFor_succ {k : Nat} {s t : State} (h : step s = .next t) : runFor (k + 1) s = runFor k t := by
  have h' : core.step s = .next t := h
  simp only [runFor, Host.Core.run, h']
  rfl

/-- The next turn is the device's: it is listed, or nothing is listed, the consumer is idle and the main line waits.
The rest of the schedule is the second argument. -/
def DeviceTurn (s : State) (rest : List Turn) : Prop :=
  s.sched = .device :: rest ∨ (s.sched = [] ∧ rest = [] ∧ s.cons = [] ∧ mainWaits s = true)

/-- The next turn is the main line's: it is listed, or nothing is listed, the consumer is idle and the main line has
something to do that does not wait. -/
def MainTurn (s : State) (rest : List Turn) : Prop :=
  s.sched = .main :: rest ∨ (s.sched = [] ∧ rest = [] ∧ s.cons = [] ∧ (mainWaits s = false ∨ s.dev = []))

/-- A device turn under a handled edge runs the selected phase. -/
theorem step_device {s : State} {rest : List Turn} {d : Bool} {ds : List Bool} {ph : Phase} (hs : DeviceTurn s rest)
    (hd : s.dev = d :: ds) (ha : s.irqArmed = true) (hc : s.clkDrive = .released) (hp : phaseAt s.ps s.fc = some ph) :
    step s = .next (runPhase ph { s with sched := rest, dev := ds, devClk := .low, devData := driveOf d }) := by
  rcases hs with hs | ⟨hs, rfl, hk, hw⟩
  · simp [step, nextTurn, hs, takeTurn, deviceStep, hd, clockEdge, atFall, hc, ha, engine, hp]
  · simp [step, nextTurn, hs, defaultTurn, hk, hw, deviceStep, hd, clockEdge, atFall, hc, ha, engine, hp]

/-- A main-line turn runs the next sub-step. -/
theorem step_main {s : State} {rest : List Turn} {m : Micro} {ms : List Micro} (hs : MainTurn s rest)
    (hm : s.main = m :: ms) : step s = runMicro m { s with sched := rest, main := ms } := by
  rcases hs with hs | ⟨hs, rfl, hk, hw | hw⟩
  · simp [step, nextTurn, hs, takeTurn, mainStep, hm]
  · simp [step, nextTurn, hs, defaultTurn, hk, hw, mainStep, hm]
  · simp [step, nextTurn, hs, defaultTurn, hk, hw, mainStep, hm]

theorem step_main_next {s t : State} {rest : List Turn} {m : Micro} {ms : List Micro} (hs : MainTurn s rest)
    (hm : s.main = m :: ms) (h : runMicro m { s with sched := rest, main := ms } = .next t) : step s = .next t :=
  (step_main hs hm).trans h

/-! ## The data line -/

@[simp] theorem levelOf_driveOf (d : Bool) : levelOf (driveOf d) = d := by cases d <;> rfl

theorem sample_of_released {s : State} (h : s.dataDrive = .released) : sample s = levelOf s.devData := by
  simp [sample, dataLine, h, levelOf]

/-! ## One bit of a read frame -/

theorem read_start {s : State} {rest : List Turn} {ds : List Bool} {d : Bool} (hs : DeviceTurn s rest)
    (hd : s.dev = d :: ds) (ha : s.irqArmed = true) (hc : s.clkDrive = .released) (hdd : s.dataDrive = .released)
    (hp : s.ps = .read) (hf : s.fc = 11) :
    step s = .next { s with sched := rest, dev := ds, devClk := .low, devData := driveOf d,
                            ps := if d then .error else .read, fc := 10 } := by
  rw [step_device hs hd ha hc (ph := .rdStart) (by rw [hp, hf]; rfl)]
  simp only [runPhase, countDown, readStart]
  simp only [sample_of_released, hdd, levelOf_driveOf]
  cases d <;> simp [raisePortError, hf, hp]

/-- The sample goes in at the top (R96). -/
abbrev shiftIn (w : Byte) (d : Bool) : Byte := (w >>> 1) ||| ((BitVec.ofBool d).setWidth 8 <<< 7)

theorem read_data {s : State} {rest : List Turn} {ds : List Bool} {d : Bool} (hs : DeviceTurn s rest)
    (hd : s.dev = d :: ds) (ha : s.irqArmed = true) (hc : s.clkDrive = .released) (hdd : s.dataDrive = .released)
    (hp : s.ps = .read) (hf : readPhase s.fc.toNat = some .rdData) :
    step s = .next { s with sched := rest, dev := ds, devClk := .low, devData := driveOf d, fc := s.fc - 1,
                            sr := shiftIn s.sr d } := by
  rw [step_device hs hd ha hc (ph := .rdData) (by rw [hp]; exact hf)]
  simp only [runPhase, countDown, readData]
  simp only [sample_of_released, hdd, levelOf_driveOf]

theorem read_parity {s : State} {rest : List Turn} {ds : List Bool} {d : Bool} (hs : DeviceTurn s rest)
    (hd : s.dev = d :: ds) (ha : s.irqArmed = true) (hc : s.clkDrive = .released) (hdd : s.dataDrive = .released)
    (hp : s.ps = .read) (hf : s.fc = 2) :
    step s = .next { s with sched := rest, dev := ds, devClk := .low, devData := driveOf d,
                            ps := if parity s.sr = d then .read else .error, fc := 1 } := by
  rw [step_device hs hd ha hc (ph := .rdParity) (by rw [hp, hf]; rfl)]
  simp only [runPhase, countDown, readParity]
  simp only [sample_of_released, hdd, levelOf_driveOf]
  by_cases h : parity s.sr = d <;> simp [h, raisePortError, hf, hp]

theorem read_stop {s : State} {rest : List Turn} {ds : List Bool} (hs : DeviceTurn s rest)
    (hd : s.dev = true :: ds) (ha : s.irqArmed = true) (hc : s.clkDrive = .released) (hdd : s.dataDrive = .released)
    (hp : s.ps = .read) (hf : s.fc = 1) (hn : s.count < 256) :
    step s = .next { s with sched := rest, dev := ds, devClk := .low, devData := .released, fc := 11,
                            ring := Memory.write s.ring s.wr.toNat s.sr, wr := s.wr + 1, count := s.count + 1 } := by
  rw [step_device hs hd ha hc (ph := .rdStop) (by rw [hp, hf]; rfl)]
  simp only [runPhase, countDown, readStop, stopPushing]
  simp only [sample_of_released, hdd, levelOf_driveOf, if_true]
  simp [ringPush_notFull, Nat.ne_of_lt hn, hp, driveOf]

/-- Eight samples are the byte, whatever the Shift Register held (R96). -/
theorem shiftIn_eight (w v : Byte) :
    shiftIn (shiftIn (shiftIn (shiftIn (shiftIn (shiftIn (shiftIn (shiftIn w (v.getLsbD 0)) (v.getLsbD 1))
      (v.getLsbD 2)) (v.getLsbD 3)) (v.getLsbD 4)) (v.getLsbD 5)) (v.getLsbD 6)) (v.getLsbD 7) = v := by
  apply BitVec.eq_of_getLsbD_eq
  intro i hi
  have : i = 0 ∨ i = 1 ∨ i = 2 ∨ i = 3 ∨ i = 4 ∨ i = 5 ∨ i = 6 ∨ i = 7 := by omega
  rcases this with rfl | rfl | rfl | rfl | rfl | rfl | rfl | rfl <;> simp

/-! ## One bit of a write frame -/

theorem write_data {s : State} {rest : List Turn} {ds : List Bool} {d : Bool} (hs : DeviceTurn s rest)
    (hd : s.dev = d :: ds) (ha : s.irqArmed = true) (hc : s.clkDrive = .released) (hp : s.ps = .write)
    (hf : writePhase s.fc.toNat = some .wrData) :
    step s = .next { s with sched := rest, dev := ds, devClk := .low, devData := driveOf d, fc := s.fc - 1,
                            dataDrive := driveOf (s.sr.getLsbD 0), sr := s.sr >>> 1 } := by
  rw [step_device hs hd ha hc (ph := .wrData) (by rw [hp]; exact hf)]
  rfl

theorem write_parity {s : State} {rest : List Turn} {ds : List Bool} {d : Bool} (hs : DeviceTurn s rest)
    (hd : s.dev = d :: ds) (ha : s.irqArmed = true) (hc : s.clkDrive = .released) (hp : s.ps = .write)
    (hf : s.fc = 3) :
    step s = .next { s with sched := rest, dev := ds, devClk := .low, devData := driveOf d, fc := 2,
                            dataDrive := driveOf s.par } := by
  rw [step_device hs hd ha hc (ph := .wrParity) (by rw [hp, hf]; rfl)]
  simp [runPhase, countDown, writeParity, hf]

theorem write_stop {s : State} {rest : List Turn} {ds : List Bool} {d : Bool} (hs : DeviceTurn s rest)
    (hd : s.dev = d :: ds) (ha : s.irqArmed = true) (hc : s.clkDrive = .released) (hp : s.ps = .write)
    (hf : s.fc = 2) :
    step s = .next { s with sched := rest, dev := ds, devClk := .low, devData := driveOf d, fc := 1,
                            dataDrive := .released } := by
  rw [step_device hs hd ha hc (ph := .wrStop) (by rw [hp, hf]; rfl)]
  simp [runPhase, countDown, writeStop, hf]

theorem write_ack {s : State} {rest : List Turn} {ds : List Bool} {d : Bool} (hs : DeviceTurn s rest)
    (hd : s.dev = d :: ds) (ha : s.irqArmed = true) (hc : s.clkDrive = .released) (hdd : s.dataDrive = .released)
    (hp : s.ps = .write) (hf : s.fc = 1) :
    step s = .next { s with sched := rest, dev := ds, devClk := .low, devData := driveOf d,
                            ps := if d then .error else .read, fc := if d then 0 else 11 } := by
  rw [step_device hs hd ha hc (ph := .wrAck) (by rw [hp, hf]; rfl)]
  simp only [runPhase, countDown, writeAck]
  simp only [sample_of_released, hdd, levelOf_driveOf]
  cases d <;> simp [raisePortError, hf]

/-- After eight shifts the Shift Register is empty. -/
theorem shiftOut_eight (v : Byte) : v >>> 1 >>> 1 >>> 1 >>> 1 >>> 1 >>> 1 >>> 1 >>> 1 = (0 : Byte) := by
  apply BitVec.eq_of_getLsbD_eq
  intro i hi
  have : i = 0 ∨ i = 1 ∨ i = 2 ∨ i = 3 ∨ i = 4 ∨ i = 5 ∨ i = 6 ∨ i = 7 := by omega
  rcases this with rfl | rfl | rfl | rfl | rfl | rfl | rfl | rfl <;> simp

/-! ## Whole frames -/

/-- The next turns are the device's for a whole frame: listed, or the default order while the main line waits. -/
def FrameTurns (s : State) (rest : List Turn) : Prop :=
  s.sched = List.replicate 11 .device ++ rest ∨ (s.sched = [] ∧ rest = [] ∧ s.cons = [] ∧ mainWaits s = true)

/-- A correct read frame, from the first edge, with room in the ring. -/
theorem read_frame {s : State} {rest : List Turn} {ds : List Bool} {v : Byte} {k : Nat} (hs : FrameTurns s rest)
    (hd : s.dev = rxFrame v ++ ds) (ha : s.irqArmed = true) (hc : s.clkDrive = .released)
    (hdd : s.dataDrive = .released) (hp : s.ps = .read) (hf : s.fc = 11) (hn : s.count < 256) :
    runFor (k + 11) s = runFor k
      { s with sched := rest, dev := ds, devClk := .low, devData := .released, sr := v,
               ring := Memory.write s.ring s.wr.toNat v, wr := s.wr + 1, count := s.count + 1 } := by
  simp only [rxFrame, frameLevels, List.cons_append, List.nil_append] at hd
  rcases hs with hs | ⟨hs, rfl, hk, hw⟩
  · simp only [List.replicate, List.cons_append, List.nil_append] at hs
    refine (runFor_succ (k := k + 10) (read_start (.inl hs) hd ha hc hdd hp hf)).trans ?_
    iterate 8
      refine (runFor_succ (read_data (.inl (by rfl)) (by rfl) (by exact ha) (by exact hc) (by exact hdd) (by rfl)
        (by simp [readPhase]))).trans ?_
      dsimp only
    refine (runFor_succ (read_parity (.inl (by rfl)) (by rfl) (by exact ha) (by exact hc) (by exact hdd) (by rfl)
      (by simp))).trans ?_
    simp only [shiftIn_eight]
    refine (runFor_succ (read_stop (.inl (by rfl)) (by rfl) (by exact ha) (by exact hc) (by exact hdd) (by simp)
      (by rfl) (by exact hn))).trans ?_
    simp [hf, hp]
  · refine (runFor_succ (k := k + 10) (read_start (.inr ⟨hs, rfl, hk, hw⟩) hd ha hc hdd hp hf)).trans ?_
    iterate 8
      refine (runFor_succ (read_data (.inr ⟨by rfl, by rfl, by exact hk, by exact hw⟩) (by rfl) (by exact ha)
        (by exact hc) (by exact hdd) (by rfl) (by simp [readPhase]))).trans ?_
      dsimp only
    refine (runFor_succ (read_parity (.inr ⟨by rfl, by rfl, by exact hk, by exact hw⟩) (by rfl) (by exact ha)
      (by exact hc) (by exact hdd) (by rfl) (by simp))).trans ?_
    simp only [shiftIn_eight]
    refine (runFor_succ (read_stop (.inr ⟨by rfl, by rfl, by exact hk, by exact hw⟩) (by rfl) (by exact ha)
      (by exact hc) (by exact hdd) (by simp) (by rfl) (by exact hn))).trans ?_
    simp [hf, hp]

/-- A write frame, from the state `write_byte` leaves: the device leaves the line alone for ten edges and drives `k`
at the eleventh. -/
theorem write_frame {s : State} {rest : List Turn} {ds : List Bool} {j : Bool} {k : Nat} (hs : FrameTurns s rest)
    (hd : s.dev = txClockLevels j ++ ds) (ha : s.irqArmed = true) (hc : s.clkDrive = .released) (hp : s.ps = .write)
    (hf : s.fc = 11) :
    runFor (k + 11) s = runFor k
      { s with sched := rest, dev := ds, devClk := .low, devData := driveOf j, dataDrive := .released, sr := 0,
               ps := if j then .error else .read, fc := if j then 0 else 11 } := by
  simp only [txClockLevels, List.replicate, List.cons_append, List.nil_append] at hd
  have hf' : writePhase s.fc.toNat = some .wrData := by rw [hf]; rfl
  rcases hs with hs | ⟨hs, rfl, hk, hw⟩
  · simp only [List.replicate, List.cons_append, List.nil_append] at hs
    refine (runFor_succ (k := k + 10) (write_data (.inl hs) hd ha hc hp hf')).trans ?_
    iterate 7
      refine (runFor_succ (write_data (.inl (by rfl)) (by rfl) (by exact ha) (by exact hc) (by exact hp)
        (by simp [writePhase, hf]))).trans ?_
      dsimp only
    refine (runFor_succ (write_parity (.inl (by rfl)) (by rfl) (by exact ha) (by exact hc) (by exact hp)
      (by simp [hf]))).trans ?_
    refine (runFor_succ (write_stop (.inl (by rfl)) (by rfl) (by exact ha) (by exact hc) (by exact hp)
      (by rfl))).trans ?_
    refine (runFor_succ (write_ack (.inl (by rfl)) (by rfl) (by exact ha) (by exact hc) (by rfl) (by exact hp)
      (by rfl))).trans ?_
    simp only [shiftOut_eight]
  · refine (runFor_succ (k := k + 10) (write_data (.inr ⟨hs, rfl, hk, hw⟩) hd ha hc hp hf')).trans ?_
    iterate 7
      refine (runFor_succ (write_data (.inr ⟨by rfl, by rfl, by exact hk, by exact hw⟩) (by rfl) (by exact ha)
        (by exact hc) (by exact hp) (by simp [writePhase, hf]))).trans ?_
      dsimp only
    refine (runFor_succ (write_parity (.inr ⟨by rfl, by rfl, by exact hk, by exact hw⟩) (by rfl) (by exact ha)
      (by exact hc) (by exact hp) (by simp [hf]))).trans ?_
    refine (runFor_succ (write_stop (.inr ⟨by rfl, by rfl, by exact hk, by exact hw⟩) (by rfl) (by exact ha)
      (by exact hc) (by exact hp) (by rfl))).trans ?_
    refine (runFor_succ (write_ack (.inr ⟨by rfl, by rfl, by exact hk, by exact hw⟩) (by rfl) (by exact ha)
      (by exact hc) (by rfl) (by exact hp) (by rfl))).trans ?_
    simp only [shiftOut_eight]

/-! ## The request-to-send -/

/-- The next `n` turns are the main line's: listed, or the default order while it does not wait. -/
def MainTurns (n : Nat) (s : State) (rest : List Turn) : Prop :=
  s.sched = List.replicate n .main ++ rest ∨ (s.sched = [] ∧ rest = [] ∧ s.cons = [])

/-- What is left of `write_byte(v)` after W1. -/
def afterDisarm (v : Byte) : List Micro := [.clkLow, .hold, .dataLow, .clkRelease, .setup v, .irqArm]

/-- W2 to W7, with the interrupt disarmed (R190). -/
theorem request_to_send {s : State} {rest : List Turn} {ms : List Micro} {v : Byte} {k : Nat}
    (hs : MainTurns 6 s rest) (hm : s.main = afterDisarm v ++ ms) (ha : s.irqArmed = false) :
    runFor (k + 6) s = runFor k
      { s with sched := rest, main := ms, clkDrive := .released, dataDrive := .low, wr := 0, rd := 0, count := 0,
               ps := .write, fc := 11, sr := v, par := parity v, irqArmed := true } := by
  simp only [afterDisarm, List.cons_append, List.nil_append] at hm
  have hlow : ∀ u : State, u.irqArmed = false → pullClockLow u = .next { u with clkDrive := .low } := by
    intro u hu
    simp only [pullClockLow, fallingEdge, hu, Bool.false_eq_true, if_false, ite_self]
  rcases hs with hs | ⟨hs, rfl, hk⟩
  · simp only [List.replicate, List.cons_append, List.nil_append] at hs
    refine (runFor_succ (k := k + 5) (step_main_next (.inl hs) hm (hlow _ ha))).trans ?_
    refine (runFor_succ (k := k + 4) (step_main_next (.inl (by rfl)) (by rfl) (by rfl))).trans ?_
    refine (runFor_succ (k := k + 3) (step_main_next (.inl (by rfl)) (by rfl) (by rfl))).trans ?_
    refine (runFor_succ (k := k + 2) (step_main_next (.inl (by rfl)) (by rfl) (by rfl))).trans ?_
    refine (runFor_succ (k := k + 1) (step_main_next (.inl (by rfl)) (by rfl) (by rfl))).trans ?_
    exact runFor_succ (step_main_next (.inl (by rfl)) (by rfl) (by rfl))
  · refine (runFor_succ (k := k + 5) (step_main_next (.inr ⟨hs, rfl, hk, .inl (by simp [mainWaits, hm])⟩) hm
      (hlow _ ha))).trans ?_
    refine (runFor_succ (k := k + 4) (step_main_next (.inr ⟨by rfl, by rfl, by exact hk, .inl (by rfl)⟩) (by rfl)
      (by rfl))).trans ?_
    refine (runFor_succ (k := k + 3) (step_main_next (.inr ⟨by rfl, by rfl, by exact hk, .inl (by rfl)⟩) (by rfl)
      (by rfl))).trans ?_
    refine (runFor_succ (k := k + 2) (step_main_next (.inr ⟨by rfl, by rfl, by exact hk, .inl (by rfl)⟩) (by rfl)
      (by rfl))).trans ?_
    refine (runFor_succ (k := k + 1) (step_main_next (.inr ⟨by rfl, by rfl, by exact hk, .inl (by rfl)⟩) (by rfl)
      (by rfl))).trans ?_
    exact runFor_succ (step_main_next (.inr ⟨by rfl, by rfl, by exact hk, .inl (by rfl)⟩) (by rfl)
      (by rfl))

/-! ## Sending one byte and taking the reply -/

/-- The turns of one exchange after W1: listed, or the default order. -/
def ExchangeTurns (s : State) (rest : List Turn) : Prop :=
  s.sched = mainThenDevice 6 22 ++ [.main, .main] ++ rest ∨ (s.sched = [] ∧ rest = [] ∧ s.cons = [])

/-- W2 to W7, the write frame with its acknowledgment, the reply frame, A2 and A3 (R198). -/
theorem send_exchange {s : State} {rest : List Turn} {ms : List Micro} {ds : List Bool} {v r : Byte} {k : Nat}
    (hs : ExchangeTurns s rest) (hm : s.main = afterDisarm v ++ (.recv :: .ackCheck :: ms))
    (hd : s.dev = ackThenReply r ++ ds) (ha : s.irqArmed = false) (hw : Memory.wf s.ring = true) :
    runFor (k + 30) s = runFor k
      { s with sched := rest, main := ms, dev := ds, clkDrive := .released, dataDrive := .released,
               ring := Memory.write s.ring 0 r, wr := 1, rd := 1, count := 0, fc := 11, sr := r, par := parity v,
               ps := if r = 0xFA then .read else .error, irqArmed := true, devClk := .low, devData := .released,
               reply := r, ret := .byte r } := by
  have hback : Memory.read (Memory.write s.ring 0 r) 0 = r := Memory.read_write_same hw _ _
  simp only [ackThenReply, List.append_assoc] at hd
  have hack : ∀ u : State, ackCheckStep u = { u with ps := if u.reply = 0xFA then u.ps else .error } := by
    intro u
    simp only [ackCheckStep, Config.rspAck]
    split <;> rfl
  rcases hs with hs | ⟨hs, rfl, hk⟩
  · have h6 : s.sched = List.replicate 6 .main ++ (List.replicate 11 .device ++ (List.replicate 11 .device ++
        (.main :: .main :: rest))) := by rw [hs]; rfl
    refine (request_to_send (k := k + 24) (.inl h6) hm ha).trans ?_
    refine (write_frame (k := k + 13) (j := false) (.inl (by rfl)) (by exact hd) (by rfl) (by rfl) (by rfl)
      (by rfl)).trans ?_
    refine (read_frame (k := k + 2) (v := r) (.inl (by rfl)) (by rfl) (by rfl) (by rfl) (by rfl) (by rfl) (by rfl)
      (by simp)).trans ?_
    refine (runFor_succ (k := k + 1) (step_main_next (.inl (by rfl)) (by rfl) (by rfl))).trans ?_
    refine (runFor_succ (k := k) (step_main_next (.inl (by rfl)) (by rfl) (by rfl))).trans ?_
    simp [recvStep, ringPop, ringEmpty, hack, hback]
  · refine (request_to_send (k := k + 24) (.inr ⟨hs, rfl, hk⟩) hm ha).trans ?_
    refine (write_frame (k := k + 13) (j := false) (.inr ⟨by rfl, by rfl, by exact hk, by rfl⟩) (by exact hd) (by rfl)
      (by rfl) (by rfl) (by rfl)).trans ?_
    refine (read_frame (k := k + 2) (v := r) (.inr ⟨by rfl, by rfl, by exact hk, by rfl⟩) (by rfl) (by rfl) (by rfl)
      (by rfl) (by rfl) (by rfl) (by simp)).trans ?_
    refine (runFor_succ (k := k + 1)
      (step_main_next (.inr ⟨by rfl, by rfl, by exact hk, .inl (by rfl)⟩) (by rfl) (by rfl))).trans ?_
    refine (runFor_succ (k := k)
      (step_main_next (.inr ⟨by rfl, by rfl, by exact hk, .inl (by rfl)⟩) (by rfl) (by rfl))).trans ?_
    simp [recvStep, ringPop, ringEmpty, hack, hback]

end Sys2Proof.Machine
end

