-- ==== Sys2Proof/Laws/PerInstr.lean ====
section
/-! SUPPORT. Facts about every instruction as syntax, one lemma for each constructor. -/
namespace Sys2Proof.Laws

/-- The encoder writes a tagged event word, never a bare table byte: a format tag, then one to twelve bytes (log 4). -/
def Tagged.Statement (i : Instr) : Prop := ∃ tag b rest, encode i = tag :: b :: rest ∧ rest.length ≤ 11

theorem Tagged.errNop (f : BitVec 4) : Tagged.Statement (.errNop f) :=
  ⟨_, _, _, rfl, by simp⟩

theorem Tagged.rdStart : Tagged.Statement .rdStart := ⟨_, _, _, rfl, by simp⟩

theorem Tagged.rdDataB0 : Tagged.Statement .rdDataB0 := ⟨_, _, _, rfl, by simp⟩

theorem Tagged.rdDataB1 : Tagged.Statement .rdDataB1 := ⟨_, _, _, rfl, by simp⟩

theorem Tagged.rdDataB2 : Tagged.Statement .rdDataB2 := ⟨_, _, _, rfl, by simp⟩

theorem Tagged.rdDataB3 : Tagged.Statement .rdDataB3 := ⟨_, _, _, rfl, by simp⟩

theorem Tagged.rdDataB4 : Tagged.Statement .rdDataB4 := ⟨_, _, _, rfl, by simp⟩

theorem Tagged.rdDataB5 : Tagged.Statement .rdDataB5 := ⟨_, _, _, rfl, by simp⟩

theorem Tagged.rdDataB6 : Tagged.Statement .rdDataB6 := ⟨_, _, _, rfl, by simp⟩

theorem Tagged.rdDataB7 : Tagged.Statement .rdDataB7 := ⟨_, _, _, rfl, by simp⟩

theorem Tagged.rdParity : Tagged.Statement .rdParity := ⟨_, _, _, rfl, by simp⟩

theorem Tagged.rdStop : Tagged.Statement .rdStop := ⟨_, _, _, rfl, by simp⟩

theorem Tagged.wrDataB0 : Tagged.Statement .wrDataB0 := ⟨_, _, _, rfl, by simp⟩

theorem Tagged.wrDataB1 : Tagged.Statement .wrDataB1 := ⟨_, _, _, rfl, by simp⟩

theorem Tagged.wrDataB2 : Tagged.Statement .wrDataB2 := ⟨_, _, _, rfl, by simp⟩

theorem Tagged.wrDataB3 : Tagged.Statement .wrDataB3 := ⟨_, _, _, rfl, by simp⟩

theorem Tagged.wrDataB4 : Tagged.Statement .wrDataB4 := ⟨_, _, _, rfl, by simp⟩

theorem Tagged.wrDataB5 : Tagged.Statement .wrDataB5 := ⟨_, _, _, rfl, by simp⟩

theorem Tagged.wrDataB6 : Tagged.Statement .wrDataB6 := ⟨_, _, _, rfl, by simp⟩

theorem Tagged.wrDataB7 : Tagged.Statement .wrDataB7 := ⟨_, _, _, rfl, by simp⟩

theorem Tagged.wrParity : Tagged.Statement .wrParity := ⟨_, _, _, rfl, by simp⟩

theorem Tagged.wrStop : Tagged.Statement .wrStop := ⟨_, _, _, rfl, by simp⟩

theorem Tagged.wrAck : Tagged.Statement .wrAck := ⟨_, _, _, rfl, by simp⟩

theorem Tagged.frameRx (v : Byte) (p : Bool) : Tagged.Statement (.frameRx v p) :=
  ⟨_, _, _, rfl, by simp⟩

theorem Tagged.frameTx (v : Byte) (p k : Bool) : Tagged.Statement (.frameTx v p k) :=
  ⟨_, _, _, rfl, by simp⟩

theorem Tagged.cmdReset : Tagged.Statement .cmdReset := ⟨_, _, _, rfl, by simp⟩

theorem Tagged.cmdGetId : Tagged.Statement .cmdGetId := ⟨_, _, _, rfl, by simp⟩

theorem Tagged.cmdSetRate : Tagged.Statement .cmdSetRate := ⟨_, _, _, rfl, by simp⟩

theorem Tagged.cmdSetRes : Tagged.Statement .cmdSetRes := ⟨_, _, _, rfl, by simp⟩

theorem Tagged.cmdEnable : Tagged.Statement .cmdEnable := ⟨_, _, _, rfl, by simp⟩

theorem Tagged.rspAck : Tagged.Statement .rspAck := ⟨_, _, _, rfl, by simp⟩

theorem Tagged.rspBatOk : Tagged.Statement .rspBatOk := ⟨_, _, _, rfl, by simp⟩

theorem Tagged.rspIdStd : Tagged.Statement .rspIdStd := ⟨_, _, _, rfl, by simp⟩

theorem Tagged.rspIdWheel : Tagged.Statement .rspIdWheel := ⟨_, _, _, rfl, by simp⟩

theorem Tagged.argRate200 : Tagged.Statement .argRate200 := ⟨_, _, _, rfl, by simp⟩

theorem Tagged.argRate100 : Tagged.Statement .argRate100 := ⟨_, _, _, rfl, by simp⟩

theorem Tagged.argRate80 : Tagged.Statement .argRate80 := ⟨_, _, _, rfl, by simp⟩

theorem Tagged.argRes8cpmm : Tagged.Statement .argRes8cpmm := ⟨_, _, _, rfl, by simp⟩

theorem Tagged.argRateCfg (r : Byte) : Tagged.Statement (.argRateCfg r) :=
  ⟨_, _, _, rfl, by simp⟩

theorem Tagged.packet3 (i : BitVec 5) (m : BitVec 3) (dx dy : Byte) : Tagged.Statement (.packet3 i m dx dy) :=
  ⟨_, _, _, rfl, by simp⟩

theorem Tagged.packet4 (i : BitVec 5) (m : BitVec 3) (dx dy dz : Byte) : Tagged.Statement (.packet4 i m dx dy dz) :=
  ⟨_, _, _, rfl, by simp⟩

theorem Tagged.edge (d : Bool) : Tagged.Statement (.edge d) :=
  ⟨_, _, _, rfl, by simp⟩

theorem Tagged.push (v : Byte) : Tagged.Statement (.push v) :=
  ⟨_, _, _, rfl, by simp⟩

theorem Tagged.pop : Tagged.Statement .pop := ⟨_, _, _, rfl, by simp⟩

theorem Tagged.clear : Tagged.Statement .clear := ⟨_, _, _, rfl, by simp⟩

theorem Tagged.clkLow : Tagged.Statement .clkLow := ⟨_, _, _, rfl, by simp⟩

theorem Tagged.clkRelease : Tagged.Statement .clkRelease := ⟨_, _, _, rfl, by simp⟩

theorem Tagged.dataLow : Tagged.Statement .dataLow := ⟨_, _, _, rfl, by simp⟩

theorem Tagged.dataRelease : Tagged.Statement .dataRelease := ⟨_, _, _, rfl, by simp⟩

theorem Tagged.delay (t : Nat) : Tagged.Statement (.delay t) :=
  ⟨_, _, _, rfl, by simp⟩

theorem Tagged.irqDisarm : Tagged.Statement .irqDisarm := ⟨_, _, _, rfl, by simp⟩

theorem Tagged.irqArm : Tagged.Statement .irqArm := ⟨_, _, _, rfl, by simp⟩

theorem Tagged.initializePort : Tagged.Statement .initializePort := ⟨_, _, _, rfl, by simp⟩

theorem Tagged.writeByte (v : Byte) : Tagged.Statement (.writeByte v) :=
  ⟨_, _, _, rfl, by simp⟩

theorem Tagged.recvByteBlocking : Tagged.Statement .recvByteBlocking := ⟨_, _, _, rfl, by simp⟩

theorem Tagged.sendByteWithAck (v : Byte) : Tagged.Statement (.sendByteWithAck v) :=
  ⟨_, _, _, rfl, by simp⟩

theorem Tagged.startSession : Tagged.Statement .startSession := ⟨_, _, _, rfl, by simp⟩

theorem Tagged.processAvailableData : Tagged.Statement .processAvailableData := ⟨_, _, _, rfl, by simp⟩

theorem Tagged.consumerRead : Tagged.Statement .consumerRead := ⟨_, _, _, rfl, by simp⟩

theorem Tagged.consumerDrain (dx dy dz : Acc) : Tagged.Statement (.consumerDrain dx dy dz) :=
  ⟨_, _, _, rfl, by simp⟩

end Sys2Proof.Laws
end

