-- ==== Sys2Proof/Laws/Writers.lean ====
section
/-! SUPPORT. Which sub-steps and accesses write the accumulators, `wheel` and the configuration inputs, said once of a
whole step: provers cite `step_writes` instead of splitting the step again. -/
namespace Sys2Proof.Machine

/-- A phase row of the table is an edge that names its own branch. -/
theorem phaseRow_atSelector {g : BitVec 4} {i : Instr} (hi : i ∈ phaseRows g) :
    ∃ p f ph, phaseAt p f = some ph ∧ ∀ s, exec i s = atSelector p f ph s := by
  simp only [phaseRows, phaseTable, List.map, List.mem_cons, List.not_mem_nil, or_false] at hi
  rcases hi with rfl | rfl | rfl | rfl | rfl | rfl | rfl | rfl | rfl | rfl | rfl | rfl | rfl | rfl | rfl | rfl | rfl |
    rfl | rfl | rfl | rfl | rfl | rfl <;> exact ⟨_, _, _, rfl, fun _ => rfl⟩

/-- The accumulators, `wheel` and the configuration inputs are as before. -/
def Kept (s t : State) : Prop :=
  t.x = s.x ∧ t.y = s.y ∧ t.z = s.z ∧ t.wheel = s.wheel ∧ t.wheelEnabled = s.wheelEnabled ∧
    t.sampleRate = s.sampleRate ∧ t.accBits = s.accBits

theorem Kept.refl (s) : Kept s s := ⟨rfl, rfl, rfl, rfl, rfl, rfl, rfl⟩

theorem runPhase_kept (ph u) : Kept u (runPhase ph u) := by
  obtain ⟨a, b, c, d, e, f, g, h⟩ := runPhase_frame ph u
  rw [h]; exact .refl _

theorem stopPushing_kept (v u) : Kept u (countDown (stopPushing v u)) := by
  obtain ⟨a, b, c, d, e, h⟩ := stopPushing_frame v u
  rw [h]; exact .refl _

theorem clockEdge_kept {d s t} (h : clockEdge d s = .next t) : Kept s t := by
  rcases clockEdge_cases h with rfl | ⟨-, ph, -, rfl⟩
  · exact .refl _
  · exact runPhase_kept ph { s with devClk := .low, devData := driveOf d }

theorem deviceStep_kept {s t} (h : deviceStep s = .next t) : Kept s t := by
  rcases deviceStep_cases h with rfl | ⟨d, r, -, h⟩
  · exact .refl _
  · exact clockEdge_kept (s := { s with dev := r }) h

theorem fromDevice_kept {l s t} (h : fromDevice l s = .next t) : Kept s t := by
  rcases beginFrame_cases (fromDevice_cases h).2 with rfl | h
  · exact .refl _
  · exact deviceStep_kept (s := { s with dev := l }) h

theorem setDeviceLines_kept {c d s t} (h : setDeviceLines c d s = .next t) : Kept s t := by
  rcases setDeviceLines_cases h with rfl | ⟨-, ph, -, rfl⟩
  · exact .refl _
  · exact runPhase_kept ph { s with devClk := c, devData := d }

theorem atSelector_kept {p f ph s t} (hph : phaseAt p f = some ph) (h : atSelector p f ph s = .next t) : Kept s t := by
  rcases (atSelector_cases hph h).2 with rfl | ⟨-, ph, -, rfl⟩
  · exact .refl _
  · exact runPhase_kept ph { s with devClk := .low }

/-- The main-line sub-steps that write one of them. -/
def Writer (m : Micro) : Prop := (∃ v, m = .addX v ∨ m = .subY v ∨ m = .addZ v) ∨ m = .wheelRecord ∨ m = .sessionInit

theorem runMicro_kept {m s t} (hm : ¬ Writer m) (h : runMicro m s = .next t) : Kept s t := by
  cases m <;> simp [Writer] at hm <;> simp only [runMicro] at h
  case clkLow =>
    rcases pullClockLow_cases h with rfl | ⟨-, ph, -, rfl⟩
    · exact .refl _
    · exact runPhase_kept ph { s with clkDrive := .low }
  case takeByte =>
    unfold takeByteStep at h; split at h
    · cases h
    · rename_i hp; obtain ⟨-, -, rfl⟩ := ringPop_eq_some hp; cases h; exact .refl _
  case decodePacket =>
    unfold decodePacketStep at h; split at h <;> cases h <;> exact .refl _
  case pop =>
    cases h; unfold popStep; split
    · exact .refl _
    · rename_i hp; obtain ⟨-, -, rfl⟩ := ringPop_eq_some hp; exact .refl _
  case recv =>
    cases h; unfold recvStep; split
    · exact .refl _
    · rename_i hp; obtain ⟨-, -, rfl⟩ := ringPop_eq_some hp; exact .refl _
  all_goals cases h
  case ackCheck => unfold ackCheckStep; split <;> exact .refl _
  case cmdTest => unfold cmdTestStep; split <;> exact .refl _
  case batCheck => unfold batCheckStep; split <;> exact .refl _
  case idCheck => unfold idCheckStep; split <;> exact .refl _
  case packetTest => unfold packetTestStep; split <;> exact .refl _
  case recovery => unfold recoveryStep; split <;> exact .refl _
  all_goals exact .refl _

theorem beginMain_kept {m p s t} (hm : ¬ Writer m) (h : beginMain (m :: p) s = .next t) : Kept s t := by
  rcases beginMain_cases h with rfl | ⟨_, h⟩
  · exact .refl _
  · exact runMicro_kept (s := { s with main := p }) hm h

theorem onMainLine_kept {m p s t} (hm : ¬ Writer m) (h : onMainLine (m :: p) s = .next t) : Kept s t :=
  beginMain_kept hm (onMainLine_cases h).2

theorem onEntry_kept {m p s t} (hm : ¬ Writer m) (h : onEntry (m :: p) s = .next t) : Kept s t :=
  beginMain_kept hm (onEntry_cases h).2

theorem byConsumer_kept {p s t} (h : byConsumer (.readX :: p) s = .next t) : Kept s t := by
  rcases beginConsumer_cases (byConsumer_cases h).2 with rfl | h
  · exact .refl _
  · simp [consumerStep] at h; subst h; exact .refl _

/-- What S0 of `start_session` leaves in them (R211). -/
def Zeroed (s t : State) : Prop :=
  t.x = 0 ∧ t.y = 0 ∧ t.z = 0 ∧ t.wheel = false ∧ t.sess = .handshaking ∧ t.count = 0 ∧
    t.wheelEnabled = s.wheelEnabled ∧ t.sampleRate = s.sampleRate ∧ t.accBits = s.accBits

/-- Invoking an operation writes none of them, but for a session that begins at once. -/
theorem exec_writes {i s t} (h : exec i s = .next t) :
    Kept s t ∨ (i = .startSession ∧ s.main = [] ∧ Zeroed s t) := by
  cases i
  case errNop f =>
    left; exact atSelector_kept (by rfl) h
  case startSession =>
    have h : onEntry (sessionProgram s.wheelEnabled s.sampleRate) s = .next t := h
    rcases beginMain_cases (onEntry_cases h).2 with rfl | ⟨hm, h⟩
    · left; exact .refl _
    · right
      have : runMicro .sessionInit { s with main := (sessionProgram s.wheelEnabled s.sampleRate).tail } = .next t := h
      cases this
      exact ⟨rfl, hm, rfl, rfl, rfl, rfl, rfl, rfl, rfl, rfl, rfl⟩
  case push v =>
    left
    rcases (execPush_cases h).2 with rfl | ⟨-, ⟨-, -, rfl⟩ | ⟨ph, -, rfl⟩⟩
    · exact .refl _
    · exact stopPushing_kept v { s with devClk := .low }
    · exact runPhase_kept ph { s with devClk := .low }
  case packet3 i m dx dy =>
    left
    simp only [exec, execPacket3] at h
    split at h
    · cases h
    · exact onMainLine_kept (by simp [Writer]) h
  case packet4 i m dx dy dz =>
    left
    simp only [exec, execPacket4] at h
    split at h
    · exact onMainLine_kept (by simp [Writer]) h
    · cases h
  case edge d =>
    left; simp only [exec, execEdge] at h; split at h
    · exact clockEdge_kept h
    · cases h
  case frameTx v p k =>
    left
    simp only [exec, execFrameTx] at h
    exact onMainLine_kept (s := { s with dev := s.dev ++ txClockLevels k }) (m := .irqDisarm) (by simp [Writer]) h
  case processAvailableData => left; exact onEntry_kept (m := .packetTest) (by simp [Writer]) h
  case consumerRead => left; exact byConsumer_kept h
  case consumerDrain => left; exact byConsumer_kept h
  all_goals first
   | exact .inl (atSelector_kept (by rfl) h)
   | exact .inl (fromDevice_kept h)
   | exact .inl (onMainLine_kept (m := .irqDisarm) (by simp [Writer]) h)
   | exact .inl (onMainLine_kept (m := .pop) (by simp [Writer]) h)
   | exact .inl (onMainLine_kept (m := .clear) (by simp [Writer]) h)
   | exact .inl (onMainLine_kept (m := .clkLow) (by simp [Writer]) h)
   | exact .inl (onMainLine_kept (m := .clkRelease) (by simp [Writer]) h)
   | exact .inl (onMainLine_kept (m := .dataLow) (by simp [Writer]) h)
   | exact .inl (onMainLine_kept (m := .dataRelease) (by simp [Writer]) h)
   | exact .inl (onMainLine_kept (m := .irqArm) (by simp [Writer]) h)
   | exact .inl (onMainLine_kept (m := .initPort) (by simp [Writer]) h)
   | exact .inl (onMainLine_kept (m := .recv) (by simp [Writer]) h)
   | exact .inl (onMainLine_kept (m := .wait _) (by simp [Writer]) h)

/-- What a step does to the accumulators, `wheel` and the configuration inputs. -/
inductive Writes (s : State) : State → Prop
  | kept {t : State} (h : Kept s t) : Writes s t
  | session {t : State} (hs : SessionStarts s) (h : Zeroed s t) : Writes s t
  | addX {v : Byte} {rest : List Micro} (q : List Turn) (hm : s.main = .addX v :: rest) :
      Writes s (addToX v { s with sched := q, main := rest })
  | subY {v : Byte} {rest : List Micro} (q : List Turn) (hm : s.main = .subY v :: rest) :
      Writes s (subFromY v { s with sched := q, main := rest })
  | addZ {v : Byte} {rest : List Micro} (q : List Turn) (hm : s.main = .addZ v :: rest) :
      Writes s (addToZ v { s with sched := q, main := rest })
  | wheelRecord {rest : List Micro} (q : List Turn) (hm : s.main = .wheelRecord :: rest) :
      Writes s (wheelRecordStep { s with sched := q, main := rest })
  | access {a : Access} {rest : List Access} (q : List Turn) (hc : s.cons = a :: rest) :
      Writes s (runAccess a { s with sched := q, cons := rest })

theorem mainStep_writes {q s t} (h : mainStep { s with sched := q } = .next t) : Writes s t := by
  rcases mainStep_cases h with ⟨-, rfl⟩ | ⟨m, rest, hm, h⟩
  · exact .kept (.refl _)
  · by_cases hs : Writer m
    · rcases hs with ⟨v, rfl | rfl | rfl⟩ | rfl | rfl
      · cases h; exact .addX q hm
      · cases h; exact .subY q hm
      · cases h; exact .addZ q hm
      · cases h; exact .wheelRecord q hm
      · cases h; exact .session (.inl ⟨_, hm⟩) ⟨rfl, rfl, rfl, rfl, rfl, rfl, rfl, rfl, rfl⟩
    · exact .kept (runMicro_kept (s := { s with sched := q, main := rest }) hs h)

theorem consumerStep_writes {q s t} (h : consumerStep { s with sched := q } = .next t) : Writes s t := by
  rcases consumerStep_cases h with rfl | ⟨a, rest, hc, rfl⟩
  · exact .kept (.refl _)
  · exact .access q hc

/-- Everything a step can do to the accumulators, `wheel` and the configuration inputs (R53, R55, R211, R227, R237). -/
theorem step_writes {s t} (h : step s = .next t) : Writes s t := by
  unfold step nextTurn at h
  split at h
  · rename_i c rest hs
    cases c with
    | issue c w =>
      simp only [takeTurn, issue] at h
      split at h
      · rename_i i hi
        obtain ⟨v, hv, rfl⟩ := mapNext_eq_next h
        rcases exec_writes (s := { s with sched := rest, ctx := c }) hv with k | ⟨rfl, hm, k⟩
        · exact .kept k
        · exact .session (.inr ⟨hm, c, w, rest, hs, hi⟩) k
      · cases h
    | main => exact mainStep_writes h
    | device => exact .kept (deviceStep_kept (s := { s with sched := rest }) h)
    | consumer => exact consumerStep_writes h
    | lines c d => exact .kept (setDeviceLines_kept (s := { s with sched := rest }) h)
  · unfold defaultTurn at h
    split at h
    · exact consumerStep_writes (q := s.sched) h
    · split at h
      · exact .kept (deviceStep_kept h)
      · exact mainStep_writes (q := s.sched) h

end Sys2Proof.Machine
end

