-- ==== Sys2Proof/Tests/Slice0.lean ====
section
/-! SUPPORT. The model's own tests. Expected results are the spec's: the encoding tables of 30_encoding.md, the worked
examples of the rules, and the vectors of 95_test_vectors.md. The second half shows, for every statement that has
hypotheses, a concrete state and operands that meet them all. -/
namespace Sys2Proof.Tests
open Sys2Proof Sys2Proof.Machine

/-! ## Decoding: words written out from the spec's encodings -/

/-- Selector words `{ps, fc}` of R100 and R101, bit by bit: 00 and any cursor; 01 and 11 down to 1. -/
theorem test_decode_read_selectors :
    decode [0x01, 0b00000000] = .ok (.errNop 0) ∧ decode [0x01, 0b00001111] = .ok (.errNop 15) ∧
    decode [0x01, 0b00011011] = .ok .rdStart ∧ decode [0x01, 0b00011010] = .ok .rdDataB0 ∧
    decode [0x01, 0b00011001] = .ok .rdDataB1 ∧ decode [0x01, 0b00011000] = .ok .rdDataB2 ∧
    decode [0x01, 0b00010111] = .ok .rdDataB3 ∧ decode [0x01, 0b00010110] = .ok .rdDataB4 ∧
    decode [0x01, 0b00010101] = .ok .rdDataB5 ∧ decode [0x01, 0b00010100] = .ok .rdDataB6 ∧
    decode [0x01, 0b00010011] = .ok .rdDataB7 ∧ decode [0x01, 0b00010010] = .ok .rdParity ∧
    decode [0x01, 0b00010001] = .ok .rdStop := by decide

/-- 10 and 11 down to 1 (R100, R101). -/
theorem test_decode_write_selectors :
    decode [0x01, 0b00101011] = .ok .wrDataB0 ∧ decode [0x01, 0b00101010] = .ok .wrDataB1 ∧
    decode [0x01, 0b00101001] = .ok .wrDataB2 ∧ decode [0x01, 0b00101000] = .ok .wrDataB3 ∧
    decode [0x01, 0b00100111] = .ok .wrDataB4 ∧ decode [0x01, 0b00100110] = .ok .wrDataB5 ∧
    decode [0x01, 0b00100101] = .ok .wrDataB6 ∧ decode [0x01, 0b00100100] = .ok .wrDataB7 ∧
    decode [0x01, 0b00100011] = .ok .wrParity ∧ decode [0x01, 0b00100010] = .ok .wrStop ∧
    decode [0x01, 0b00100001] = .ok .wrAck := by decide

/-- R102: cursor 0 or above 11 with Read or Write, and port number 3. -/
theorem test_decode_reserved_selectors :
    decode [0x01, 0b00010000] = .reject .reservedSelector ∧ decode [0x01, 0b00011100] = .reject .reservedSelector ∧
    decode [0x01, 0b00101111] = .reject .reservedSelector ∧ decode [0x01, 0b00111011] = .reject .reservedSelector := by
  decide

/-- R106, R107, R108. -/
theorem test_decode_bytes :
    decode [0x02, 0xFF] = .ok .cmdReset ∧ decode [0x02, 0xF2] = .ok .cmdGetId ∧
    decode [0x02, 0xF3] = .ok .cmdSetRate ∧ decode [0x02, 0xE8] = .ok .cmdSetRes ∧
    decode [0x02, 0xF4] = .ok .cmdEnable ∧ decode [0x03, 0xFA] = .ok .rspAck ∧
    decode [0x03, 0xAA] = .ok .rspBatOk ∧ decode [0x03, 0x00] = .ok .rspIdStd ∧
    decode [0x03, 0x03] = .ok .rspIdWheel ∧ decode [0x04, 200] = .ok .argRate200 ∧
    decode [0x04, 100] = .ok .argRate100 ∧ decode [0x04, 80] = .ok .argRate80 ∧
    decode [0x04, 3] = .ok .argRes8cpmm ∧ decode [0x05, 40] = .ok (.argRateCfg 40) := by decide

/-- Frame images of 95_test_vectors.md 2.1: 0xFA is `0 01011111 1 1`, 0xC8 is `0 00010011 0 1`; position 0 is bit 0. A
write frame ends with the acknowledgment level at position 11. -/
theorem test_decode_frames :
    decode [0x06, 0b11110100, 0b00000111] = .ok (.frameRx 0xFA true) ∧
    decode [0x06, 0b10010000, 0b00000101] = .ok (.frameRx 0xC8 false) ∧
    decode [0x07, 0b11101000, 0b00000101] = .ok (.frameTx 0xF4 false false) ∧
    decode [0x07, 0b11101000, 0b00001101] = .ok (.frameTx 0xF4 false true) := by decide

/-- Packets of V-D7 and program P4. -/
theorem test_decode_packets :
    decode [0x08, 0x3C, 0x7F, 0x7F] = .ok (.packet3 7 4 0x7F 0x7F) ∧
    decode [0x09, 0x09, 0x02, 0xFE, 0x01] = .ok (.packet4 1 1 2 0xFE 1) := by decide

/-- The named operations (the words are the model's, log 4). -/
theorem test_decode_operations :
    decode [0x10, 1] = .ok (.edge true) ∧ decode [0x11, 0x22] = .ok (.push 0x22) ∧ decode [0x12, 0] = .ok .pop ∧
    decode [0x13, 0] = .ok .clear ∧ decode [0x14, 0] = .ok .clkLow ∧ decode [0x15, 0] = .ok .clkRelease ∧
    decode [0x16, 0] = .ok .dataLow ∧ decode [0x17, 0] = .ok .dataRelease ∧
    decode [0x18, 100, 0, 0, 0] = .ok (.delay 100) ∧ decode [0x19, 0] = .ok .irqDisarm ∧
    decode [0x1A, 0] = .ok .irqArm ∧ decode [0x1B, 0] = .ok .initializePort ∧
    decode [0x1C, 0xF4] = .ok (.writeByte 0xF4) ∧ decode [0x1D, 0] = .ok .recvByteBlocking ∧
    decode [0x1E, 0xF4] = .ok (.sendByteWithAck 0xF4) ∧ decode [0x1F, 0] = .ok .startSession ∧
    decode [0x20, 0] = .ok .processAvailableData ∧ decode [0x21, 0] = .ok .consumerRead ∧
    decode [0x22, 1, 0, 0, 0, 0xFF, 0xFF, 0xFF, 0xFF, 0, 1, 0, 0] = .ok (.consumerDrain 1 (-1) 0x0100) := by decide

/-- Every kind of refusal of the decoder. -/
theorem test_decode_rejects :
    decode [] = .reject .empty ∧ decode [0x02, 0x12] = .reject .unknownByte ∧
    decode [0x00, 0x00] = .reject .unknownTag ∧ decode [0x11, 1, 2] = .reject .badLength ∧
    decode [0x06, 0x01, 0x04] = .reject .badFixedBit ∧ decode [0x07, 0xE8, 0x07] = .reject .badParity := by decide

/-! ## Well-formedness -/

/-- A write frame of 0xF4 carries parity 0 (V-W1); with 1 it is refused. -/
theorem test_wf_write_frame : (Instr.frameTx 0xF4 true false).wf = false ∧ (Instr.frameTx 0xF4 false false).wf = true := by
  decide

theorem test_wf_drain :
    (Instr.consumerDrain 2147483648 0 0).wf = false ∧ (Instr.consumerDrain 0 (-2147483649) 0).wf = false ∧
    (Instr.consumerDrain 0 0 2147483648).wf = false ∧ (Instr.consumerDrain 2147483647 (-2147483648) 0).wf = true := by
  decide

theorem test_wf_delay : (Instr.delay 4294967296).wf = false ∧ (Instr.delay 4294967295).wf = true := by decide

/-! ## Parity -/

/-- The examples of R95 and the table of 95_test_vectors.md 2.1. -/
theorem test_parity :
    parity 0x00 = true ∧ parity 0xFF = true ∧ parity 0x01 = false ∧ parity 0xFA = true ∧ parity 0xF4 = false ∧
    parity 0xC8 = false ∧ parity 0xE8 = true := by decide

/-! ## One step of each instruction -/

/-- Something of the next state, if there is one. -/
def see {α : Type} (f : State → α) (o : Out) : Option α :=
  match o with
  | .next s => some (f s)
  | .fault _ => none
  | .refused _ => none

/-- An invocation in the phase (`p`, `fc`) with data level `d`. -/
def inPhase (p : PortState) (fc : BitVec 4) (sr : Byte) (d : Bool) : State :=
  { State.reset with ctx := .interrupt, irqArmed := true, ps := p, fc := fc, sr := sr, devClk := .low, devData := driveOf d }

/-- R132: at another pair the edge runs the phase selected there; while disarmed nothing is run (R45). -/
theorem test_row_elsewhere :
    see (fun s => (s.fc, s.sr)) (exec .wrAck (inPhase .read 10 0 true)) = some (9, 0x80) ∧
    see (fun s => (s.ps, s.fc)) (exec .rdStart (inPhase .error 4 0 true)) = some (.error, 4) ∧
    see (fun s => (s.ps, s.fc)) (exec .rdStart { inPhase .read 11 0 true with irqArmed := false }) = some (.read, 11) := by
  decide

/-- R131. -/
theorem test_errNop : see (fun s => (s.ps, s.fc)) (exec (.errNop 7) (inPhase .error 7 0 false)) = some (.error, 7) := by decide

/-- R133. -/
theorem test_rdStart :
    see (fun s => (s.ps, s.fc)) (exec .rdStart (inPhase .read 11 0 false)) = some (.read, 10) ∧
    see (fun s => (s.ps, s.fc)) (exec .rdStart (inPhase .read 11 0 true)) = some (.error, 10) := by decide

/-- R134, V-R1, V-R2, V-R3. -/
theorem test_rdData :
    see (fun s => (s.sr, s.fc)) (exec .rdDataB0 (inPhase .read 10 0x00 true)) = some (0x80, 9) ∧
    see (fun s => (s.sr, s.fc)) (exec .rdDataB1 (inPhase .read 9 0x80 false)) = some (0x40, 8) ∧
    see (fun s => (s.sr, s.fc)) (exec .rdDataB2 (inPhase .read 8 0x80 false)) = some (0x40, 7) ∧
    see (fun s => (s.sr, s.fc)) (exec .rdDataB3 (inPhase .read 7 0x40 true)) = some (0xA0, 6) ∧
    see (fun s => (s.sr, s.fc)) (exec .rdDataB4 (inPhase .read 6 0xA0 true)) = some (0xD0, 5) ∧
    see (fun s => (s.sr, s.fc)) (exec .rdDataB5 (inPhase .read 5 0xD0 true)) = some (0xE8, 4) ∧
    see (fun s => (s.sr, s.fc)) (exec .rdDataB6 (inPhase .read 4 0xFC true)) = some (0xFE, 3) ∧
    see (fun s => (s.sr, s.fc)) (exec .rdDataB7 (inPhase .read 3 0x01 false)) = some (0x00, 2) := by decide

/-- R135. -/
theorem test_rdParity :
    see (fun s => (s.ps, s.fc)) (exec .rdParity (inPhase .read 2 0xFA true)) = some (.read, 1) ∧
    see (fun s => (s.ps, s.fc)) (exec .rdParity (inPhase .read 2 0xFA false)) = some (.error, 1) := by decide

/-- R136. -/
theorem test_rdStop :
    see (fun s => (s.ring, s.wr, s.count, s.fc, s.ps)) (exec .rdStop (inPhase .read 1 0xFA true))
      = some ([(0, 0xFA)], 1, 1, 11, .read) ∧
    see (fun s => (s.ps, s.fc, s.count)) (exec .rdStop (inPhase .read 1 0xFA false)) = some (.error, 0, 0) := by decide

/-- R136, V-E10: with a full buffer a good stop bit overflows and a bad one is a stop error. -/
theorem test_rdStop_full :
    see (fun s => (s.ps, s.fc, s.count)) (exec .rdStop { inPhase .read 1 0xA4 true with count := 256 })
      = some (.error, 11, 256) ∧
    see (fun s => (s.ps, s.fc, s.count)) (exec .rdStop { inPhase .read 1 0x55 false with count := 256 })
      = some (.error, 0, 256) := by decide

/-- R137, V-W1. -/
theorem test_wrData :
    see (fun s => (s.dataDrive, s.sr, s.fc)) (exec .wrDataB0 (inPhase .write 11 0xF4 true)) = some (.low, 0x7A, 10) ∧
    see (fun s => (s.dataDrive, s.sr, s.fc)) (exec .wrDataB1 (inPhase .write 10 0x7A true)) = some (.low, 0x3D, 9) ∧
    see (fun s => (s.dataDrive, s.sr, s.fc)) (exec .wrDataB2 (inPhase .write 9 0x3D true)) = some (.released, 0x1E, 8) ∧
    see (fun s => (s.dataDrive, s.sr, s.fc)) (exec .wrDataB3 (inPhase .write 8 0x1E true)) = some (.low, 0x0F, 7) ∧
    see (fun s => (s.dataDrive, s.sr, s.fc)) (exec .wrDataB4 (inPhase .write 7 0x0F true)) = some (.released, 0x07, 6) ∧
    see (fun s => (s.dataDrive, s.sr, s.fc)) (exec .wrDataB5 (inPhase .write 6 0x07 true)) = some (.released, 0x03, 5) ∧
    see (fun s => (s.dataDrive, s.sr, s.fc)) (exec .wrDataB6 (inPhase .write 5 0x03 true)) = some (.released, 0x01, 4) ∧
    see (fun s => (s.dataDrive, s.sr, s.fc)) (exec .wrDataB7 (inPhase .write 4 0x01 true)) = some (.released, 0x00, 3) := by
  decide

/-- R138. -/
theorem test_wrParity :
    see (fun s => (s.dataDrive, s.fc)) (exec .wrParity { inPhase .write 3 0 true with par := false }) = some (.low, 2) ∧
    see (fun s => (s.dataDrive, s.fc)) (exec .wrParity { inPhase .write 3 0 true with par := true }) = some (.released, 2) := by
  decide

/-- R139. -/
theorem test_wrStop :
    see (fun s => (s.dataDrive, s.fc)) (exec .wrStop { inPhase .write 2 0 true with dataDrive := .low })
      = some (.released, 1) := by decide

/-- R140. -/
theorem test_wrAck :
    see (fun s => (s.ps, s.fc)) (exec .wrAck (inPhase .write 1 0 false)) = some (.read, 11) ∧
    see (fun s => (s.ps, s.fc)) (exec .wrAck (inPhase .write 1 0 true)) = some (.error, 0) := by decide

/-- R131, R133, R45: handled, ignored in Error, lost while disarmed. -/
theorem test_edge :
    see (fun s => (s.ps, s.fc)) (exec (.edge false) (inPhase .read 11 0 true)) = some (.read, 10) ∧
    see (fun s => (s.ps, s.fc)) (exec (.edge false) (inPhase .error 7 0 true)) = some (.error, 7) ∧
    see (fun s => (s.ps, s.fc)) (exec (.edge true) { inPhase .read 11 0 true with irqArmed := false }) = some (.read, 11) := by
  decide

/-- The first edge of a read frame at once, ten to come (R90, R119). -/
theorem test_frameRx :
    see (fun s => (s.ps, s.fc, s.dev)) (exec (.frameRx 0xFA true) (inPhase .read 11 0 true))
      = some (.read, 10, [false, true, false, true, true, true, true, true, true, true]) := by decide

/-- The request-to-send begins with the interrupt disarmed; the device is to clock ten edges and acknowledge (R91). -/
theorem test_frameTx :
    see (fun s => (s.irqArmed, s.main.length, s.dev)) (exec (.frameTx 0xF4 false false) { State.reset with irqArmed := true })
      = some (false, 6, [true, true, true, true, true, true, true, true, true, true, false]) := by decide

/-- Each command and argument row sets up its own byte (R106, R108). -/
theorem test_sent_bytes :
    see (fun s => sentBytes s.main) (exec .cmdReset State.reset) = some [0xFF] ∧
    see (fun s => sentBytes s.main) (exec .cmdGetId State.reset) = some [0xF2] ∧
    see (fun s => sentBytes s.main) (exec .cmdSetRate State.reset) = some [0xF3] ∧
    see (fun s => sentBytes s.main) (exec .cmdSetRes State.reset) = some [0xE8] ∧
    see (fun s => sentBytes s.main) (exec .cmdEnable State.reset) = some [0xF4] ∧
    see (fun s => sentBytes s.main) (exec .argRate200 State.reset) = some [200] ∧
    see (fun s => sentBytes s.main) (exec .argRate100 State.reset) = some [100] ∧
    see (fun s => sentBytes s.main) (exec .argRate80 State.reset) = some [80] ∧
    see (fun s => sentBytes s.main) (exec .argRes8cpmm State.reset) = some [3] ∧
    see (fun s => sentBytes s.main) (exec (.argRateCfg 40) State.reset) = some [40] ∧
    see (fun s => sentBytes s.main) (exec (.sendByteWithAck 0xF4) State.reset) = some [0xF4] := by decide

/-- The levels each reply row clocks after its start bit (95_test_vectors.md 2.1). -/
theorem test_replies :
    see State.dev (exec .rspAck (inPhase .read 11 0 true))
      = some [false, true, false, true, true, true, true, true, true, true] ∧
    see State.dev (exec .rspBatOk (inPhase .read 11 0 true))
      = some [false, true, false, true, false, true, false, true, true, true] ∧
    see State.dev (exec .rspIdStd (inPhase .read 11 0 true))
      = some [false, false, false, false, false, false, false, false, true, true] ∧
    see State.dev (exec .rspIdWheel (inPhase .read 11 0 true))
      = some [true, true, false, false, false, false, false, false, true, true] := by decide

/-- V-D4: byte 0 = 0x3C gives b = 4, and the deltas are still to be added. -/
theorem test_packet3 :
    see (fun s => (s.b, s.x, s.main)) (exec (.packet3 7 4 1 2) State.reset) = some (4, 0, [.addX 1, .subY 2]) := by decide

theorem test_packet4 :
    see (fun s => (s.b, s.main)) (exec (.packet4 1 1 2 0xFE 1) { State.reset with wheel := true })
      = some (1, [.addX 2, .subY 0xFE, .addZ 1]) := by decide

/-- V-D1, V-D2, V-D3, V-D5, V-D7: the adds of the decoder. -/
theorem test_decoder_adds :
    (addToX 5 State.reset).x = 5 ∧ (subFromY 0xFD State.reset).y = 3 ∧ (addToX 0x80 State.reset).x = -128 ∧
    (subFromY 0x80 State.reset).y = 128 ∧ (addToX 1 { State.reset with x := 32767 }).x = -32768 ∧
    (subFromY 0xFF { State.reset with y := -32768 }).y = -32767 ∧ (addToZ 0xFF State.reset).z = -1 := by decide

/-- R51: the width is the configured one; at 12 bits the cell ends at 2047, at 24 bits V-D5's sum does not wrap. -/
theorem test_accumulator_width :
    (addToX 1 { State.reset with accBits := 12, x := 2047 }).x = -2048 ∧
    (addToX 1 { State.reset with accBits := 24, x := 32767 }).x = 32768 := by decide

/-- R160, R161, and the reload and decrement of the stop phase that makes the call (R136, R141). -/
theorem test_push :
    see (fun s => (s.ring, s.wr, s.count, s.fc))
      (exec (.push 0x11) { inPhase .read 1 0 true with wr := 255, rd := 3, count := 252 })
      = some ([(255, 0x11)], 0, 253, 11) ∧
    see (fun s => (s.ps, s.ring, s.wr, s.count))
      (exec (.push 0x22) { inPhase .read 1 0 true with wr := 5, rd := 5, count := 256 })
      = some (.error, [], 5, 256) := by decide

/-- R253: with ps = Error, or disarmed, no byte is received. R130: at another pair the edge gets its own invocation. -/
theorem test_push_uncallable :
    see (fun s => (s.count, s.fc)) (exec (.push 0x11) (inPhase .error 1 0 true)) = some (0, 1) ∧
    see (fun s => (s.count, s.fc)) (exec (.push 0x11) { inPhase .read 1 0 true with irqArmed := false }) = some (0, 1) ∧
    see (fun s => (s.ps, s.count, s.fc)) (exec (.push 0x11) (inPhase .read 1 0 false)) = some (.error, 0, 0) ∧
    see (fun s => (s.count, s.sr, s.fc)) (exec (.push 0x11) (inPhase .read 10 0 true)) = some (0, 0x80, 9) := by decide

/-- R162, R163. -/
theorem test_pop :
    see (fun s => (s.ret, s.rd, s.count)) (exec .pop { State.reset with ring := [(3, 0xFA)], rd := 3, wr := 4, count := 1 })
      = some (.popped (some 0xFA), 4, 0) ∧
    see (fun s => (s.ret, s.rd)) (exec .pop { State.reset with rd := 7, wr := 7 }) = some (.popped none, 7) := by decide

/-- R164, V-B5. -/
theorem test_clear :
    see (fun s => (s.wr, s.rd, s.count, s.ring))
      (exec .clear { State.reset with ring := [(0, 1), (1, 2), (2, 3)], wr := 3, count := 3 })
      = some (0, 0, 0, [(0, 1), (1, 2), (2, 3)]) := by decide

/-- R175. -/
theorem test_lines :
    see State.clkDrive (exec .clkLow State.reset) = some .low ∧
    see State.clkDrive (exec .clkRelease { State.reset with clkDrive := .low }) = some .released ∧
    see State.dataDrive (exec .dataLow State.reset) = some .low ∧
    see State.dataDrive (exec .dataRelease { State.reset with dataDrive := .low }) = some .released := by decide

/-- R175: clk_low while armed makes the line fall, and with data high at the start bit that is a start error. -/
theorem test_clkLow_armed :
    see (fun s => (s.clkDrive, s.ps, s.fc)) (exec .clkLow { State.reset with irqArmed := true, ps := .read, fc := 11 })
      = some (.low, .error, 10) := by decide

/-- R176, R177. -/
theorem test_delay : see id (exec (.delay 100) State.reset) = some State.reset := by decide

theorem test_arming :
    see State.irqArmed (exec .irqArm State.reset) = some true ∧
    see State.irqArmed (exec .irqDisarm { State.reset with irqArmed := true }) = some false := by decide

/-- R185, V-P1. -/
theorem test_initializePort :
    see (fun s => (s.ps, s.fc, s.irqArmed, s.clkDrive, s.dataDrive)) (exec .initializePort { State.reset with dataDrive := .low })
      = some (.read, 11, true, .released, .released) ∧
    see (fun s => (s.wr, s.rd, s.count)) (exec .initializePort { State.reset with wr := 3, count := 3 }) = some (0, 0, 0) := by
  decide

/-- R190: W1, then W2 to W7; W6 of V-P2 (0xFF has parity 1). -/
theorem test_writeByte :
    see (fun s => (s.irqArmed, s.main)) (exec (.writeByte 0xFF) { State.reset with irqArmed := true })
      = some (false, [.clkLow, .hold, .dataLow, .clkRelease, .setup 0xFF, .irqArm]) ∧
    (fun s : State => (s.ps, s.fc, s.sr, s.par, s.count)) (writeSetup 0xFF { State.reset with fc := 10, count := 2 })
      = (.write, 11, 0xFF, true, 0) := by decide

/-- R195, V-P8. -/
theorem test_recv :
    see (fun s => (s.ret, s.count, s.main))
      (exec .recvByteBlocking { State.reset with ring := [(0, 0xAA)], wr := 1, count := 1 }) = some (.byte 0xAA, 0, []) ∧
    see (fun s => (s.ret, s.main)) (exec .recvByteBlocking State.reset) = some (.none, [.recv]) := by decide

/-- R198 A3: V-P5 and V-P6. -/
theorem test_ackCheck :
    (ackCheckStep { State.reset with ps := .read, reply := 0xFA }).ps = .read ∧
    (ackCheckStep { State.reset with ps := .read, reply := 0xFE }).ps = .error := by decide

/-- R222, V-S1: S0, and the bytes the handshake sends. -/
theorem test_startSession :
    see (fun s => (s.sess, s.ps, s.fc, s.x, sentBytes s.main)) (exec .startSession { State.reset with x := 9 })
      = some (.handshaking, .read, 11, 0, [0xFF, 0xE8, 0x03, 0xF3, 0x64, 0xF4]) := by decide

/-- V-S2. -/
theorem test_startSession_wheel :
    see (fun s => sentBytes s.main) (exec .startSession { State.reset with wheelEnabled := true })
      = some [0xFF, 0xF3, 0xC8, 0xF3, 0x64, 0xF3, 0x50, 0xF2, 0xE8, 0x03, 0xF3, 0x64, 0xF4] := by decide

/-- R224, V-D1: a complete packet is taken. -/
theorem test_process :
    see (fun s => s.main)
      (exec .processAvailableData { State.reset with ps := .read, ring := [(0, 1), (1, 5)], wr := 3, count := 3 })
      = some [.takeByte, .takeByte, .takeByte, .decodePacket, .packetTest] := by decide

/-- V-D8: three bytes are no packet in wheel mode. -/
theorem test_process_partial :
    see (fun s => s.main)
      (exec .processAvailableData { State.reset with ps := .read, wheel := true, wr := 3, count := 3 })
      = some [.recovery] := by decide

/-- R236, R237: one access a step. -/
theorem test_consumer :
    see (fun s => (s.snap.x, s.x, s.cons)) (exec .consumerRead { State.reset with x := 5 })
      = some (5, 5, [.readY, .readZ, .readB, .readWheel, .readErrcnt, .readSess]) ∧
    see (fun s => (s.snap.x, s.cons)) (exec (.consumerDrain 2 3 4) { State.reset with x := 5 })
      = some (5, [.writeX 2, .readY, .writeY 3, .readZ, .writeZ 4]) ∧
    (runAccess (.writeX 2) { State.reset with snap := { State.reset.snap with x := 5 } }).x = 3 := by decide

/-- R236, R58: what a consumer may read besides. -/
theorem test_consumer_may_read :
    (runAccess .readWheel { State.reset with wheel := true }).snap.wheel = true ∧
    (runAccess .readErrcnt { State.reset with errcnt := 3 }).snap.errcnt = 3 ∧
    (runAccess .readSess { State.reset with sess := .streaming }).snap.sess = .streaming := by decide

/-! ## Steps -/

/-- The reset state does nothing until something is placed (R291). -/
theorem test_reset_idles : see id (step State.reset) = some State.reset := by decide

/-- A fetched word is the next thing the machine runs, as the first instruction after reset. -/
theorem test_fetch :
    see (fun s => (s.ps, s.fc, s.devClk, s.sched)) (step (State.reset.withFetchWord 8 0x1B)) = some (.error, 10, .low, []) ∧
    see (fun s => (s.count, s.sched)) (step (State.reset.withFetchWord 16 0x5511)) = some (1, []) ∧
    see (fun s => (s.irqArmed, sentBytes s.main)) (step (State.reset.withFetchWord 8 0xFF)) = some (false, [0xFF]) ∧
    see (fun s => s.dev.length) (step (State.reset.withFetchWord 16 0)) = none := by decide

theorem test_table_words :
    decodeTableWord 8 0x1B = some .rdStart ∧ decodeTableWord 8 0xF4 = some .cmdEnable ∧ decodeTableWord 8 0x3B = none := by
  decide

/-! ## Witnesses: states and operands that meet the hypotheses of the statements -/

theorem witness_DecodeInvertsEncode :
    (Instr.frameTx 0xF4 false true).wf = true ∧ (Instr.delay 4294967295).wf = true ∧
    (Instr.consumerDrain 2147483647 (-2147483648) (-1)).wf = true := by decide

/-- Each way a selector is reserved, at both ends. -/
theorem witness_ReservedSelectorsAreRefused :
    ((3 : BitVec 2) = 3 ∧ ((1 : BitVec 2) ≠ 0 ∧ (0 : BitVec 4) = 0) ∧ ((2 : BitVec 2) ≠ 0 ∧ 11 < (12 : BitVec 4).toNat)) ∧
    ((inPhase .read 0 0 true).ctx = .interrupt ∧ (inPhase .read 0 0 true).irqArmed = true ∧
      (inPhase .read 0 0 true).clkDrive = .released ∧ (inPhase .read 0 0 true).ps ≠ .error ∧ (inPhase .read 0 0 true).fc = 0) ∧
    ((inPhase .write 15 0 true).ps ≠ .error ∧ 11 < (inPhase .write 15 0 true).fc.toNat) := by decide

theorem witness_StepRunsTheDecodedInstruction :
    ({ State.reset with sched := [.issue .mainline [0x12, 0]] } : State).sched = .issue .mainline [0x12, 0] :: [] ∧
    decode [0x12, 0] = .ok .pop ∧ decode [0x01, 0x1F] = .reject .reservedSelector := by decide

theorem witness_StepMovesTheListedAgent :
    ({ State.reset with sched := [.lines .low .released] } : State).sched = .lines .low .released :: [] ∧
    State.reset.sched = [] ∧ State.reset.main = [] ∧ State.reset.dev = [] ∧ State.reset.cons = [] := by decide

/-- First and last rows of both frames, and Error. -/
theorem witness_EdgeRunsTheSelectedPhase :
    (PortState.read, (11 : BitVec 4), Instr.rdStart) ∈ phaseTable ∧ (PortState.read, (1 : BitVec 4), Instr.rdStop) ∈ phaseTable ∧
    (PortState.write, (11 : BitVec 4), Instr.wrDataB0) ∈ phaseTable ∧ (PortState.write, (1 : BitVec 4), Instr.wrAck) ∈ phaseTable ∧
    (inPhase .read 11 0 true).ctx = .interrupt ∧ (inPhase .read 11 0 true).irqArmed = true ∧
    (inPhase .read 11 0 true).clkDrive = .released ∧ (inPhase .error 0 0 true).ps = .error := by decide

theorem witness_EdgeCompletes :
    (inPhase .read 1 0 true).ctx = .interrupt ∧ CursorInv (inPhase .read 1 0 true) ∧ CursorInv (inPhase .write 11 0 true) ∧
    CursorInv (inPhase .error 0 0 true) := by decide

theorem witness_UnhandledEdgeIsLost :
    ({ inPhase .read 11 0 true with irqArmed := false } : State).irqArmed = false ∧
    ({ inPhase .read 11 0 true with clkDrive := .low } : State).clkDrive = .low ∧ (inPhase .read 11 0 true).ctx = .interrupt := by
  decide

theorem witness_ErrNopChangesNothing :
    (inPhase .error 9 0 true).ctx = .interrupt ∧ (inPhase .error 9 0 true).ps = .error := by decide

/-- The phase statements: `Handles` at every phase boundary. -/
theorem witness_phase_statements :
    Handles (inPhase .read 11 0 true) .read 11 ∧ Handles (inPhase .read 10 0 true) .read 10 ∧
    Handles (inPhase .read 3 0 true) .read 3 ∧ Handles (inPhase .read 2 0 true) .read 2 ∧
    Handles (inPhase .write 11 0 true) .write 11 ∧ Handles (inPhase .write 4 0 true) .write 4 ∧
    Handles (inPhase .write 3 0 true) .write 3 ∧ Handles (inPhase .write 2 0 true) .write 2 ∧
    Handles (inPhase .write 1 0 true) .write 1 := by decide

/-- Room for one byte, full, and a bad stop bit. -/
theorem witness_ReadStopPushesOrFails :
    Handles (inPhase .read 1 0 true) .read 1 ∧ sample (inPhase .read 1 0 true) = true ∧ sample (inPhase .read 1 0 false) = false ∧
    RingInv { inPhase .read 1 0 true with count := 255, wr := 255 } ∧ RingInv { inPhase .read 1 0 true with count := 256 } := by
  decide

theorem witness_PhaseRowsRunOnlyWhenSelected :
    Instr.errNop 7 ∈ phaseRows 7 ∧ Instr.wrAck ∈ phaseRows 7 ∧ (inPhase .read 3 0 true).ctx = .interrupt ∧
    (inPhase .read 3 0 true).irqArmed = true ∧ (inPhase .read 3 0 true).clkDrive = .released ∧
    (PortState.read, (3 : BitVec 4), Instr.rdDataB7) ∈ phaseTable ∧
    (inPhase .error 0 0 true).ps = .error ∧ (inPhase .read 0 0 true).fc = 0 ∧ 11 < (inPhase .write 12 0 true).fc.toNat ∧
    ({ inPhase .read 3 0 true with irqArmed := false } : State).irqArmed = false ∧
    ({ inPhase .read 3 0 true with clkDrive := .low } : State).clkDrive = .low := by decide

/-- Ready for a read frame, with one free cell. -/
def readReady : State := { inPhase .read 11 0x5A true with count := 255, wr := 2, rd := 3 }

theorem witness_ReadFrameDeliversTheByte :
    (Instr.rspBatOk, (0xAA : Byte)) ∈ receivingRows 0x10 ∧ readReady.ctx = .interrupt ∧ readReady.dev = [] ∧
    readReady.irqArmed = true ∧ readReady.clkDrive = .released ∧ readReady.dataDrive = .released ∧ readReady.ps = .read ∧
    readReady.fc = 11 ∧ RingInv readReady ∧ readReady.count < 256 := by decide

theorem witness_BadReadFramePushesNothing :
    readReady.irqArmed = true ∧ readReady.clkDrive = .released ∧ readReady.dataDrive = .released ∧ readReady.ps = .read ∧
    readReady.fc = 11 ∧ readReady.ctx = .interrupt ∧ readReady.dev = [] ∧
    (true = true ∨ false ≠ parity 0x10 ∨ true = false) ∧ (false = true ∨ true ≠ parity 0x10 ∨ true = false) ∧
    (false = true ∨ false ≠ parity 0x10 ∨ false = false) := by decide

/-- As `write_byte(v)` leaves the port. -/
def writeReady (v : Byte) : State :=
  { inPhase .write 11 v true with par := parity v, dataDrive := .low, dev := List.replicate 10 true }

theorem witness_WriteFrameShiftsTheByteOut :
    (List.replicate 10 false).length = 10 ∧ (writeReady 0xF4).irqArmed = true ∧ (writeReady 0xF4).clkDrive = .released ∧
    (writeReady 0xF4).dataDrive = .low ∧ (writeReady 0xF4).ps = .write ∧ (writeReady 0xF4).fc = 11 ∧ (writeReady 0xF4).sr = 0xF4 ∧
    (writeReady 0xF4).par = parity 0xF4 := by decide

theorem witness_WrittenFrameReadsBack :
    (writeReady 0x01).sr = 0x01 ∧ (writeReady 0x01).par = parity 0x01 ∧ (writeReady 0x01).dev = List.replicate 10 true ∧
    (writeReady 0x01).irqArmed = true ∧ (writeReady 0x01).clkDrive = .released ∧ (writeReady 0x01).dataDrive = .low ∧
    (writeReady 0x01).ps = .write ∧ (writeReady 0x01).fc = 11 ∧ readReady.irqArmed = true ∧ readReady.clkDrive = .released ∧
    readReady.dataDrive = .released ∧ readReady.ps = .read ∧ readReady.fc = 11 ∧ RingInv readReady ∧ readReady.count < 256 := by
  decide

theorem witness_FrameTxSendsAndSamples : MainIdle State.reset ∧ State.reset.dev = [] := by decide

theorem witness_PushStoresOrOverflows :
    (inPhase .read 1 0 true).ctx = .interrupt ∧ RingInv (inPhase .read 1 0 true) ∧ Handles (inPhase .read 1 0 true) .read 1 ∧
    sample (inPhase .read 1 0 true) = true ∧ (inPhase .read 1 0 true).count < 256 ∧
    RingInv { inPhase .read 1 0 true with count := 256, wr := 7, rd := 7 } ∧
    ¬ (Handles (inPhase .error 1 0 true) .read 1 ∧ sample (inPhase .error 1 0 true) = true) ∧
    ¬ (Handles (inPhase .read 1 0 false) .read 1 ∧ sample (inPhase .read 1 0 false) = true) ∧
    (inPhase .read 1 0x5A true).sr = 0x5A ∧ ({ inPhase .read 1 0 true with irqArmed := false } : State).irqArmed = false ∧
    ({ inPhase .read 1 0 true with clkDrive := .low } : State).clkDrive = .low := by decide

/-- At the stop phase, with one free cell. -/
def stopReady : State := { inPhase .read 1 0x5A true with count := 255, wr := 2, rd := 3 }

/-- Pop, clear, delay, arming, initialize_port, write_byte, recv, and a byte to pop. -/
theorem witness_main_line_statements :
    MainIdle State.reset ∧ State.reset.count = 0 ∧ MainIdle { State.reset with count := 1, wr := 1 } ∧
    0 < ({ State.reset with count := 1, wr := 1 } : State).count ∧ State.reset.irqArmed = false ∧
    State.reset.clkDrive = .released ∧ State.reset.dataDrive = .released := by decide

theorem witness_RingIsFirstInFirstOut :
    RingInv stopReady ∧ Handles stopReady .read 1 ∧ sample stopReady = true ∧ stopReady.count < 256 ∧ RingInv { State.reset with count := 256 } ∧
    MainIdle { State.reset with count := 256 } ∧ 0 < ({ State.reset with count := 256 } : State).count := by decide

theorem witness_RingInvariantsArePreserved :
    RingInv stopReady ∧ see State.count (exec (.push 1) stopReady) = some 256 ∧ RingInv State.reset ∧
    State.reset.main = [] ∧ (see State.count (exec .pop State.reset)).isSome = true ∧
    (see State.count (exec .clear State.reset)).isSome = true := by decide

theorem witness_LinePrimitivesWriteOneDrive :
    MainIdle State.reset ∧ State.reset.irqArmed = false ∧ MainIdle { State.reset with irqArmed := true } ∧
    clkLine { State.reset with irqArmed := true } = true ∧ clkLine { State.reset with devClk := .low } = false ∧
    (inPhase .read 11 0 true).ctx = .interrupt := by decide

theorem witness_ArmingSetsTheArmedBit :
    MainIdle State.reset ∧ State.reset.irqArmed = false ∧
    (see State.devClk (exec (.edge true) { State.reset with ctx := .interrupt })).isSome = true := by decide

/-- A main line that polls an empty ring in Error, or disarmed, and one turn of every kind. -/
theorem witness_RecvHangsWithoutABearer :
    ({ State.reset with main := [.recv] } : State).main = .recv :: [] ∧ State.reset.count = 0 ∧ State.reset.ps = .error ∧
    State.reset.irqArmed = false ∧
    (∀ u ∈ [Turn.main, .consumer, .device, .lines .low .low, invoke (.edge true)],
      u = .main ∨ u = .consumer ∨ u = .device ∨ (∃ c d, u = .lines c d) ∨ (∃ d, u = invoke (.edge d))) := by
  refine ⟨rfl, rfl, rfl, rfl, ?_⟩
  intro u hu
  simp only [List.mem_cons, List.not_mem_nil, or_false] at hu
  rcases hu with rfl | rfl | rfl | rfl | rfl
  · exact .inl rfl
  · exact .inr (.inl rfl)
  · exact .inr (.inr (.inl rfl))
  · exact .inr (.inr (.inr (.inl ⟨_, _, rfl⟩)))
  · exact .inr (.inr (.inr (.inr ⟨_, rfl⟩)))

theorem witness_SendByteWithAckChecksTheReply :
    (Instr.argRateCfg 40, (40 : Byte)) ∈ sendingRows 40 ∧ (Instr.cmdReset, (0xFF : Byte)) ∈ sendingRows 40 ∧
    MainIdle State.reset ∧ Memory.wf State.reset.ring = true := by decide

theorem witness_StartSessionReinitializes :
    State.reset.ctx ≠ .interrupt ∧ State.reset.main = [] ∧ ({ State.reset with ctx := .consumer } : State).ctx ≠ .interrupt := by
  decide

/-- Both values of WHEEL_ENABLED, and a byte other than 0xAA. -/
theorem witness_handshake_statements :
    Idle State.reset ∧ Memory.wf State.reset.ring = true ∧ Idle { State.reset with wheelEnabled := true } ∧ (0xFC : Byte) ≠ 0xAA := by
  decide

theorem witness_SessionChecksAbortTheHandshake :
    ({ State.reset with main := .batCheck :: [.recv] } : State).main = .batCheck :: [.recv] ∧
    ({ State.reset with main := [.sessionFail] } : State).main = .sessionFail :: [] := by decide

theorem witness_PacketsAddTheirDeltas :
    MainIdle State.reset ∧ State.reset.wheel = false ∧ MainIdle { State.reset with wheel := true } := by decide

theorem witness_DecoderStepsAreSeparate :
    ({ State.reset with main := [.putB 1] } : State).main = .putB 1 :: [] ∧
    ({ State.reset with main := [.decodePacket, .packetTest], pkt := [9, 5, 0] } : State).main = .decodePacket :: [.packetTest] ∧
    ({ State.reset with main := [.decodePacket, .packetTest], pkt := [9, 5, 0] } : State).pkt = [9, 5, 0] ∧
    ({ State.reset with main := [.decodePacket], pkt := [9, 5, 0, 1] } : State).pkt = [9, 5, 0, 1] ∧
    ({ State.reset with main := [.addX 1, .subY 2] } : State).main = .addX 1 :: [.subY 2] ∧
    ({ State.reset with main := [.subY 2] } : State).main = .subY 2 :: [] ∧
    ({ State.reset with main := [.addZ 3] } : State).main = .addZ 3 :: [] := by decide

/-- A complete packet of either length, the longest incomplete ones, and Error. -/
theorem witness_process_statements :
    State.reset.ctx ≠ .interrupt ∧ State.reset.main = [] ∧ State.reset.ps = .error ∧
    ({ State.reset with ps := .read, count := 3 } : State).ps ≠ .error ∧
    ({ State.reset with ps := .read, count := 2 } : State).count < 3 ∧
    ({ State.reset with ps := .read, count := 3, wheel := true } : State).count < 4 ∧
    ({ State.reset with ps := .read, count := 4, wheel := true } : State).count = 4 := by decide

/-- Two packets and a remainder; 256 bytes in Error (program P6: 85 packets and one byte); no packet in wheel mode. -/
theorem witness_ProcessDecodesOnePacket :
    ({ State.reset with count := 8 } : State).count = 2 * packetLen State.reset.wheel + 2 ∧ 2 < packetLen State.reset.wheel ∧
    ({ State.reset with count := 256 } : State).count = 85 * packetLen State.reset.wheel + 1 ∧ State.reset.ps = .error ∧
    ({ State.reset with count := 3, wheel := true } : State).count = 0 * packetLen true + 3 ∧ 3 < packetLen true ∧
    State.reset.ctx ≠ .interrupt ∧ State.reset.main = [] := by decide

theorem witness_PacketTakesNeverUnderrun :
    PacketInv { State.reset with ps := .read, count := 3, wr := 3, ring := [(0, 9), (1, 5)],
                                 main := [.takeByte, .takeByte, .takeByte, .decodePacket, .packetTest] } ∧
    PacketInv { State.reset with ps := .read, pkt := [9, 5, 0], main := [.decodePacket, .packetTest] } := by
  refine ⟨.inr ⟨3, [.packetTest], rfl, by simp [NoPacketWork], ?_, rfl⟩,
    .inr ⟨0, [.packetTest], rfl, by simp [NoPacketWork], ?_, rfl⟩⟩
  · decide
  · decide

theorem witness_ConsumerReadsAndDrains : State.reset.ctx ≠ .interrupt ∧ State.reset.cons = [] := by decide

/-- R264, R116: a packet row in interrupt context. -/
theorem test_packet_in_interrupt :
    exec (.packet3 0 1 2 3) (inPhase .read 11 0 true) = .refused .wrongContext ∧
    exec (.packet4 0 1 2 3 4) (inPhase .read 11 0 true) = .refused .packetLength ∧
    exec (.packet4 0 1 2 3 4) { inPhase .read 11 0 true with wheel := true } = .refused .wrongContext :=
  ⟨rfl, rfl, rfl⟩

theorem witness_WrongContextIsRefused :
    State.reset.ctx ≠ .interrupt ∧ (inPhase .read 11 0 true).ctx = .interrupt ∧
    Instr.errNop 3 ∈ phaseRows 3 ∧ Instr.argRateCfg 40 ∈ (sendingRows 40).map Prod.fst := by decide

/-- Steps that change an accumulator: an add, a drain, the reinitialization. -/
theorem witness_AccumulatorsChangeOnlyByTheirWriters :
    see State.x (step { State.reset with main := [.addX 5] }) = some 5 ∧
    see State.y (step { State.reset with main := [.subY 5] }) = some (-5) ∧
    see State.z (step { State.reset with main := [.addZ 0xFF] }) = some (-1) ∧
    see State.x (step { State.reset with cons := [.writeX 2] }) = some (-2) ∧
    see State.y (step { State.reset with cons := [.writeY (-2)] }) = some 2 ∧
    see State.z (step { State.reset with cons := [.writeZ 2] }) = some (-2) ∧
    see State.x (step { State.reset with x := 7, main := [.sessionInit] }) = some 0 ∧
    see State.x (step { State.reset with x := 7, sched := [invoke .startSession] }) = some 0 := by decide

theorem witness_StepKeepsTheInvariant : Inv State.reset ∧ Inv readReady ∧ (see State.x (step State.reset)).isSome = true := by decide

/-- The two ways out of Error. -/
theorem witness_ErrorIsLeftOnlyByReinitialization :
    State.reset.ps = .error ∧ see State.ps (step { State.reset with main := [.initPort] }) = some .read ∧
    see State.ps (step { State.reset with main := [.setup 0xF4] }) = some .write := by decide

theorem witness_ErrorCounterCountsUpByOne :
    see State.errcnt (step { State.reset with main := [.recovery] }) = some 1 := by decide

theorem witness_OnlyAPushWritesTheCells :
    see (fun t => Memory.read t.ring 0) (step { inPhase .read 1 0x11 true with sched := [invoke .rdStop] }) = some 0x11 ∧
    Memory.read State.reset.ring 0 ≠ 0x11 := by decide

theorem witness_ConfigurationAndWheelHaveOneWriter :
    see State.wheel (step { State.reset with main := [.wheelRecord], reply := 3 }) = some true ∧
    see State.wheel (step { State.reset with main := [.sessionInit], wheel := true, count := 3 }) = some false ∧
    see State.wheel (step { State.reset with sched := [invoke .startSession], wheel := true }) = some false := by decide

theorem witness_DeviceCannotReachTheSession :
    (see State.dev (step { State.reset with sched := [.device] })).isSome = true ∧
    (see State.devClk (step { State.reset with sched := [.lines .low .low] })) = some .low ∧
    (see State.devClk (step { State.reset with sched := [invoke (.edge true)] })) = some .low := by decide

end Sys2Proof.Tests
end

section
/-! ## What one move of the block does to its registers
SUPPORT. `Moves` of Laws/Step.lean says which move a step makes; `Effect` says what a sub-step of the main line does to
the registers, so that an invariant or a one-step claim is a case analysis over a dozen effects. -/
namespace Sys2Proof.Machine

/-- Everything a step can do, with the return to the main line's context counted as bookkeeping. -/
theorem step_prepared_move {s t : State} (h : step s = .next t) : ∃ u v, Prepared s u ∧ Move u v ∧ Prepared v t := by
  obtain ⟨v, ⟨u, hu, hv⟩, rfl | rfl⟩ := step_moves h
  · exact ⟨u, t, hu, hv, .refl t⟩
  · exact ⟨u, v, hu, hv, .mk v.sched .mainline v.dev v.cons v.devClk v.devData⟩

/-- `t` differs from `s` at most in the host's drives, the armed bit, the session's state and `wheel`, and in the model's
own record of the main line. It keeps every register of the state invariant, `sr`, `par` and `errcnt`. -/
def Aside (s t : State) : Prop :=
  ∃ irqArmed clkDrive dataDrive sess wheel main reply pkt ret,
    t = { s with irqArmed := irqArmed, clkDrive := clkDrive, dataDrive := dataDrive, sess := sess, wheel := wheel,
                 main := main, reply := reply, pkt := pkt, ret := ret }

theorem Aside.refl (s : State) : Aside s s := ⟨_, _, _, _, _, _, _, _, _, rfl⟩

/-- What a sub-step of the main line does to the registers. -/
inductive Effect (s : State) : State → Prop
  | aside {t : State} (h : Aside s t) : Effect s t
  /-- `clk_low` that makes an edge (R175). -/
  | phase {ph : Phase} (hp : phaseAt s.ps s.fc = some ph) : Effect s (runPhase ph { s with clkDrive := .low })
  | raise {t : State} (c : Cause) (h : Aside (raisePortError c s) t) : Effect s t
  | pop {t : State} (hc : s.count ≠ 0) (h : Aside { s with rd := s.rd + 1, count := s.count - 1 } t) : Effect s t
  | clear : Effect s (ringClear s)
  | initPort : Effect s (initializePort s)
  | session : Effect s (sessionInit s)
  | setup (v : Byte) : Effect s (writeSetup v s)
  | buttons {t : State} (v : Byte) (h : Aside (putButtons v s) t) : Effect s t
  | addX (v : Byte) : Effect s (addToX v s)
  | subY (v : Byte) : Effect s (subFromY v s)
  | addZ (v : Byte) : Effect s (addToZ v s)
  | countError {t : State} (he : s.ps = .error) (h : Aside { s with errcnt := s.errcnt + 1 } t) : Effect s t

theorem popStep_effect (s : State) : Effect s (popStep s) := by
  unfold popStep
  split
  · exact .aside ⟨_, _, _, _, _, _, _, _, _, rfl⟩
  · rename_i hp
    obtain ⟨hc, -, rfl⟩ := ringPop_eq_some hp
    exact .pop hc ⟨_, _, _, _, _, _, _, _, _, rfl⟩

theorem recvStep_effect (s : State) : Effect s (recvStep s) := by
  unfold recvStep
  split
  · exact .aside ⟨_, _, _, _, _, _, _, _, _, rfl⟩
  · rename_i hp
    obtain ⟨hc, -, rfl⟩ := ringPop_eq_some hp
    exact .pop hc ⟨_, _, _, _, _, _, _, _, _, rfl⟩

theorem takeByteStep_effect {s t : State} (h : takeByteStep s = .next t) : Effect s t := by
  unfold takeByteStep at h
  split at h
  · cases h
  · rename_i hp
    obtain ⟨hc, -, rfl⟩ := ringPop_eq_some hp
    cases h
    exact .pop hc ⟨_, _, _, _, _, _, _, _, _, rfl⟩

theorem ackCheckStep_effect (s : State) : Effect s (ackCheckStep s) := by
  unfold ackCheckStep
  split
  · exact .aside (.refl s)
  · exact .raise .badReply (.refl _)

theorem cmdTestStep_effect (s : State) : Effect s (cmdTestStep s) := by
  unfold cmdTestStep
  split
  · exact .aside ⟨_, _, _, _, _, _, _, _, _, rfl⟩
  · exact .aside (.refl s)

theorem batCheckStep_effect (s : State) : Effect s (batCheckStep s) := by
  unfold batCheckStep
  split
  · exact .aside (.refl s)
  · exact .raise .badBat ⟨_, _, _, _, _, _, _, _, _, rfl⟩

theorem idCheckStep_effect (s : State) : Effect s (idCheckStep s) := by
  unfold idCheckStep
  split
  · exact .aside (.refl s)
  · exact .raise .badId ⟨_, _, _, _, _, _, _, _, _, rfl⟩

theorem packetTestStep_effect (s : State) : Effect s (packetTestStep s) := by
  unfold packetTestStep
  split <;> exact .aside ⟨_, _, _, _, _, _, _, _, _, rfl⟩

theorem decodePacketStep_effect {s t : State} (h : decodePacketStep s = .next t) : Effect s t := by
  unfold decodePacketStep at h
  split at h
  · rename_i b0 b1 b2 _; cases h; exact .buttons b0 ⟨_, _, _, _, _, _, _, _, _, rfl⟩
  · rename_i b0 b1 b2 b3 _; cases h; exact .buttons b0 ⟨_, _, _, _, _, _, _, _, _, rfl⟩
  · cases h

theorem recoveryStep_effect (s : State) : Effect s (recoveryStep s) := by
  unfold recoveryStep
  split
  · rename_i he; exact .countError he ⟨_, _, _, _, _, _, _, _, _, rfl⟩
  · exact .aside ⟨_, _, _, _, _, _, _, _, _, rfl⟩

/-- Everything a sub-step of the main line can do to the registers. -/
theorem runMicro_effect {m : Micro} {s t : State} (h : runMicro m s = .next t) : Effect s t := by
  cases m with
  | clkLow =>
    rcases pullClockLow_cases h with rfl | ⟨-, ph, hp, rfl⟩
    · exact .aside ⟨_, _, _, _, _, _, _, _, _, rfl⟩
    · exact .phase hp
  | clkRelease | dataLow | dataRelease | hold | wait | irqDisarm | irqArm | wheelRecord | streaming | sessionFail =>
    cases h; exact .aside ⟨_, _, _, _, _, _, _, _, _, rfl⟩
  | clear => cases h; exact .clear
  | pop => cases h; exact popStep_effect s
  | initPort => cases h; exact .initPort
  | setup v => cases h; exact .setup v
  | recv => cases h; exact recvStep_effect s
  | ackCheck => cases h; exact ackCheckStep_effect s
  | cmdTest => cases h; exact cmdTestStep_effect s
  | sessionInit => cases h; exact .session
  | batCheck => cases h; exact batCheckStep_effect s
  | idCheck => cases h; exact idCheckStep_effect s
  | packetTest => cases h; exact packetTestStep_effect s
  | takeByte => exact takeByteStep_effect h
  | decodePacket => exact decodePacketStep_effect h
  | putB v => cases h; exact .buttons v (.refl _)
  | addX v => cases h; exact .addX v
  | subY v => cases h; exact .subY v
  | addZ v => cases h; exact .addZ v
  | recovery => cases h; exact recoveryStep_effect s

end Sys2Proof.Machine
end

section
/-! ## The state invariant
SUPPORT. Every move keeps the ring, cursor, button and accumulator invariants (10_state.md R26, R31, R51, R52). -/
namespace Sys2Proof.Machine

/-! ### The ring (41_ring_buffer.md R166) -/

theorem ringPush_ringInv {s : State} (v : Byte) (h : RingInv s) : RingInv (ringPush v s) := by
  rcases ringPush_cases v s with ⟨-, e⟩ | ⟨hn, e⟩ <;> rw [e]
  · exact h
  · obtain ⟨hwf, hle, hwr⟩ := h
    refine ⟨Memory.write_wf s.wr v hwf, Nat.lt_of_le_of_ne hle hn, ?_⟩
    change s.wr + 1#8 = s.rd + BitVec.ofNat 8 (s.count + 1)
    rw [hwr, BitVec.ofNat_add, BitVec.add_assoc]

theorem popped_ringInv {s : State} (hc : s.count ≠ 0) (h : RingInv s) :
    RingInv { s with rd := s.rd + 1, count := s.count - 1 } := by
  obtain ⟨hwf, hle, hwr⟩ := h
  refine ⟨hwf, Nat.le_trans (Nat.sub_le _ _) hle, ?_⟩
  change s.wr = s.rd + 1#8 + BitVec.ofNat 8 (s.count - 1)
  have hn : 1 + (s.count - 1) = s.count := by omega
  rw [hwr, BitVec.add_assoc, ← BitVec.ofNat_add, hn]

/-- The stop phase touches the ring by `push` only (R136). -/
theorem stopPushing_ringInv {s : State} (v : Byte) (h : RingInv s) : RingInv (countDown (stopPushing v s)) := by
  unfold stopPushing
  split
  · exact ringPush_ringInv v h
  · exact h

theorem runPhase_ringInv (ph : Phase) {s : State} (h : RingInv s) : RingInv (runPhase ph s) := by
  cases ph with
  | errNop | rdData | wrData | wrParity | wrStop => exact h
  | rdStop => exact stopPushing_ringInv s.sr h
  | rdStart => simp only [runPhase, readStart]; split <;> exact h
  | rdParity => simp only [runPhase, readParity]; split <;> exact h
  | wrAck => simp only [runPhase, writeAck]; split <;> exact h

/-! ### The cursor (R26) -/

theorem readPhase_selects {n : Nat} (h1 : 1 ≤ n) (h2 : n ≤ 11) : ∃ ph, readPhase n = some ph := by
  interval_cases n <;> exact ⟨_, rfl⟩

theorem writePhase_selects {n : Nat} (h1 : 1 ≤ n) (h2 : n ≤ 11) : ∃ ph, writePhase n = some ph := by
  interval_cases n <;> exact ⟨_, rfl⟩

/-- The pair (`ps`, `fc`) selects a phase (R100). -/
def Selects (s : State) : Prop := ∃ ph, phaseAt s.ps s.fc = some ph

/-- Under the cursor invariant the pair (`ps`, `fc`) is no reserved selector (R102). -/
theorem CursorInv.selects {s : State} (h : CursorInv s) : Selects s := by
  obtain ⟨hle, hge⟩ := h
  unfold Selects
  cases hp : s.ps with
  | error => exact ⟨.errNop, rfl⟩
  | read => exact readPhase_selects (hge (by simp [hp])) hle
  | write => exact writePhase_selects (hge (by simp [hp])) hle

/-- The cursors at which a phase runs: the last phase of either frame at 1, the others of a frame above it (R100). -/
def Phase.CursorRange (ph : Phase) (n : Nat) : Prop :=
  match ph with
  | .errNop => True
  | .rdStop | .wrAck => n = 1
  | .rdStart | .rdData | .rdParity | .wrData | .wrParity | .wrStop => 2 ≤ n

theorem readPhase_cursorRange {n : Nat} {ph : Phase} (h : readPhase n = some ph) : ph.CursorRange n := by
  unfold readPhase at h
  split at h <;> cases h <;> simp [Phase.CursorRange]

theorem writePhase_cursorRange {n : Nat} {ph : Phase} (h : writePhase n = some ph) : ph.CursorRange n := by
  unfold writePhase at h
  split at h <;> cases h <;> simp [Phase.CursorRange]

theorem phaseAt_cursorRange {p : PortState} {f : BitVec 4} {ph : Phase} (h : phaseAt p f = some ph) :
    ph.CursorRange f.toNat := by
  cases p with
  | error => cases h; trivial
  | read => exact readPhase_cursorRange h
  | write => exact writePhase_cursorRange h

theorem countDown_toNat {s : State} (h : 1 ≤ s.fc.toNat) : (countDown s).fc.toNat = s.fc.toNat - 1 :=
  BitVec.toNat_sub_of_le (BitVec.le_def.mpr h)

/-- A decrement above cursor 1 keeps the invariant. -/
theorem countDown_cursorInv {s : State} (h2 : 2 ≤ s.fc.toNat) (h12 : s.fc.toNat ≤ 12) : CursorInv (countDown s) := by
  have e := countDown_toNat (s := s) (by omega)
  exact ⟨by omega, fun _ => by omega⟩

/-- At cursor 1 only `Error` lets the cursor reach 0. -/
theorem countDown_error_cursorInv {s : State} (he : s.ps = .error) (h1 : s.fc.toNat = 1) : CursorInv (countDown s) := by
  have e := countDown_toNat (s := s) (by omega)
  exact ⟨by omega, fun hn => absurd he hn⟩

/-- The reload of a frame's last phase is counted down to 11 (R136, R140, R141). -/
theorem reloaded_cursorInv {s : State} (hf : s.fc = Config.fcReload) : CursorInv (countDown s) :=
  countDown_cursorInv (by rw [hf]; decide) (by rw [hf]; decide)

theorem stopPushing_cursorInv {s : State} (v : Byte) (h1 : s.fc.toNat = 1) : CursorInv (countDown (stopPushing v s)) := by
  unfold stopPushing
  split
  · exact reloaded_cursorInv rfl
  · exact countDown_error_cursorInv rfl h1

theorem runPhase_cursorInv {ph : Phase} {s : State} (hp : phaseAt s.ps s.fc = some ph) (h : CursorInv s) :
    CursorInv (runPhase ph s) := by
  have hcur := phaseAt_cursorRange hp
  have hle : s.fc.toNat ≤ 12 := Nat.le_succ_of_le h.1
  cases ph with
  | errNop => exact h
  | rdStop => exact stopPushing_cursorInv s.sr hcur
  | wrAck =>
    simp only [runPhase, writeAck]
    split
    · exact countDown_error_cursorInv rfl hcur
    · exact reloaded_cursorInv rfl
  | rdStart => simp only [runPhase, readStart]; split <;> exact countDown_cursorInv hcur hle
  | rdParity => simp only [runPhase, readParity]; split <;> exact countDown_cursorInv hcur hle
  | rdData | wrData | wrParity | wrStop => exact countDown_cursorInv hcur hle

/-! ### The whole invariant -/

theorem runPhase_inv {ph : Phase} {s : State} (hp : phaseAt s.ps s.fc = some ph) (h : Inv s) : Inv (runPhase ph s) := by
  obtain ⟨hring, hcursor, hb, hacc⟩ := h
  refine ⟨runPhase_ringInv ph hring, runPhase_cursorInv hp hcursor, ?_⟩
  obtain ⟨_, _, _, _, _, _, _, e⟩ := runPhase_frame ph s
  rw [e]
  exact ⟨hb, hacc⟩

theorem stopPushing_inv {s : State} (v : Byte) (hf : s.fc = 1) (h : Inv s) : Inv (countDown (stopPushing v s)) := by
  obtain ⟨hring, -, hb, hacc⟩ := h
  refine ⟨stopPushing_ringInv v hring, stopPushing_cursorInv v (by rw [hf]; rfl), ?_⟩
  obtain ⟨_, _, _, _, _, e⟩ := stopPushing_frame v s
  rw [e]
  exact ⟨hb, hacc⟩

theorem Aside.inv {s t : State} (ha : Aside s t) (h : Inv s) : Inv t := by
  obtain ⟨_, _, _, _, _, _, _, _, _, rfl⟩ := ha
  exact h

/-- Bits 7 to 3 of what is written to `b` are 0 (R52, R227). -/
theorem buttonsOf_lt (v : Byte) : (buttonsOf v).toNat < 8 :=
  Nat.lt_of_le_of_lt Nat.and_le_right (by decide : 7 < 8)

theorem Effect.inv {s t : State} (e : Effect s t) (h : Inv s) : Inv t := by
  have ⟨hring, hcursor, hb, hx, hy, hz⟩ := h
  have emptied : RingInv (ringClear s) := ⟨hring.1, Nat.zero_le _, rfl⟩
  cases e with
  | aside ha => exact ha.inv h
  | phase hp => exact runPhase_inv (s := { s with clkDrive := .low }) hp h
  | raise c ha => exact ha.inv ⟨hring, ⟨hcursor.1, fun hn => absurd rfl hn⟩, hb, hx, hy, hz⟩
  | pop hc ha => exact ha.inv ⟨popped_ringInv hc hring, hcursor, hb, hx, hy, hz⟩
  | clear => exact ⟨emptied, hcursor, hb, hx, hy, hz⟩
  | initPort => exact ⟨emptied, ⟨by simp, by simp⟩, hb, hx, hy, hz⟩
  | session => exact ⟨emptied, ⟨by simp, by simp⟩, by simp, wrap_zero _, wrap_zero _, wrap_zero _⟩
  | setup v => exact ⟨emptied, ⟨by simp, by simp⟩, hb, hx, hy, hz⟩
  | buttons v ha => exact ha.inv ⟨hring, hcursor, buttonsOf_lt v, hx, hy, hz⟩
  | addX v => exact ⟨hring, hcursor, hb, wrap_wrap _ _, hy, hz⟩
  | subY v => exact ⟨hring, hcursor, hb, hx, wrap_wrap _ _, hz⟩
  | addZ v => exact ⟨hring, hcursor, hb, hx, hy, wrap_wrap _ _⟩
  | countError _ ha => exact ha.inv h

theorem runAccess_inv (a : Access) {s : State} (h : Inv s) : Inv (runAccess a s) := by
  have ⟨hring, hcursor, hb, hx, hy, hz⟩ := h
  cases a with
  | readX | readY | readZ | readB | readSess | readWheel | readErrcnt => exact h
  | writeX d => exact ⟨hring, hcursor, hb, wrap_wrap _ _, hy, hz⟩
  | writeY d => exact ⟨hring, hcursor, hb, hx, wrap_wrap _ _, hz⟩
  | writeZ d => exact ⟨hring, hcursor, hb, hx, hy, wrap_wrap _ _⟩

theorem Prepared.inv {s u : State} (hp : Prepared s u) (h : Inv s) : Inv u := by
  obtain ⟨_, _, _, _, _, _, _, rfl, -⟩ := hp
  exact h

theorem Move.inv {u v : State} (hm : Move u v) (h : Inv u) : Inv v := by
  cases hm with
  | none => exact h
  | phase _ hp => exact runPhase_inv hp h
  | micro _ hr => exact (runMicro_effect hr).inv h
  | access a => exact runAccess_inv a h
  | push v _ _ hf => exact stopPushing_inv v hf h

theorem step_inv {s t : State} (h : step s = .next t) (hs : Inv s) : Inv t :=
  step_keeps (P := Inv) (fun _ _ hp => hp.inv) (fun _ _ hm => hm.inv) h hs

end Sys2Proof.Machine
end

section
/-! ## Reserved selectors are not reached
SUPPORT. Where the pair (`ps`, `fc`) selects a phase, no operation and no turn is refused for a reserved selector
(30_encoding.md R102). -/
namespace Sys2Proof.Machine

/-- The outcome is no refusal of a reserved selector. -/
def Unreserved (o : Out) : Prop := o ≠ .refused .noPhase

theorem Unreserved.mapNext {f : State → State} {o : Out} (h : Unreserved o) : Unreserved (mapNext f o) := by
  cases o with
  | next | fault => nofun
  | refused r => exact h

theorem engine_unreserved {s : State} (h : Selects s) : Unreserved (engine s) := by
  obtain ⟨ph, hph⟩ := h
  rw [engine_of_phase hph]
  nofun

theorem enginePushing_unreserved (v : Byte) {s : State} (h : Selects s) : Unreserved (enginePushing v s) := by
  unfold enginePushing
  split
  · nofun
  · exact engine_unreserved h

theorem fallingEdge_unreserved {s : State} (h : Selects s) : Unreserved (fallingEdge s) := by
  unfold fallingEdge
  split
  · exact engine_unreserved h
  · nofun

/-- An edge that is not handled is one that `atFall_lost` speaks of (R44, R45). -/
theorem unhandled_of_not {s : State} (h : ¬ (s.irqArmed = true ∧ s.clkDrive = .released)) :
    s.irqArmed = false ∨ s.clkDrive = .low := by
  cases ha : s.irqArmed <;> cases hc : s.clkDrive <;> simp_all

theorem atFall_unreserved {k : State → Out} {s : State} (h : Unreserved (k { s with devClk := .low })) :
    Unreserved (atFall k s) := by
  by_cases hh : s.irqArmed = true ∧ s.clkDrive = .released
  · rw [atFall_handled k hh.1 hh.2]; exact h
  · rw [atFall_lost k (unhandled_of_not hh)]; nofun

theorem clockEdge_unreserved (d : Bool) {s : State} (h : Selects s) : Unreserved (clockEdge d s) :=
  atFall_unreserved (engine_unreserved h)

theorem setDeviceLines_unreserved (c d : Drive) {s : State} (h : Selects s) : Unreserved (setDeviceLines c d s) := by
  simp only [setDeviceLines]
  split
  · exact fallingEdge_unreserved h
  · nofun

theorem pullClockLow_unreserved {s : State} (h : Selects s) : Unreserved (pullClockLow s) := by
  simp only [pullClockLow]
  split
  · exact fallingEdge_unreserved h
  · nofun

theorem deviceStep_unreserved {s : State} (h : Selects s) : Unreserved (deviceStep s) := by
  unfold deviceStep
  split
  · nofun
  · exact clockEdge_unreserved _ h

theorem fromDevice_unreserved (l : List Bool) {s : State} (h : Selects s) : Unreserved (fromDevice l s) := by
  unfold fromDevice beginFrame
  split
  · split
    · exact deviceStep_unreserved h
    · nofun
  · nofun

theorem atSelector_unreserved {p : PortState} {f : BitVec 4} {ph : Phase} {s : State} (hph : phaseAt p f = some ph)
    (h : Selects s) : Unreserved (atSelector p f ph s) := by
  unfold atSelector
  split
  · exact atFall_unreserved (by rw [branch_eq_engine hph]; exact engine_unreserved h)
  · nofun

theorem execEdge_unreserved (d : Bool) {s : State} (h : Selects s) : Unreserved (execEdge d s) := by
  unfold execEdge
  split
  · exact clockEdge_unreserved d h
  · nofun

theorem execPush_unreserved (v : Byte) {s : State} (h : Selects s) : Unreserved (execPush v s) := by
  unfold execPush
  split
  · exact atFall_unreserved (enginePushing_unreserved v h)
  · nofun

/-- The only sub-step of the main line that can make an edge is `clk_low` (R175). -/
theorem runMicro_unreserved (m : Micro) {s : State} (h : Selects s) : Unreserved (runMicro m s) := by
  cases m with
  | clkLow => exact pullClockLow_unreserved h
  | takeByte =>
    simp only [runMicro, takeByteStep]
    split <;> nofun
  | decodePacket =>
    simp only [runMicro, decodePacketStep]
    split <;> nofun
  | _ => nofun

theorem mainStep_unreserved {s : State} (h : Selects s) : Unreserved (mainStep s) := by
  unfold mainStep
  split
  · nofun
  · exact runMicro_unreserved _ h

theorem beginMain_unreserved (p : List Micro) {s : State} (h : Selects s) : Unreserved (beginMain p s) := by
  unfold beginMain
  split
  · exact mainStep_unreserved h
  · nofun

theorem onMainLine_unreserved (p : List Micro) {s : State} (h : Selects s) : Unreserved (onMainLine p s) := by
  unfold onMainLine
  split
  · exact beginMain_unreserved p h
  · nofun

theorem onEntry_unreserved (p : List Micro) {s : State} (h : Selects s) : Unreserved (onEntry p s) := by
  unfold onEntry
  split
  · nofun
  · exact beginMain_unreserved p h

theorem consumerStep_unreserved (s : State) : Unreserved (consumerStep s) := by
  unfold consumerStep
  split <;> nofun

theorem byConsumer_unreserved (p : List Access) (s : State) : Unreserved (byConsumer p s) := by
  unfold byConsumer beginConsumer
  split
  · nofun
  · split
    · exact consumerStep_unreserved _
    · nofun

/-- The meaning of every row is an edge of the device, or is handed to the main line or the consumer. -/
theorem exec_unreserved (i : Instr) {s : State} (h : Selects s) : Unreserved (exec i s) := by
  cases i with
  | errNop | rdStart | rdDataB0 | rdDataB1 | rdDataB2 | rdDataB3 | rdDataB4 | rdDataB5 | rdDataB6 | rdDataB7 | rdParity
  | rdStop | wrDataB0 | wrDataB1 | wrDataB2 | wrDataB3 | wrDataB4 | wrDataB5 | wrDataB6 | wrDataB7 | wrParity | wrStop
  | wrAck => exact atSelector_unreserved rfl h
  | frameRx | rspAck | rspBatOk | rspIdStd | rspIdWheel => exact fromDevice_unreserved _ h
  | edge d => exact execEdge_unreserved d h
  | push v => exact execPush_unreserved v h
  | frameTx v p k => exact onMainLine_unreserved (writeByteProgram v) (s := { s with dev := s.dev ++ txClockLevels k }) h
  | cmdReset | cmdGetId | cmdSetRate | cmdSetRes | cmdEnable | argRate200 | argRate100 | argRate80 | argRes8cpmm
  | argRateCfg | pop | clear | clkLow | clkRelease | dataLow | dataRelease | delay | irqDisarm | irqArm | initializePort
  | writeByte | recvByteBlocking | sendByteWithAck => exact onMainLine_unreserved _ h
  | packet3 i m dx dy =>
    simp only [exec, execPacket3]
    split
    · nofun
    · exact onMainLine_unreserved _ h
  | packet4 i m dx dy dz =>
    simp only [exec, execPacket4]
    split
    · exact onMainLine_unreserved _ h
    · nofun
  | startSession | processAvailableData => exact onEntry_unreserved _ h
  | consumerRead | consumerDrain => exact byConsumer_unreserved _ s

theorem takeTurn_unreserved (u : Turn) {s : State} (h : Selects s) : Unreserved (takeTurn u s) := by
  cases u with
  | issue c w =>
    simp only [takeTurn, issue]
    split
    · exact (exec_unreserved _ (s := enterContext c s) h).mapNext
    · nofun
  | main => exact mainStep_unreserved h
  | device => exact deviceStep_unreserved h
  | consumer => exact consumerStep_unreserved s
  | lines c d => exact setDeviceLines_unreserved c d h

theorem defaultTurn_unreserved {s : State} (h : Selects s) : Unreserved (defaultTurn s) := by
  unfold defaultTurn
  split
  · exact consumerStep_unreserved s
  · split
    · exact deviceStep_unreserved h
    · exact mainStep_unreserved h

theorem step_unreserved {s : State} (h : Selects s) : Unreserved (step s) := by
  unfold step nextTurn
  split
  · exact takeTurn_unreserved _ h
  · exact defaultTurn_unreserved h

/-- Settles O55: the invariant excludes the reserved selectors, and every move of a step keeps it. -/
theorem stepKeepsTheInvariant : Obligations.StepKeepsTheInvariant := by
  intro s hs
  have ⟨_, hcursor, _, _⟩ := hs
  exact ⟨step_unreserved hcursor.selects, fun t ht => step_inv ht hs⟩

/-- Settles O54. -/
theorem invariantHoldsAtReset : Obligations.InvariantHoldsAtReset :=
  ⟨by decide, .inl (by simp [NoPacketWork, State.reset])⟩

end Sys2Proof.Machine
end

section
/-! ## Edges of the device -/
namespace Sys2Proof.Machine

/-- Settles O8: an edge that `atFall` loses (R44, R45). -/
theorem unhandledEdgeIsLost : Obligations.UnhandledEdgeIsLost := by
  intro s d hc hlost
  exact (execEdge_interrupt d hc).trans (atFall_lost engine hlost)

/-- A handled edge runs the selected phase (R130). -/
theorem clockEdge_handled (d : Bool) {s : State} {ph : Phase} (ha : s.irqArmed = true) (hc : s.clkDrive = .released)
    (hp : phaseAt s.ps s.fc = some ph) :
    clockEdge d s = .next (runPhase ph { s with devClk := .low, devData := driveOf d }) :=
  (atFall_handled engine (s := { s with devData := driveOf d }) ha hc).trans (engine_of_phase hp)

/-- Settles O7: a lost edge moves the device's drives, and a handled one runs the phase that the pair selects. -/
theorem edgeCompletes : Obligations.EdgeCompletes := by
  intro s d hc hcursor
  by_cases hh : s.irqArmed = true ∧ s.clkDrive = .released
  · obtain ⟨ph, hph⟩ := hcursor.selects
    have e := (execEdge_interrupt d hc).trans (clockEdge_handled d hh.1 hh.2 hph)
    obtain ⟨_, _, _, _, _, _, _, hframe⟩ := runPhase_frame ph { s with devClk := .low, devData := driveOf d }
    rw [hframe] at e
    exact ⟨_, e, rfl, rfl, rfl, rfl, rfl, rfl, rfl, rfl, rfl, rfl, rfl, rfl, rfl, rfl⟩
  · exact ⟨_, unhandledEdgeIsLost s d hc (unhandled_of_not hh), rfl, rfl, rfl, rfl, rfl, rfl, rfl, rfl, rfl, rfl, rfl, rfl,
      rfl, rfl⟩

/-- `t` differs from `s` at most in what an edge of the device may reach (R58): `ps`, the cursor, the Shift Register, the
host's data drive and the ring's writing end; and in the device's own fields, the schedule and the context. -/
def WithinDeviceReach (s t : State) : Prop :=
  ∃ ps fc sr dataDrive ring wr count devClk devData dev sched ctx,
    t = { s with ps := ps, fc := fc, sr := sr, dataDrive := dataDrive, ring := ring, wr := wr, count := count,
                 devClk := devClk, devData := devData, dev := dev, sched := sched, ctx := ctx }

theorem WithinDeviceReach.trans {s t u : State} (h1 : WithinDeviceReach s t) (h2 : WithinDeviceReach t u) :
    WithinDeviceReach s u := by
  obtain ⟨_, _, _, _, _, _, _, _, _, _, _, _, rfl⟩ := h1
  obtain ⟨_, _, _, _, _, _, _, _, _, _, _, _, rfl⟩ := h2
  exact ⟨_, _, _, _, _, _, _, _, _, _, _, _, rfl⟩

/-- A move of the device's drives, its list of levels, the schedule or the context. -/
theorem WithinDeviceReach.mk (s : State) (devClk devData dev sched ctx) :
    WithinDeviceReach s { s with devClk := devClk, devData := devData, dev := dev, sched := sched, ctx := ctx } :=
  ⟨_, _, _, _, _, _, _, _, _, _, _, _, rfl⟩

theorem runPhase_withinReach (ph : Phase) (s : State) : WithinDeviceReach s (runPhase ph s) := by
  obtain ⟨_, _, _, _, _, _, _, e⟩ := runPhase_frame ph s
  exact ⟨_, _, _, _, _, _, _, _, _, _, _, _, e⟩

theorem clockEdge_withinReach {d : Bool} {s t : State} (h : clockEdge d s = .next t) : WithinDeviceReach s t := by
  have moved := WithinDeviceReach.mk s .low (driveOf d) s.dev s.sched s.ctx
  rcases clockEdge_cases h with rfl | ⟨-, ph, -, rfl⟩
  · exact moved
  · exact moved.trans (runPhase_withinReach ph _)

theorem setDeviceLines_withinReach {c d : Drive} {s t : State} (h : setDeviceLines c d s = .next t) :
    WithinDeviceReach s t := by
  have moved := WithinDeviceReach.mk s c d s.dev s.sched s.ctx
  rcases setDeviceLines_cases h with rfl | ⟨-, ph, -, rfl⟩
  · exact moved
  · exact moved.trans (runPhase_withinReach ph _)

theorem deviceStep_withinReach {s t : State} (h : deviceStep s = .next t) : WithinDeviceReach s t := by
  rcases deviceStep_cases h with rfl | ⟨d, rest, -, h⟩
  · exact .mk t t.devClk t.devData t.dev t.sched t.ctx
  · exact (WithinDeviceReach.mk s s.devClk s.devData rest s.sched s.ctx).trans (clockEdge_withinReach h)

/-- A listed turn is the one a step takes (R71). -/
theorem step_listed {s : State} {u : Turn} {rest : List Turn} (hs : s.sched = u :: rest) :
    step s = takeTurn u { s with sched := rest } := by
  unfold step nextTurn
  rw [hs]

/-- The turn that invokes an EDGE event runs its meaning in interrupt context (R264). -/
theorem takeTurn_edge (d : Bool) (s : State) :
    takeTurn (invoke (.edge d)) s = mapNext leaveContext (clockEdge d (enterContext .interrupt s)) := by
  cases d <;> rfl

theorem takeTurn_edge_withinReach {d : Bool} {s t : State} (h : takeTurn (invoke (.edge d)) s = .next t) :
    WithinDeviceReach s t := by
  rw [takeTurn_edge] at h
  obtain ⟨v, hv, rfl⟩ := mapNext_eq_next h
  exact ((WithinDeviceReach.mk s s.devClk s.devData s.dev s.sched .interrupt).trans (clockEdge_withinReach hv)).trans
    (.mk v v.devClk v.devData v.dev v.sched .mainline)

/-- Settles O60: the three kinds of turn reach `WithinDeviceReach` only. -/
theorem deviceCannotReachTheSession : Obligations.DeviceCannotReachTheSession := by
  intro s t u rest hs hu h
  rw [step_listed hs] at h
  have reach : WithinDeviceReach { s with sched := rest } t := by
    rcases hu with rfl | ⟨c, d, rfl⟩ | ⟨d, rfl⟩
    · exact deviceStep_withinReach h
    · exact setDeviceLines_withinReach h
    · exact takeTurn_edge_withinReach h
  obtain ⟨_, _, _, _, _, _, _, _, _, _, _, _, rfl⟩ := reach
  exact ⟨rfl, rfl, rfl, rfl, rfl, rfl, rfl, rfl, rfl, rfl, rfl, rfl, rfl, rfl, rfl, rfl, rfl, rfl⟩

/-- Settles O53: reset is disarmed, so that the edge is lost (R45). -/
theorem resetLeavesTheBlockInert : Obligations.ResetLeavesTheBlockInert := by
  refine ⟨rfl, rfl, rfl, rfl, rfl, rfl, rfl, rfl, rfl, rfl, rfl, rfl, rfl, rfl, rfl, fun d => ?_⟩
  rw [step_listed (u := invoke (.edge d)) (rest := []) rfl, takeTurn_edge, clockEdge, atFall_lost engine (.inl rfl)]
  rfl

end Sys2Proof.Machine
end

section
/-! ## One-step claims about the registers -/
namespace Sys2Proof.Machine

theorem levelOf_eq_false {d : Drive} : levelOf d = false ↔ d = .low := by cases d <;> decide

/-- Settles O9. -/
theorem lineLevelsAreWiredAnd : Obligations.LineLevelsAreWiredAnd := by
  intro s
  refine ⟨?_, ?_, rfl⟩
  · rw [clkLine, Bool.and_eq_false_iff, levelOf_eq_false, levelOf_eq_false]
  · rw [dataLine, Bool.and_eq_false_iff, levelOf_eq_false, levelOf_eq_false]

/-- An idle main line begins an operation with the operation's first sub-step at once (R71). -/
theorem onMainLine_idle (m : Micro) (ms : List Micro) {s : State} (h : MainIdle s) :
    onMainLine (m :: ms) s = runMicro m { s with main := ms } := by
  simp only [onMainLine, beginMain, h.1, h.2, if_true, mainStep]

theorem withMain_nil {s : State} (h : MainIdle s) : { s with main := [] } = s := by rw [← h.2]

/-- Settles O33. -/
theorem initializePortSetsThePort : Obligations.InitializePortSetsThePort := by
  intro s h
  calc exec .initializePort s = runMicro .initPort { s with main := [] } := onMainLine_idle .initPort [] h
    _ = .next (initializePort s) := by rw [withMain_nil h]; rfl

/-- What a step has done that leaves `Error`: `initialize_port` or W6 of `write_byte` (R185, R192). -/
def Reinitialized (t : State) : Prop :=
  t.fc = 11 ∧ t.wr = 0 ∧ t.rd = 0 ∧ t.count = 0 ∧
    ((t.ps = .read ∧ t.irqArmed = true ∧ t.clkDrive = .released ∧ t.dataDrive = .released) ∨
     (t.ps = .write ∧ t.par = parity t.sr))

theorem Effect.leaves_error {s t : State} (e : Effect s t) (hs : s.ps = .error) : t.ps = .error ∨ Reinitialized t := by
  cases e with
  | aside ha | raise _ ha | pop _ ha | buttons _ ha | countError _ ha =>
    obtain ⟨_, _, _, _, _, _, _, _, _, rfl⟩ := ha
    simp [putButtons, hs]
  | phase hp => exact .inl (by rw [runPhase_of_error (u := { s with clkDrive := .low }) hs hp]; exact hs)
  | clear | addX | subY | addZ => exact .inl hs
  | initPort | session => exact .inr ⟨rfl, rfl, rfl, rfl, .inl ⟨rfl, rfl, rfl, rfl⟩⟩
  | setup v => exact .inr ⟨rfl, rfl, rfl, rfl, .inr ⟨rfl, writeSetup_par v s⟩⟩

theorem Move.leaves_error {u v : State} (hm : Move u v) (hu : u.ps = .error) : v.ps = .error ∨ Reinitialized v := by
  cases hm with
  | none => exact .inl hu
  | phase _ hp => exact .inl (by rw [runPhase_of_error hu hp]; exact hu)
  | micro _ hr => exact (runMicro_effect hr).leaves_error hu
  | access a => exact .inl (by cases a <;> exact hu)
  | push v _ hp _ => rw [hu] at hp; cases hp

/-- Settles O56: bookkeeping keeps the port, and the only moves out of `Error` are the reinitializations. -/
theorem errorIsLeftOnlyByReinitialization : Obligations.ErrorIsLeftOnlyByReinitialization := by
  intro s t h hs ht
  obtain ⟨u, v, ⟨_, _, _, _, _, _, _, rfl, -⟩, hm, ⟨_, _, _, _, _, _, _, rfl, -⟩⟩ := step_prepared_move h
  exact (hm.leaves_error hs).resolve_left ht

theorem Effect.errcnt {s t : State} (e : Effect s t) :
    t.errcnt = s.errcnt ∨ (t.errcnt = s.errcnt + 1 ∧ s.ps = .error) := by
  cases e with
  | aside ha | raise _ ha | pop _ ha | buttons _ ha =>
    obtain ⟨_, _, _, _, _, _, _, _, _, rfl⟩ := ha
    exact .inl rfl
  | phase hp =>
    obtain ⟨_, _, _, _, _, _, _, e⟩ := runPhase_frame _ { s with clkDrive := .low }
    exact .inl (by rw [e])
  | clear | initPort | session | setup | addX | subY | addZ => exact .inl rfl
  | countError he ha =>
    obtain ⟨_, _, _, _, _, _, _, _, _, rfl⟩ := ha
    exact .inr ⟨rfl, he⟩

theorem Move.errcnt {u v : State} (hm : Move u v) :
    v.errcnt = u.errcnt ∨ (v.errcnt = u.errcnt + 1 ∧ u.ps = .error) := by
  cases hm with
  | none => exact .inl rfl
  | phase _ hp =>
    obtain ⟨_, _, _, _, _, _, _, e⟩ := runPhase_frame _ u
    exact .inl (by rw [e])
  | micro _ hr => exact (runMicro_effect hr).errcnt
  | access a => exact .inl (by cases a <;> rfl)
  | push v _ _ _ =>
    obtain ⟨_, _, _, _, _, e⟩ := stopPushing_frame v u
    exact .inl (by rw [e])

/-- Settles O57: P4 is the only move that writes `errcnt` (R229). -/
theorem errorCounterCountsUpByOne : Obligations.ErrorCounterCountsUpByOne := by
  intro s t h
  obtain ⟨u, v, ⟨_, _, _, _, _, _, _, rfl, -⟩, hm, ⟨_, _, _, _, _, _, _, rfl, -⟩⟩ := step_prepared_move h
  exact hm.errcnt

/-- Settles O51: the writers of `step_writes`, one accumulator at a time. -/
theorem accumulatorsChangeOnlyByTheirWriters : Obligations.AccumulatorsChangeOnlyByTheirWriters := by
  intro s t h
  cases step_writes h with
  | kept hk =>
    obtain ⟨hx, hy, hz, -⟩ := hk
    exact ⟨.inl hx, .inl hy, .inl hz⟩
  | session hs hz =>
    obtain ⟨hx, hy, hz, -, hsess, -⟩ := hz
    exact ⟨.inr (.inr (.inr ⟨hs, hx, hsess⟩)), .inr (.inr (.inr ⟨hs, hy, hsess⟩)), .inr (.inr (.inr ⟨hs, hz, hsess⟩))⟩
  | addX _ hm => exact ⟨.inr (.inl ⟨_, _, hm, rfl⟩), .inl rfl, .inl rfl⟩
  | subY _ hm => exact ⟨.inl rfl, .inr (.inl ⟨_, _, hm, rfl⟩), .inl rfl⟩
  | addZ _ hm => exact ⟨.inl rfl, .inl rfl, .inr (.inl ⟨_, _, hm, rfl⟩)⟩
  | wheelRecord => exact ⟨.inl rfl, .inl rfl, .inl rfl⟩
  | @access a _ _ hc =>
    cases a with
    | readX | readY | readZ | readB | readSess | readWheel | readErrcnt => exact ⟨.inl rfl, .inl rfl, .inl rfl⟩
    | writeX d => exact ⟨.inr (.inr (.inl ⟨_, _, hc, rfl⟩)), .inl rfl, .inl rfl⟩
    | writeY d => exact ⟨.inl rfl, .inr (.inr (.inl ⟨_, _, hc, rfl⟩)), .inl rfl⟩
    | writeZ d => exact ⟨.inl rfl, .inl rfl, .inr (.inr (.inl ⟨_, _, hc, rfl⟩))⟩

/-- Settles O59: the writers of `step_writes`. -/
theorem configurationAndWheelHaveOneWriter : Obligations.ConfigurationAndWheelHaveOneWriter := by
  intro s t h
  cases step_writes h with
  | kept hk =>
    obtain ⟨-, -, -, hw, hen, hrate, hbits⟩ := hk
    exact ⟨hen, hrate, hbits, .inl hw⟩
  | session hs hz =>
    obtain ⟨-, -, -, hw, hsess, hc, hen, hrate, hbits⟩ := hz
    exact ⟨hen, hrate, hbits, .inr (.inl ⟨hs, hw, hsess, hc⟩)⟩
  | addX | subY | addZ => exact ⟨rfl, rfl, rfl, .inl rfl⟩
  | wheelRecord _ hm => exact ⟨rfl, rfl, rfl, .inr (.inr ⟨_, hm, rfl⟩)⟩
  | @access a _ _ _ => cases a <;> exact ⟨rfl, rfl, rfl, .inl rfl⟩

end Sys2Proof.Machine
end

section
/-! ## The turn a step takes
SUPPORT. What the step is for each kind of listed turn (20_memory.md R71). -/
namespace Sys2Proof.Machine

theorem issue_of_decode (c : Context) {w : List Byte} {i : Instr} (s : State) (h : decode w = .ok i) :
    issue c w s = mapNext leaveContext (exec i (enterContext c s)) := by
  simp only [issue, h]

theorem issue_of_reject (c : Context) {w : List Byte} {r : Reject} (s : State) (h : decode w = .reject r) :
    issue c w s = .refused (.badWord r) := by
  simp only [issue, h]

/-- Settles O4: the listed turn is the invocation that `issue` runs. -/
theorem stepRunsTheDecodedInstruction : Obligations.StepRunsTheDecodedInstruction := by
  intro s c w rest hs
  rw [step_listed hs]
  exact ⟨fun i hi => issue_of_decode c _ hi, fun r hr => issue_of_reject c _ hr⟩

/-- A move of the device's drives makes the clock line fall exactly when the line was high and the device's clock drive
goes low: a high line means that the host lets it go (R40). -/
theorem clkLine_falls_iff (s : State) (c d : Drive) :
    (clkLine s && !clkLine { s with devClk := c, devData := d }) = true ↔ clkLine s = true ∧ c = .low := by
  rw [Bool.and_eq_true, Bool.not_eq_true']
  refine and_congr_right fun hhigh => ?_
  have hhost : levelOf s.clkDrive = true := (Bool.and_eq_true_iff.mp hhigh).1
  rw [clkLine, hhost, Bool.true_and, levelOf_eq_false]

/-- A lines turn is an invocation exactly when the clock line falls while armed (R40, R45, R130). -/
theorem setDeviceLines_eq (c d : Drive) (s : State) :
    setDeviceLines c d s =
      if clkLine s = true ∧ c = .low ∧ s.irqArmed = true then engine { s with devClk := c, devData := d }
      else .next { s with devClk := c, devData := d } := by
  simp only [setDeviceLines, clkLine_falls_iff, fallingEdge, ← ite_and, and_assoc]

/-- An idle machine does not change (R291). -/
theorem step_of_idle {s : State} (hs : s.sched = []) (hm : s.main = []) (hd : s.dev = []) (hc : s.cons = []) :
    step s = .next s := by
  have idleTurn : step s = mainStep s := by simp only [step, nextTurn, defaultTurn, mainWaits, hs, hc, hd, hm]
  rw [idleTurn, mainStep, hm]

/-- Settles O5: each listed turn is the one `takeTurn` runs, and with nothing to do the default order moves nobody. -/
theorem stepMovesTheListedAgent : Obligations.StepMovesTheListedAgent := by
  intro s rest
  exact ⟨fun h => step_listed h, fun h => step_listed h, fun h => step_listed h,
    fun c d h => (step_listed h).trans (setDeviceLines_eq c d { s with sched := rest }), step_of_idle⟩

end Sys2Proof.Machine
end

section
/-! ## The cells of the ring
SUPPORT. A move leaves every cell, or is the one push of a stop phase (20_memory.md R61, 41_ring_buffer.md R160). -/
namespace Sys2Proof.Machine

/-- Every cell is as before, or one byte was stored at `wr`, with `wr` and `count` one up (R160). -/
def AtMostPushed (s t : State) : Prop :=
  t.ring = s.ring ∨ ∃ v, t.ring = Memory.write s.ring s.wr.toNat v ∧ t.wr = s.wr + 1 ∧ t.count = s.count + 1

theorem ringPush_atMostPushed (v : Byte) (s : State) : AtMostPushed s (ringPush v s) := by
  rcases ringPush_cases v s with ⟨-, e⟩ | ⟨-, e⟩ <;> rw [e]
  · exact .inl rfl
  · exact .inr ⟨v, rfl, rfl, rfl⟩

theorem stopPushing_atMostPushed (v : Byte) (s : State) : AtMostPushed s (countDown (stopPushing v s)) := by
  unfold stopPushing
  split
  · exact ringPush_atMostPushed v s
  · exact .inl rfl

/-- `RD_STOP` is the only phase that stores a byte (R136). -/
theorem runPhase_atMostPushed (ph : Phase) (s : State) : AtMostPushed s (runPhase ph s) := by
  cases ph with
  | rdStop => exact stopPushing_atMostPushed s.sr s
  | errNop | rdData | wrData | wrParity | wrStop => exact .inl rfl
  | rdStart => simp only [runPhase, readStart]; split <;> exact .inl rfl
  | rdParity => simp only [runPhase, readParity]; split <;> exact .inl rfl
  | wrAck => simp only [runPhase, writeAck]; split <;> exact .inl rfl

/-- The main line stores no byte itself: only `clk_low` can, by the edge it makes (R175). -/
theorem Effect.atMostPushed {s t : State} (e : Effect s t) : AtMostPushed s t := by
  cases e with
  | phase _ => exact runPhase_atMostPushed _ { s with clkDrive := .low }
  | aside ha | raise _ ha | pop _ ha | buttons _ ha | countError _ ha =>
    obtain ⟨_, _, _, _, _, _, _, _, _, rfl⟩ := ha
    exact .inl rfl
  | clear | initPort | session | setup | addX | subY | addZ => exact .inl rfl

theorem Move.atMostPushed {u v : State} (hm : Move u v) : AtMostPushed u v := by
  cases hm with
  | none => exact .inl rfl
  | phase => exact runPhase_atMostPushed _ u
  | micro _ hr => exact (runMicro_effect hr).atMostPushed
  | access a => exact .inl (by cases a <;> rfl)
  | push v => exact stopPushing_atMostPushed v u

/-- Bookkeeping on either side of a move reaches neither the cells nor `wr` and `count`. -/
theorem step_atMostPushed {s t : State} (h : step s = .next t) : AtMostPushed s t := by
  obtain ⟨u, v, ⟨_, _, _, _, _, _, _, rfl, -⟩, hm, ⟨_, _, _, _, _, _, _, rfl, -⟩⟩ := step_prepared_move h
  exact hm.atMostPushed

/-- Settles O58: where a cell differs the step was the push, which writes the cell at `wr` only. -/
theorem onlyAPushWritesTheCells : Obligations.OnlyAPushWritesTheCells := by
  intro s t h a ha
  rcases step_atMostPushed h with e | ⟨v, e, hwr, hcount⟩ <;> rw [e] at ha
  · exact absurd rfl ha
  · exact ⟨not_imp_comm.mp (Memory.read_write_other s.ring v) ha, hwr, hcount⟩

end Sys2Proof.Machine
end

section
/-! ## Operations in a context that may not run them
SUPPORT. Each shared operation is refused outside its context (20_memory.md R77, 60_exceptions.md R264). -/
namespace Sys2Proof.Machine

theorem atSelector_refused (p : PortState) (f : BitVec 4) (ph : Phase) {s : State} (h : s.ctx ≠ .interrupt) :
    atSelector p f ph s = .refused .wrongContext := if_neg h

theorem fromDevice_refused (l : List Bool) {s : State} (h : s.ctx ≠ .interrupt) :
    fromDevice l s = .refused .wrongContext := if_neg h

theorem execEdge_refused (d : Bool) {s : State} (h : s.ctx ≠ .interrupt) : execEdge d s = .refused .wrongContext :=
  if_neg h

theorem execPush_refused (v : Byte) {s : State} (h : s.ctx ≠ .interrupt) : execPush v s = .refused .wrongContext :=
  if_neg h

theorem onMainLine_refused (p : List Micro) {s : State} (h : s.ctx = .interrupt) :
    onMainLine p s = .refused .wrongContext := if_neg (by rw [h]; nofun)

theorem onEntry_refused (p : List Micro) {s : State} (h : s.ctx = .interrupt) :
    onEntry p s = .refused .wrongContext := if_pos h

theorem byConsumer_refused (p : List Access) {s : State} (h : s.ctx = .interrupt) :
    byConsumer p s = .refused .wrongContext := if_pos h

/-- A row of interrupt context is an edge of the device, and refused outside it (R264). -/
theorem exec_refused_outside_interrupt {i : Instr} {s : State} (hi : contextOf i = .interrupt)
    (hc : s.ctx ≠ .interrupt) : exec i s = .refused .wrongContext := by
  cases i with
  | errNop | rdStart | rdDataB0 | rdDataB1 | rdDataB2 | rdDataB3 | rdDataB4 | rdDataB5 | rdDataB6 | rdDataB7 | rdParity
  | rdStop | wrDataB0 | wrDataB1 | wrDataB2 | wrDataB3 | wrDataB4 | wrDataB5 | wrDataB6 | wrDataB7 | wrParity | wrStop
  | wrAck => exact atSelector_refused _ _ _ hc
  | frameRx | rspAck | rspBatOk | rspIdStd | rspIdWheel => exact fromDevice_refused _ hc
  | edge d => exact execEdge_refused d hc
  | push v => exact execPush_refused v hc
  | _ => cases hi

/-- A row of the main line or of the consumer is refused in interrupt context; a packet row tests its length first
(R77, R264, R265; log 18). -/
theorem exec_refused_in_interrupt {i : Instr} {s : State} (hi : contextOf i ≠ .interrupt) (hp : packetMode i = none)
    (hc : s.ctx = .interrupt) : exec i s = .refused .wrongContext := by
  cases i with
  | cmdReset | cmdGetId | cmdSetRate | cmdSetRes | cmdEnable | argRate200 | argRate100 | argRate80 | argRes8cpmm
  | argRateCfg | pop | clear | clkLow | clkRelease | dataLow | dataRelease | delay | irqDisarm | irqArm | initializePort
  | writeByte | recvByteBlocking | sendByteWithAck => exact onMainLine_refused _ hc
  | frameTx v p k => exact onMainLine_refused _ (s := { s with dev := s.dev ++ txClockLevels k }) hc
  | startSession | processAvailableData => exact onEntry_refused _ hc
  | consumerRead | consumerDrain => exact byConsumer_refused _ hc
  | packet3 | packet4 => cases hp
  | _ => exact absurd rfl hi

theorem execPacket3_in_interrupt (i : BitVec 5) (m : BitVec 3) (dx dy : Byte) {s : State} (hc : s.ctx = .interrupt) :
    execPacket3 i m dx dy s = .refused (if s.wheel then .packetLength else .wrongContext) := by
  rw [execPacket3, onMainLine_refused _ hc]
  split <;> rfl

theorem execPacket4_in_interrupt (i : BitVec 5) (m : BitVec 3) (dx dy dz : Byte) {s : State} (hc : s.ctx = .interrupt) :
    execPacket4 i m dx dy dz s = .refused (if s.wheel then .wrongContext else .packetLength) := by
  rw [execPacket4, onMainLine_refused _ hc]
  split <;> rfl

/-- Settles O52: the listed rows by the context `contextOf` gives them, and the packet rows by their two tests. -/
theorem wrongContextIsRefused : Obligations.WrongContextIsRefused := by
  intro s
  refine ⟨fun hc d v p g i hi => exec_refused_outside_interrupt ?_ hc, fun hc v p k t dx dy dz i hi => ?_,
    fun hc i m dx dy dz => ⟨execPacket3_in_interrupt i m dx dy hc, execPacket4_in_interrupt i m dx dy dz hc⟩⟩
  · revert i
    simp [phaseRows, phaseTable, contextOf]
  · obtain ⟨hctx, hmode⟩ : contextOf i ≠ .interrupt ∧ packetMode i = none := by
      revert i
      simp [sendingRows, contextOf, packetMode]
    exact exec_refused_in_interrupt hctx hmode hc

end Sys2Proof.Machine
end

section
/-! ## Selected and reserved pairs
SUPPORT. The table of R100 read from both sides: the pairs that select a phase, and the reserved ones (30_encoding.md R100
to R102). -/
namespace Sys2Proof.Machine

/-- The rows of R100 are the phases that their pairs select. -/
theorem phaseTable_selects {row : PortState × BitVec 4 × Instr} (h : row ∈ phaseTable) :
    ∃ ph, phaseAt row.1 row.2.1 = some ph ∧ exec row.2.2 = atSelector row.1 row.2.1 ph := by
  fin_cases h <;> exact ⟨_, rfl, rfl⟩

/-- At its own pair a phase row is what a handled EDGE runs, once the device's lines stand as at the edge (R130, R132). -/
theorem edge_eq_selected_row (d : Bool) {s : State} {i : Instr} {p : PortState} {f : BitVec 4} {ph : Phase}
    (hph : phaseAt p f = some ph) (hi : exec i = atSelector p f ph) (hs : Handles s p f) :
    exec (.edge d) s = exec i { s with devClk := .low, devData := driveOf d } := by
  obtain ⟨hctx, ha, hc, hp, hf⟩ := hs
  rw [hi, atSelector_selected ph (s := { s with devClk := .low, devData := driveOf d }) hctx ha hc hp hf]
  exact (execEdge_interrupt d hctx).trans (clockEdge_handled d ha hc (by rw [hp, hf, hph]))

/-- Settles O6: each row of R100 is the phase its pair selects, and `Error` selects ERR_NOP with any cursor. -/
theorem edgeRunsTheSelectedPhase : Obligations.EdgeRunsTheSelectedPhase := by
  intro s d hctx ha hc
  constructor
  · intro row hrow hp hf
    obtain ⟨ph, hph, hi⟩ := phaseTable_selects hrow
    exact edge_eq_selected_row d hph hi ⟨hctx, ha, hc, hp, hf⟩
  · intro hp
    exact edge_eq_selected_row d (ph := .errNop) rfl rfl ⟨hctx, ha, hc, hp, rfl⟩

theorem readPhase_some_inRange {n : Nat} {ph : Phase} (h : readPhase n = some ph) : 1 ≤ n ∧ n ≤ 11 := by
  unfold readPhase at h
  split at h <;> cases h <;> decide

theorem writePhase_some_inRange {n : Nat} {ph : Phase} (h : writePhase n = some ph) : 1 ≤ n ∧ n ≤ 11 := by
  unfold writePhase at h
  split at h <;> cases h <;> decide

/-- A reserved pair selects no phase (R102). -/
theorem phaseAt_reserved {p : PortState} {f : BitVec 4} (hp : p ≠ .error) (hf : f = 0 ∨ 11 < f.toNat) :
    phaseAt p f = none := by
  have outOfRange : ¬ (1 ≤ f.toNat ∧ f.toNat ≤ 11) := by
    rcases hf with rfl | hf
    · decide
    · omega
  rw [Option.eq_none_iff_forall_ne_some]
  intro ph h
  cases p with
  | error => exact hp rfl
  | read => exact outOfRange (readPhase_some_inRange h)
  | write => exact outOfRange (writePhase_some_inRange h)

theorem engine_of_noPhase {s : State} (h : phaseAt s.ps s.fc = none) : engine s = .refused .noPhase := by
  simp only [engine, h]

/-- A selector word is its two fields, the Port State above the cursor (R101). -/
theorem selector_toNat (p : BitVec 2) (f : BitVec 4) :
    (0#2 ++ p ++ f : BitVec 8).toNat = 16 * p.toNat + f.toNat := by
  rw [BitVec.toNat_append, BitVec.toNat_append, BitVec.toNat_zero, Nat.zero_shiftLeft, Nat.zero_or,
    ← Nat.shiftLeft_add_eq_or_of_lt f.isLt, Nat.shiftLeft_eq, Nat.mul_comm]

/-- The six-bit words that R100 gives no row (R102). -/
theorem decodeSelector_reserved {w : Byte} (hlo : 0x10 ≤ w.toNat) (hhi : w.toNat < 0x40)
    (hread : ¬ (0x11 ≤ w.toNat ∧ w.toNat ≤ 0x1B)) (hwrite : ¬ (0x21 ≤ w.toNat ∧ w.toNat ≤ 0x2B)) :
    decodeSelector w = .reject .reservedSelector := by
  unfold decodeSelector
  split
  case h_23 => rw [if_neg (by omega), if_pos hhi]
  all_goals omega

theorem decodeSelector_of_reserved_pair {p : BitVec 2} {f : BitVec 4} (h : p = 3 ∨ (p ≠ 0 ∧ (f = 0 ∨ 11 < f.toNat))) :
    decodeSelector (0#2 ++ p ++ f : BitVec 8) = .reject .reservedSelector := by
  have hf := f.isLt
  have hp := p.isLt
  have h' : p.toNat = 3 ∨ (p.toNat ≠ 0 ∧ (f.toNat = 0 ∨ 11 < f.toNat)) := by
    simpa [BitVec.toNat_eq] using h
  apply decodeSelector_reserved <;> rw [selector_toNat] <;> omega

/-- Settles O3: the decoder finds no row for a reserved word, and the invocation no phase for a reserved pair. -/
theorem reservedSelectorsAreRefused : Obligations.ReservedSelectorsAreRefused := by
  constructor
  · intro p f h
    exact decodeSelector_of_reserved_pair h
  · intro s d hctx ha hc hp hf
    calc exec (.edge d) s = engine { s with devClk := .low, devData := driveOf d } :=
          (execEdge_interrupt d hctx).trans (atFall_handled engine (s := { s with devData := driveOf d }) ha hc)
      _ = .refused .noPhase := engine_of_noPhase (phaseAt_reserved hp hf)

end Sys2Proof.Machine
end

section
/-! ## Words of the spec, and the parity bit -/
namespace Sys2Proof.Machine

/-- Settles O2: thirteen fixed words, evaluated by the decoder. -/
theorem specWordsDecode : Obligations.SpecWordsDecode := by
  unfold Obligations.SpecWordsDecode
  decide

/-- Exclusive-or over a list of bits flips the start value once for each one bit. -/
theorem foldl_xor_eq (bit : Nat → Bool) (js : List Nat) (a : Bool) :
    js.foldl (fun acc j => acc ^^ bit j) a = (a ^^ decide ((js.filter bit).length % 2 = 1)) := by
  induction js generalizing a with
  | nil => simp
  | cons j js ih =>
    rw [List.foldl_cons, ih]
    cases hj : bit j
    · simp [hj]
    · rcases Nat.mod_two_eq_zero_or_one (js.filter bit).length with h | h <;> simp [hj, h, Nat.add_mod]

/-- `P(v)` is the exclusive-or of 1 and the bits of `v` (R95). -/
theorem parity_eq_foldl (v : Byte) : parity v = (List.range 8).foldl (fun acc j => acc ^^ v.getLsbD j) true := by
  simp only [parity, List.range, List.range.loop, List.foldl]

/-- Settles O10: the start value 1 is flipped once for each one bit. -/
theorem parityIsOdd : Obligations.ParityIsOdd := by
  intro v
  rw [parity_eq_foldl, foldl_xor_eq, Bool.true_xor, ← decide_not]
  simp only [Nat.mod_two_ne_one]

end Sys2Proof.Machine
end

section
/-! ## Whole frames on the wire (30_encoding.md R91, R94) -/
namespace Sys2Proof.Machine

/-- One handled edge of the device adds the level that the selected phase leaves on the host's side. -/
theorem hostLevels_handled {n : Nat} {s : State} {d : Bool} {ds : List Bool} {ph : Phase} (hd : s.dev = d :: ds)
    (ha : s.irqArmed = true) (hc : s.clkDrive = .released) (hp : phaseAt s.ps s.fc = some ph) :
    hostLevels (n + 1) s =
      levelOf (runPhase ph { s with dev := ds, devClk := .low, devData := driveOf d }).dataDrive ::
        hostLevels n (runPhase ph { s with dev := ds, devClk := .low, devData := driveOf d }) := by
  have hstep : deviceStep s = .next (runPhase ph { s with dev := ds, devClk := .low, devData := driveOf d }) := by
    rw [deviceStep, hd]
    exact clockEdge_handled d (s := { s with dev := ds }) ha hc hp
  rw [hostLevels, hstep]

/-- One bit of the Shift Register goes out (R137). -/
theorem hostLevels_data {n : Nat} {s : State} {d : Bool} {ds : List Bool} (hd : s.dev = d :: ds) (ha : s.irqArmed = true)
    (hc : s.clkDrive = .released) (hp : s.ps = .write) (hf : writePhase s.fc.toNat = some .wrData) :
    hostLevels (n + 1) s = s.sr.getLsbD 0 :: hostLevels n
      { s with dev := ds, devClk := .low, devData := driveOf d, fc := s.fc - 1,
               dataDrive := driveOf (s.sr.getLsbD 0), sr := s.sr >>> 1 } := by
  rw [hostLevels_handled (ph := .wrData) hd ha hc (by rw [hp]; exact hf)]
  exact congrArg (· :: _) (levelOf_driveOf _)

/-- The parity bit and the stop bit go out (R138, R139). -/
theorem hostLevels_parity_stop {s : State} {d e : Bool} {ds : List Bool} (hd : s.dev = d :: e :: ds)
    (ha : s.irqArmed = true) (hc : s.clkDrive = .released) (hp : s.ps = .write) (hf : s.fc = 3) :
    hostLevels 2 s = [s.par, true] := by
  rw [hostLevels_handled (ph := .wrParity) hd ha hc (by rw [hp, hf]; rfl)]
  refine congrArg₂ List.cons (levelOf_driveOf s.par) ?_
  rw [hostLevels_handled (ph := .wrStop) (d := e) (ds := ds) (by rfl) (by exact ha) (by exact hc)]
  · rfl
  · change phaseAt s.ps (s.fc - 1) = _
    rw [hp, hf]
    rfl

/-- `WR_DATA` is selected from cursor 4 up to 11 (R100). -/
theorem writePhase_data {n : Nat} (hn : n < 8) : writePhase (n + 4) = some .wrData := by
  interval_cases n <;> rfl

/-- With `n` bits of the Shift Register still to be sent, the host leaves on the line these bits from the lowest up, the
parity bit, and the stop bit 1, whatever levels the device gives (R137 to R139). -/
theorem hostLevels_write {n : Nat} {s : State} (hn : n ≤ 8) (hdev : n + 2 ≤ s.dev.length) (ha : s.irqArmed = true)
    (hc : s.clkDrive = .released) (hp : s.ps = .write) (hf : s.fc.toNat = n + 3) :
    hostLevels (n + 2) s = (List.range n).map (fun j => s.sr.getLsbD j) ++ [s.par, true] := by
  induction n generalizing s with
  | zero =>
    obtain ⟨d, l, hd⟩ := List.exists_cons_of_length_pos (l := s.dev) (by omega)
    obtain ⟨e, ds, rfl⟩ := List.exists_cons_of_length_pos (l := l) (by rw [hd, List.length_cons] at hdev; omega)
    exact hostLevels_parity_stop hd ha hc hp (BitVec.eq_of_toNat_eq hf)
  | succ n ih =>
    obtain ⟨d, ds, hd⟩ := List.exists_cons_of_length_pos (l := s.dev) (by omega)
    rw [hd, List.length_cons] at hdev
    have hfc : (s.fc - 1).toNat = n + 3 := by
      rw [BitVec.toNat_sub_of_le (by rw [BitVec.le_def, hf]; simp), hf]
      rfl
    rw [hostLevels_data hd ha hc hp (by rw [hf]; exact writePhase_data hn), ih (Nat.le_of_succ_le hn)]
    · simp [List.range_succ_eq_map, Nat.add_comm]
    · exact Nat.le_of_succ_le_succ hdev
    · exact ha
    · exact hc
    · exact hp
    · exact hfc

/-- A whole write frame: the ten levels the host leaves are a correct read frame without its start bit (R91, R94). -/
theorem hostLevels_writeFrame {s : State} (hdev : 10 ≤ s.dev.length) (ha : s.irqArmed = true)
    (hc : s.clkDrive = .released) (hp : s.ps = .write) (hf : s.fc = 11) :
    hostLevels 10 s = (frameLevels s.sr s.par).tail :=
  hostLevels_write (n := 8) (Nat.le_refl 8) hdev ha hc hp (by rw [hf]; rfl)

/-- Settles O23: what the host leaves on the line in a write frame is the read frame that `read_frame` takes in. -/
theorem writtenFrameReadsBack : Obligations.WrittenFrameReadsBack := by
  intro w r v hwa hwc hwd hwp hwf hwsr hwpar hwdev hra hrc hrd hrp hrf ⟨hcells, _, _⟩ hroom
  have hlevels : levelOf w.dataDrive :: hostLevels 10 w = rxFrame v := by
    rw [hostLevels_writeFrame (by rw [hwdev]; rfl) hwa hwc hwp hwf, hwd, hwsr, hwpar]
    rfl
  rw [hlevels]
  refine ⟨_, read_frame (k := 0) (rest := []) (ds := []) (.inl rfl) (List.append_nil _).symm hra hrc hrd hrp hrf hroom,
    hrp, hrf, rfl, rfl, rfl, ?_⟩
  exact Memory.read_write_same hcells _ v

/-- Settles O24: W1 at the invocation, then W2 to W7, then the write frame. -/
theorem frameTxSendsAndSamples : Obligations.FrameTxSendsAndSamples := by
  intro s v k hmain hdev
  refine ⟨_, onMainLine_idle .irqDisarm (afterDisarm v) (s := { s with dev := s.dev ++ txClockLevels k }) hmain, ?_⟩
  rw [request_to_send (k := 11) (rest := List.replicate 11 .device) (ms := []) (v := v) (.inl rfl) rfl rfl,
    write_frame (k := 0) (rest := []) (ds := []) (j := k) (.inl rfl) (by simp [hdev]) rfl rfl rfl rfl]
  simp [hmain.2, hdev]

end Sys2Proof.Machine
end

section
/-! ## Packet rows (30_encoding.md R113 to R116, 43_mouse_session.md R227) -/
namespace Sys2Proof.Machine

/-- Byte 0 keeps its button field and loses bits 7 to 3 (R113, R115). -/
theorem buttonsOf_byte0 (i : BitVec 5) (m : BitVec 3) : buttonsOf (i ++ m : BitVec 8) = m.setWidth 8 :=
  calc buttonsOf (i ++ m) = (i ++ m) &&& (0#5 ++ BitVec.allOnes 3) := rfl
    _ = 0#5 ++ m := by rw [BitVec.and_append, BitVec.and_zero, BitVec.and_allOnes]
    _ = m.setWidth 8 := (BitVec.setWidth_eq_append (by decide)).symm

/-- The movement bytes of a packet, X added and Y subtracted (R227). -/
theorem run_addX_subY {s : State} {dx dy : Byte} {ms : List Micro} {rest : List Turn} {k : Nat}
    (hs : s.sched = .main :: .main :: rest) (hm : s.main = .addX dx :: .subY dy :: ms) :
    runFor (k + 2) s = runFor k
      { s with sched := rest, main := ms, x := wrap s.accBits (s.x + dx.toInt),
               y := wrap s.accBits (s.y - dy.toInt) } := by
  refine (runFor_succ (k := k + 1) (step_main_next (.inl hs) hm rfl)).trans ?_
  exact runFor_succ (step_main_next (.inl rfl) rfl rfl)

/-- The wheel byte of a packet (R227). -/
theorem run_addZ {s : State} {dz : Byte} {ms : List Micro} {rest : List Turn} {k : Nat} (hs : s.sched = .main :: rest)
    (hm : s.main = .addZ dz :: ms) :
    runFor (k + 1) s = runFor k { s with sched := rest, main := ms, z := wrap s.accBits (s.z + dz.toInt) } :=
  runFor_succ (step_main_next (.inl hs) hm rfl)

/-- Settles O44: `b` is written at the invocation, and each further turn writes one accumulator. -/
theorem packetsAddTheirDeltas : Obligations.PacketsAddTheirDeltas := by
  intro s i m dx dy dz hmain
  refine ⟨fun hw => ?_, fun hw => ?_, fun hw => ?_, fun hw => ?_⟩
  · refine ⟨_, (if_neg (by rw [hw]; nofun)).trans (onMainLine_idle (.putB (i ++ m)) [.addX dx, .subY dy] hmain), ?_⟩
    rw [run_addX_subY (k := 0) (rest := []) (ms := []) rfl rfl]
    simp [putButtons, buttonsOf_byte0, hmain.2]
  · refine ⟨_, (if_pos hw).trans (onMainLine_idle (.putB (i ++ m)) [.addX dx, .subY dy, .addZ dz] hmain), ?_⟩
    rw [run_addX_subY (k := 1) (rest := [.main]) (ms := [.addZ dz]) rfl rfl,
      run_addZ (k := 0) (rest := []) (ms := []) rfl rfl]
    simp [putButtons, buttonsOf_byte0, hmain.2]
  · exact if_pos hw
  · exact if_neg (by rw [hw]; nofun)

end Sys2Proof.Machine
end

section
/-! ## One edge of each phase (40_bit_engine.md R131 to R140)
SUPPORT. What a phase with its decrement leaves, one lemma for each way it can end, and every phase row as one edge. -/
namespace Sys2Proof.Machine

/-- At its own pair a phase row runs its own phase, at the edge the row itself makes (R130, R132). -/
theorem atSelector_of_handles {p : PortState} {f : BitVec 4} (ph : Phase) {s : State} (h : Handles s p f) :
    atSelector p f ph s = .next (runPhase ph { s with devClk := .low }) := by
  obtain ⟨hctx, ha, hc, hp, hf⟩ := h
  exact atSelector_selected ph hctx ha hc hp hf

theorem runPhase_rdStart {s : State} (hp : s.ps = .read) (hf : s.fc = 11) :
    runPhase .rdStart s = { s with ps := if sample s then .error else .read, fc := 10 } := by
  rw [runPhase, readStart, countDown]
  split <;> simp [raisePortError, hp, hf]

/-- `shiftIn` puts the sample at bit 7, above the seven bits that move down (R96). -/
theorem shiftIn_eq (w : Byte) (d : Bool) : shiftIn w d = (w >>> 1) ||| (if d then 0x80 else 0) := by cases d <;> rfl

theorem runPhase_rdParity {s : State} (hp : s.ps = .read) (hf : s.fc = 2) :
    runPhase .rdParity s = { s with ps := if parity s.sr = sample s then .read else .error, fc := 1 } := by
  rw [runPhase, readParity, countDown]
  by_cases h : parity s.sr = sample s <;> simp [h, raisePortError, hp, hf]

/-- A high stop bit with room in the ring: the byte is stored and the cursor reloaded (R136, R160). -/
theorem countDown_stopPushing_notFull (v : Byte) {s : State} (hs : sample s = true) (hn : s.count ≠ 256) :
    countDown (stopPushing v s) =
      { s with ring := Memory.write s.ring s.wr.toNat v, wr := s.wr + 1, count := s.count + 1, fc := 11 } := by
  rw [stopPushing, if_pos hs, ringPush_notFull v hn]
  simp [countDown]

/-- A high stop bit with the ring full: the error is raised and the cursor reloaded (R136, R161). -/
theorem countDown_stopPushing_full (v : Byte) {s : State} (hs : sample s = true) (hn : s.count = 256) :
    countDown (stopPushing v s) = { s with ps := .error, fc := 11 } := by
  rw [stopPushing, if_pos hs, ringPush_full v hn]
  simp [countDown, raisePortError]

/-- A low stop bit: the error is raised and nothing is pushed (R136). -/
theorem countDown_stopPushing_low (v : Byte) {s : State} (hs : sample s = false) :
    countDown (stopPushing v s) = { s with ps := .error, fc := s.fc - 1 } := by
  rw [stopPushing, if_neg (by rw [hs]; nofun)]
  rfl

theorem runPhase_wrParity {s : State} (hf : s.fc = 3) :
    runPhase .wrParity s = { s with dataDrive := driveOf s.par, fc := 2 } := by
  rw [runPhase, countDown, writeParity, hf]
  rfl

theorem runPhase_wrStop {s : State} (hf : s.fc = 2) :
    runPhase .wrStop s = { s with dataDrive := .released, fc := 1 } := by
  rw [runPhase, countDown, writeStop, hf]
  rfl

theorem runPhase_wrAck {s : State} (hf : s.fc = 1) :
    runPhase .wrAck s = { s with ps := if sample s then .error else .read, fc := if sample s then 0 else 11 } := by
  rw [runPhase, writeAck, countDown]
  split <;> simp [raisePortError, hf]

/-- Settles O12. -/
theorem readStartChecksTheStartBit : Obligations.ReadStartChecksTheStartBit := by
  intro s h
  have ⟨_, _, _, hp, hf⟩ := h
  exact (atSelector_of_handles .rdStart h).trans (congrArg _ (runPhase_rdStart hp hf))

/-- Settles O13: one sample by the phase, and eight by `shiftIn_eight` at the byte whose bits the samples are. -/
theorem readDataShiftsTheSampleIn : Obligations.ReadDataShiftsTheSampleIn := by
  constructor
  · intro s p hp h
    have hrow : exec p.1 s = atSelector .read p.2 .rdData s := by fin_cases hp <;> rfl
    rw [hrow, atSelector_of_handles .rdData h, ← shiftIn_eq]
    rfl
  · intro w d0 d1 d2 d3 d4 d5 d6 d7
    have hv := shiftIn_eight w (BitVec.ofBoolListLE [d0, d1, d2, d3, d4, d5, d6, d7])
    simp only [BitVec.getLsbD_ofBoolListLE, List.getD_cons_zero, List.getD_cons_succ] at hv
    simp only [← shiftIn_eq, List.foldl, hv]
    simp [BitVec.ofBoolListLE, BitVec.toNat_concat]
    omega

/-- Settles O14. -/
theorem readParityComparesTheParityBit : Obligations.ReadParityComparesTheParityBit := by
  intro s h
  have ⟨_, _, _, hp, hf⟩ := h
  exact (atSelector_of_handles .rdParity h).trans (congrArg _ (runPhase_rdParity hp hf))

/-- Settles O15: the three ways the stop phase can end. -/
theorem readStopPushesOrFails : Obligations.ReadStopPushesOrFails := by
  intro s h ⟨hcells, _, _⟩
  have ⟨_, _, _, _, hf⟩ := h
  have hrow : exec .rdStop s = .next (countDown (stopPushing s.sr { s with devClk := .low })) :=
    atSelector_of_handles .rdStop h
  refine ⟨fun hhigh hroom => ?_, fun hhigh hfull => ?_, fun hlow => ?_⟩
  · have stored := countDown_stopPushing_notFull s.sr (s := { s with devClk := .low }) hhigh hroom.ne
    exact ⟨_, hrow.trans (congrArg _ stored), Memory.read_write_same hcells _ _,
      fun a ha => Memory.read_write_other s.ring s.sr ha⟩
  · exact hrow.trans (congrArg _ (countDown_stopPushing_full s.sr (s := { s with devClk := .low }) hhigh hfull))
  · rw [hrow, countDown_stopPushing_low s.sr (s := { s with devClk := .low }) hlow, hf]
    rfl

/-- Settles O16. -/
theorem writeDataDrivesTheLowBit : Obligations.WriteDataDrivesTheLowBit := by
  intro s p hp h
  have hrow : exec p.1 s = atSelector .write p.2 .wrData s := by fin_cases hp <;> rfl
  exact hrow.trans (atSelector_of_handles .wrData h)

/-- Settles O17. -/
theorem writeParityAndStopDriveTheLine : Obligations.WriteParityAndStopDriveTheLine := by
  intro s
  constructor
  · intro h
    have ⟨_, _, _, _, hf⟩ := h
    exact (atSelector_of_handles .wrParity h).trans (congrArg _ (runPhase_wrParity hf))
  · intro h
    have ⟨_, _, _, _, hf⟩ := h
    exact (atSelector_of_handles .wrStop h).trans (congrArg _ (runPhase_wrStop hf))

/-- Settles O18. -/
theorem writeAckDecidesTheTransfer : Obligations.WriteAckDecidesTheTransfer := by
  intro s h
  have ⟨_, _, _, _, hf⟩ := h
  exact (atSelector_of_handles .wrAck h).trans (congrArg _ (runPhase_wrAck hf))

/-- In interrupt context a phase row is an edge at the device's data drive as it stands: it cannot choose its phase
(R130, R132; log 13). -/
theorem phaseRow_eq_edge {g : BitVec 4} {i : Instr} (hi : i ∈ phaseRows g) {s : State} (hctx : s.ctx = .interrupt) :
    exec i s = atFall engine s := by
  obtain ⟨p, f, ph, hph, hexec⟩ := phaseRow_atSelector hi
  rw [hexec, atSelector_interrupt p f ph hctx, funext (branch_eq_engine hph)]

theorem errNop_mem_phaseRows (f : BitVec 4) : .errNop f ∈ phaseRows f := List.mem_cons_self

/-- A row of the table of R100 is one of the phase rows, whichever cursor ERR_NOP has. -/
theorem phaseTable_mem_phaseRows (g : BitVec 4) {row : PortState × BitVec 4 × Instr} (h : row ∈ phaseTable) :
    row.2.2 ∈ phaseRows g := List.mem_cons_of_mem _ (List.mem_map_of_mem h)

/-- While `ps` is `Error` an edge is the device's own move, handled or not (R131, R253). -/
theorem atFall_engine_of_error {s : State} (hp : s.ps = .error) :
    atFall engine s = .next { s with devClk := .low } := by
  by_cases hh : s.irqArmed = true ∧ s.clkDrive = .released
  · exact (atFall_handled engine hh.1 hh.2).trans (engine_of_phase (ph := .errNop) (by rw [hp]; rfl))
  · exact atFall_lost engine (unhandled_of_not hh)

/-- Settles O11. -/
theorem errNopChangesNothing : Obligations.ErrNopChangesNothing := by
  intro s hctx hp
  constructor
  · intro f
    exact (phaseRow_eq_edge (errNop_mem_phaseRows f) hctx).trans (atFall_engine_of_error hp)
  · intro d
    exact (execEdge_interrupt d hctx).trans (atFall_engine_of_error (s := { s with devData := driveOf d }) hp)

/-- Settles O19: all phase rows are the same edge, lost or handled, and its invocation finds no phase at a reserved
pair. -/
theorem phaseRowsRunOnlyWhenSelected : Obligations.PhaseRowsRunOnlyWhenSelected := by
  intro s g hctx i hi
  have hedge := phaseRow_eq_edge hi hctx
  refine ⟨fun hlost => hedge.trans (atFall_lost engine hlost), fun ha hc => ⟨?_, ?_, ?_⟩⟩
  · intro own hown _ _
    exact hedge.trans (phaseRow_eq_edge (phaseTable_mem_phaseRows g hown) hctx).symm
  · intro _
    exact hedge.trans (phaseRow_eq_edge (errNop_mem_phaseRows s.fc) hctx).symm
  · intro hp hf
    exact hedge.trans ((atFall_handled engine ha hc).trans (engine_of_noPhase (phaseAt_reserved hp hf)))

end Sys2Proof.Machine
end

section
/-! ## Whole frames from the device, and to it (40_bit_engine.md R142 to R144)
SUPPORT. The first edge of a frame as the operation itself, the data bits of a frame by induction, and what is left of a
frame once the error is raised. -/
namespace Sys2Proof.Machine

/-! ### Frames the device sends -/

/-- Which turns are listed is nothing to an invocation. -/
theorem runPhase_sched (ph : Phase) (s : State) (q : List Turn) :
    runPhase ph { s with sched := q } = { runPhase ph s with sched := q } := by
  have hsample : sample { s with sched := q } = sample s := rfl
  cases ph with
  | errNop | rdData | wrData | wrParity | wrStop => rfl
  | rdStart => simp only [runPhase, readStart, hsample]; split <;> rfl
  | rdParity => simp only [runPhase, readParity, hsample]; split <;> rfl
  | wrAck => simp only [runPhase, writeAck, hsample]; split <;> rfl
  | rdStop =>
    simp only [runPhase, readStop, stopPushing, ringPush, hsample]
    split
    · split <;> rfl
    · rfl

/-- A row that is a frame from an idle device makes the first edge itself, so that the rest of the frame is what the
listed turns of the whole frame would have run (R119). -/
theorem fromDevice_then_run {s : State} {d : Bool} {ds : List Bool} {ph : Phase} (n : Nat) (hctx : s.ctx = .interrupt)
    (hdev : s.dev = []) (ha : s.irqArmed = true) (hc : s.clkDrive = .released) (hph : phaseAt s.ps s.fc = some ph) :
    ∃ t, fromDevice (d :: ds) s = .next t ∧
      runFor n { t with sched := List.replicate n .device } =
        runFor (n + 1) { s with dev := d :: ds, sched := List.replicate (n + 1) .device } := by
  refine ⟨runPhase ph { s with dev := ds, devClk := .low, devData := driveOf d }, ?_, ?_⟩
  · rw [fromDevice, if_pos hctx, beginFrame, hdev]
    exact clockEdge_handled d (s := { s with dev := ds }) ha hc hph
  · rw [← runPhase_sched]
    exact (runFor_succ (step_device (s := { s with dev := d :: ds, sched := List.replicate (n + 1) .device })
      (.inl rfl) rfl ha hc hph)).symm

theorem receivingRow_eq_rxFrame {v : Byte} {row : Instr × Byte} (h : row ∈ receivingRows v) :
    exec row.1 = fromDevice (rxFrame row.2) := by
  fin_cases h <;> rfl

/-- Settles O20: the row's first edge, then `read_frame`. -/
theorem readFrameDeliversTheByte : Obligations.ReadFrameDeliversTheByte := by
  intro s v row hrow hctx hdev ha hc hd hp hf ⟨hcells, _, _⟩ hroom
  obtain ⟨t, ht, hrun⟩ := fromDevice_then_run (d := false) (ds := (rxFrame row.2).tail) (ph := .rdStart) 10 hctx hdev ha
    hc (by rw [hp, hf]; rfl)
  refine ⟨t, Memory.write s.ring s.wr.toNat row.2, (congrFun (receivingRow_eq_rxFrame hrow) s).trans ht, ?_,
    Memory.read_write_same hcells _ _, fun a ha => Memory.read_write_other s.ring row.2 ha⟩
  rw [hrun, read_frame (k := 0) (rest := []) (ds := []) (v := row.2) (.inl (by rfl)) (by rfl) (by exact ha) (by exact hc)
    (by exact hd) (by exact hp) (by exact hf) (by exact hroom), ← hdev]
  rfl

/-! ### Read frames that fail -/

/-- The error is raised, and the ring is as it was. -/
def FailedUnpushed (s t : State) : Prop :=
  t.ps = .error ∧ t.ring = s.ring ∧ t.wr = s.wr ∧ t.rd = s.rd ∧ t.count = s.count

theorem FailedUnpushed.trans {s t u : State} (h1 : FailedUnpushed s t) (h2 : FailedUnpushed t u) :
    FailedUnpushed s u := by
  obtain ⟨-, hring, hwr, hrd, hcount⟩ := h1
  obtain ⟨hp, hring', hwr', hrd', hcount'⟩ := h2
  exact ⟨hp, hring'.trans hring, hwr'.trans hwr, hrd'.trans hrd, hcount'.trans hcount⟩

/-- While `ps` is `Error` a device turn is at most the device's own move (R131). -/
theorem deviceStep_of_error {s : State} (hp : s.ps = .error) :
    ∃ t, deviceStep s = .next t ∧ t.sched = s.sched ∧ FailedUnpushed s t := by
  unfold deviceStep
  split
  · exact ⟨s, rfl, rfl, hp, rfl, rfl, rfl, rfl⟩
  · rename_i d ds _
    exact ⟨_, atFall_engine_of_error (s := { s with dev := ds, devData := driveOf d }) hp, rfl, hp, rfl, rfl, rfl, rfl⟩

/-- After the error the rest of a frame changes nothing (R131, R143). -/
theorem run_of_error {s : State} {n : Nat} (hs : s.sched = List.replicate n .device) (hp : s.ps = .error) :
    ∃ t, runFor n s = .next t ∧ FailedUnpushed s t := by
  induction n generalizing s with
  | zero => exact ⟨s, rfl, hp, rfl, rfl, rfl, rfl⟩
  | succ n ih =>
    obtain ⟨u, hu, husched, hfailed⟩ := deviceStep_of_error (s := { s with sched := List.replicate n .device }) hp
    have ⟨hup, _⟩ := hfailed
    obtain ⟨t, ht, htail⟩ := ih husched hup
    exact ⟨t, (runFor_succ ((step_listed hs).trans hu)).trans ht, hfailed.trans htail⟩

/-- The cursor one lower, as a number. -/
theorem toNat_pred {f : BitVec 4} {n : Nat} (h : f.toNat = n + 1) : (f - 1).toNat = n := by
  rw [BitVec.toNat_sub_of_le (by rw [BitVec.le_def, h]; simp), h]
  rfl

/-- `RD_DATA` is selected from cursor 3 up to 10 (R100). -/
theorem readPhase_data {n : Nat} (hn : n < 8) : readPhase (n + 3) = some .rdData := by
  interval_cases n <;> rfl

/-- The data bits of a read frame that are still to come go into the Shift Register one after the other (R134). -/
theorem run_read_data {l ds : List Bool} {s : State} {rest : List Turn} {k : Nat} (hl : l.length ≤ 8)
    (hs : s.sched = List.replicate l.length .device ++ rest) (hd : s.dev = l ++ ds) (ha : s.irqArmed = true)
    (hc : s.clkDrive = .released) (hdd : s.dataDrive = .released) (hp : s.ps = .read) (hf : s.fc.toNat = l.length + 2) :
    ∃ devClk devData, runFor (k + l.length) s = runFor k
      { s with sched := rest, dev := ds, devClk := devClk, devData := devData, sr := l.foldl shiftIn s.sr, fc := 2 } := by
  induction l generalizing s with
  | nil =>
    have hf' : s.fc = 2 := BitVec.eq_of_toNat_eq hf
    have hs' : s.sched = rest := hs
    have hd' : s.dev = ds := hd
    exact ⟨s.devClk, s.devData, by rw [← hf', ← hs', ← hd']; rfl⟩
  | cons d l ih =>
    obtain ⟨devClk, devData, e⟩ := ih (Nat.le_of_succ_le hl)
      (s := { s with sched := List.replicate l.length .device ++ rest, dev := l ++ ds, devClk := .low,
                     devData := driveOf d, fc := s.fc - 1, sr := shiftIn s.sr d })
      rfl rfl ha hc hdd hp (toNat_pred hf)
    have hphase : readPhase s.fc.toNat = some .rdData := by rw [hf]; exact readPhase_data hl
    exact ⟨devClk, devData, (runFor_succ (k := k + l.length) (read_data (.inl hs) hd ha hc hdd hp hphase)).trans e⟩

/-- The bits of a byte, taken in from the lowest up, are the byte (R96). -/
theorem foldl_shiftIn_bits (w v : Byte) : ((List.range 8).map v.getLsbD).foldl shiftIn w = v := shiftIn_eight w v

/-- A low stop bit raises the error at the last edge (R136). -/
theorem read_stop_low {s : State} {rest : List Turn} {ds : List Bool} (hs : DeviceTurn s rest)
    (hd : s.dev = false :: ds) (ha : s.irqArmed = true) (hc : s.clkDrive = .released) (hdd : s.dataDrive = .released)
    (hp : s.ps = .read) (hf : s.fc = 1) :
    step s = .next { s with sched := rest, dev := ds, devClk := .low, devData := .low, ps := .error, fc := 0 } := by
  rw [step_device hs hd ha hc (ph := .rdStop) (by rw [hp, hf]; rfl), runPhase, readStop,
    countDown_stopPushing_low _ ((sample_of_released (by exact hdd)).trans rfl), hf]
  rfl

/-- The last two edges of a read frame, the Shift Register completed: a wrong parity level or a low stop bit fails it
(R135, R136, R143). -/
theorem run_read_bad_end {s : State} {p z : Bool} (hs : s.sched = [.device, .device]) (hd : s.dev = [p, z])
    (ha : s.irqArmed = true) (hc : s.clkDrive = .released) (hdd : s.dataDrive = .released) (hp : s.ps = .read)
    (hf : s.fc = 2) (hbad : p ≠ parity s.sr ∨ z = false) : ∃ t, runFor 2 s = .next t ∧ FailedUnpushed s t := by
  rw [runFor_succ (k := 1) (read_parity (.inl hs) hd ha hc hdd hp hf)]
  by_cases hpar : parity s.sr = p
  · obtain rfl : z = false := hbad.resolve_left (not_not_intro hpar.symm)
    exact ⟨_, runFor_succ (k := 0) (read_stop_low (.inl rfl) rfl ha hc hdd (if_pos hpar) rfl), rfl, rfl, rfl, rfl, rfl⟩
  · exact run_of_error (n := 1) rfl (if_neg hpar)

/-- Eleven device edges with a wrong start, parity or stop level (R143). -/
theorem run_read_bad_frame {s : State} {v : Byte} {a p z : Bool} (hs : s.sched = List.replicate 11 .device)
    (hd : s.dev = a :: ((frameLevels v p).drop 1).take 9 ++ [z]) (ha : s.irqArmed = true) (hc : s.clkDrive = .released)
    (hdd : s.dataDrive = .released) (hp : s.ps = .read) (hf : s.fc = 11) (hbad : a = true ∨ p ≠ parity v ∨ z = false) :
    ∃ t, runFor 11 s = .next t ∧ FailedUnpushed s t := by
  rw [runFor_succ (k := 10) (read_start (.inl hs) hd ha hc hdd hp hf)]
  cases a with
  | true => exact run_of_error (n := 10) rfl rfl
  | false =>
    obtain ⟨devClk, devData, e⟩ := run_read_data (k := 2) (rest := [.device, .device]) (ds := [p, z])
      (l := (List.range 8).map v.getLsbD)
      (s := { s with sched := List.replicate 10 .device, dev := ((frameLevels v p).drop 1).take 9 ++ [z],
                     devClk := .low, devData := driveOf false, ps := .read, fc := 10 })
      (Nat.le_refl 8) rfl rfl ha hc hdd rfl rfl
    rw [foldl_shiftIn_bits] at e
    obtain ⟨t, ht, hfailed⟩ := run_read_bad_end
      (s := { s with sched := [.device, .device], dev := [p, z], devClk := devClk, devData := devData, ps := .read,
                     sr := v, fc := 2 })
      rfl rfl ha hc hdd rfl rfl (hbad.resolve_left nofun)
    exact ⟨t, e.trans ht, hfailed⟩

/-- Settles O21: the frame as listed turns, and FRAME_RX with the wrong parity level as such a frame. -/
theorem badReadFramePushesNothing : Obligations.BadReadFramePushesNothing := by
  intro s v a p z ha hc hdd hp hf hbad
  constructor
  · exact run_read_bad_frame rfl rfl ha hc hdd hp hf hbad
  · intro hctx hdev
    obtain ⟨u, hu, hrun⟩ := fromDevice_then_run (d := false) (ds := (frameLevels v (!parity v)).tail) (ph := .rdStart)
      10 hctx hdev ha hc (by rw [hp, hf]; rfl)
    obtain ⟨t, ht, hfailed⟩ := run_read_bad_frame (v := v) (a := false) (p := !parity v) (z := true)
      (s := { s with dev := frameLevels v (!parity v), sched := List.replicate 11 .device })
      rfl rfl ha hc hdd hp hf (.inr (.inl (Bool.not_ne_self _)))
    exact ⟨u, t, hu, hrun.trans ht, hfailed⟩

/-! ### Write frames -/

/-- With `n` bits of the Shift Register still to be sent, `n` edges shift them out, whatever levels the device gives
(R137). -/
theorem run_write_data {l ds : List Bool} {s : State} {rest : List Turn} {k : Nat} (hl : l.length ≤ 8)
    (hs : s.sched = List.replicate l.length .device ++ rest) (hd : s.dev = l ++ ds) (ha : s.irqArmed = true)
    (hc : s.clkDrive = .released) (hp : s.ps = .write) (hf : s.fc.toNat = l.length + 3) :
    ∃ devClk devData dataDrive, runFor (k + l.length) s = runFor k
      { s with sched := rest, dev := ds, devClk := devClk, devData := devData, dataDrive := dataDrive,
               sr := s.sr >>> l.length, fc := 3 } := by
  induction l generalizing s with
  | nil =>
    have hf' : s.fc = 3 := BitVec.eq_of_toNat_eq hf
    have hs' : s.sched = rest := hs
    have hd' : s.dev = ds := hd
    exact ⟨s.devClk, s.devData, s.dataDrive, by rw [← hf', ← hs', ← hd', List.length_nil, BitVec.ushiftRight_zero]; rfl⟩
  | cons d l ih =>
    obtain ⟨devClk, devData, dataDrive, e⟩ := ih (Nat.le_of_succ_le hl)
      (s := { s with sched := List.replicate l.length .device ++ rest, dev := l ++ ds, devClk := .low,
                     devData := driveOf d, fc := s.fc - 1, dataDrive := driveOf (s.sr.getLsbD 0), sr := s.sr >>> 1 })
      rfl rfl ha hc hp (toNat_pred hf)
    have hphase : writePhase s.fc.toNat = some .wrData := by rw [hf]; exact writePhase_data hl
    refine ⟨devClk, devData, dataDrive,
      (runFor_succ (k := k + l.length) (write_data (.inl hs) hd ha hc hp hphase)).trans (e.trans ?_)⟩
    rw [List.length_cons, Nat.add_comm l.length 1, BitVec.shiftRight_add]

/-- The parity bit, the stop bit and the sample of the acknowledgment (R138 to R140). -/
theorem run_write_end {s : State} {p q k : Bool} (hs : s.sched = [.device, .device, .device]) (hd : s.dev = [p, q, k])
    (ha : s.irqArmed = true) (hc : s.clkDrive = .released) (hp : s.ps = .write) (hf : s.fc = 3) :
    runFor 3 s = .next { s with sched := [], dev := [], devClk := .low, devData := driveOf k, dataDrive := .released,
                                ps := if k then .error else .read, fc := if k then 0 else 11 } := by
  refine (runFor_succ (k := 2) (write_parity (.inl hs) hd ha hc hp hf)).trans ?_
  refine (runFor_succ (k := 1) (write_stop (.inl (by rfl)) (by rfl) (by exact ha) (by exact hc) (by exact hp)
    (by rfl))).trans ?_
  exact runFor_succ (k := 0) (write_ack (.inl (by rfl)) (by rfl) (by exact ha) (by exact hc) (by rfl) (by exact hp)
    (by rfl))

/-- Settles O22: the levels by `hostLevels_writeFrame`, and the end state by the eight data bits and the three edges that
follow. -/
theorem writeFrameShiftsTheByteOut : Obligations.WriteFrameShiftsTheByteOut := by
  intro s v ds k hlen ha hc _ hp hf hsr hpar
  constructor
  · rw [hostLevels_writeFrame (s := { s with dev := ds ++ [k] }) (by simp [hlen]) ha hc hp hf, hsr, hpar]
    rfl
  · obtain ⟨bits, p, q, hbits, rfl⟩ : ∃ bits p q, bits.length = 8 ∧ ds = bits ++ [p, q] := by
      obtain ⟨p, q, hdrop⟩ := List.length_eq_two.mp (show (ds.drop 8).length = 2 by rw [List.length_drop, hlen])
      exact ⟨ds.take 8, p, q, by rw [List.length_take, hlen]; rfl, by rw [← hdrop, List.take_append_drop]⟩
    obtain ⟨devClk, devData, dataDrive, e⟩ := run_write_data (k := 3) (rest := List.replicate 3 .device)
      (l := bits) (ds := [p, q, k]) (s := { s with dev := bits ++ [p, q] ++ [k], sched := List.replicate 11 .device })
      hbits.le (by rw [hbits]; rfl) (List.append_assoc bits [p, q] [k]) ha hc hp (by rw [hbits, hf]; rfl)
    have hsr0 : s.sr >>> 8 = 0 := BitVec.ushiftRight_eq_zero (Nat.le_refl 8)
    rw [hbits, hsr0] at e
    exact e.trans (run_write_end (p := p) (q := q) (by rfl) (by rfl) (by exact ha) (by exact hc) (by exact hp) (by rfl))

end Sys2Proof.Machine
end

section
/-! ## The bytes the ring holds
SUPPORT. The bytes held as a list of `heldByte`, and what a stored and a taken byte do to it (10_state.md R31,
41_ring_buffer.md R165). -/
namespace Sys2Proof.Machine

/-- The bytes held, oldest first, are the held bytes by number (R31). -/
theorem ringContents_eq_heldBytes (s : State) : ringContents s = (List.range s.count).map (heldByte s) := by
  refine List.map_congr_left fun j _ => ?_
  rw [heldByte, BitVec.toNat_add, BitVec.toNat_ofNat, Nat.add_mod_mod]

/-- Fewer than `N` cells on from `rd`, no two are the same. -/
theorem cell_ne (rd : BitVec 8) {j k : Nat} (hj : j < k) (hk : k < 256) :
    (rd + BitVec.ofNat 8 j).toNat ≠ (rd + BitVec.ofNat 8 k).toNat := by
  intro h
  have same : BitVec.ofNat 8 j = BitVec.ofNat 8 k := BitVec.add_right_inj rd |>.mp (BitVec.eq_of_toNat_eq h)
  have hmod : j % 256 = k % 256 := congrArg BitVec.toNat same
  omega

/-- A byte stored at `wr` is the newest one held, and the others stand where they were (R160, R165). -/
theorem ringContents_of_stored {s t : State} {v : Byte} (h : RingInv s) (hroom : s.count < 256)
    (hring : t.ring = Memory.write s.ring s.wr.toNat v) (hrd : t.rd = s.rd) (hcount : t.count = s.count + 1) :
    ringContents t = ringContents s ++ [v] := by
  obtain ⟨hcells, -, hwr⟩ := h
  have older : ∀ j < s.count, heldByte t j = heldByte s j := by
    intro j hj
    rw [heldByte, hring, hrd, hwr, Memory.read_write_other s.ring v (cell_ne s.rd hj hroom), heldByte]
  have newest : heldByte t s.count = v := by
    rw [heldByte, hring, hrd, ← hwr, Memory.read_write_same hcells]
  rw [ringContents_eq_heldBytes, ringContents_eq_heldBytes, hcount, List.range_succ, List.map_append, List.map_singleton,
    newest, List.map_congr_left fun j hj => older j (List.mem_range.mp hj)]

/-- The byte taken at `rd` was the oldest one held, and the others move up by one (R162, R165). -/
theorem ringContents_of_taken {s t : State} (hc : s.count ≠ 0) (hring : t.ring = s.ring) (hrd : t.rd = s.rd + 1)
    (hcount : t.count = s.count - 1) : ringContents s = Memory.read s.ring s.rd.toNat :: ringContents t := by
  have oldest : heldByte s 0 = Memory.read s.ring s.rd.toNat := by rw [heldByte, BitVec.add_zero]
  have movedUp (j : Nat) : heldByte s (j + 1) = heldByte t j := by
    rw [heldByte, heldByte, hring, hrd, Nat.add_comm, BitVec.ofNat_add, BitVec.add_assoc]
    rfl
  obtain ⟨n, hn⟩ := Nat.exists_eq_succ_of_ne_zero hc
  rw [ringContents_eq_heldBytes, ringContents_eq_heldBytes, hcount, hn, List.range_succ_eq_map, List.map_cons,
    List.map_map, oldest]
  exact congrArg _ (List.map_congr_left fun j _ => movedUp j)

end Sys2Proof.Machine
end

section
/-! ## push, pop and clear as operations (41_ring_buffer.md R160 to R166)
SUPPORT. What each operation answers: push as one edge with its invocation (log 32), pop and clear on an idle main
line. -/
namespace Sys2Proof.Machine

/-! ### push -/

/-- At the stop phase of a read frame push is that phase with the named byte (R136, R160; log 32). -/
theorem execPush_of_handles (v : Byte) {s : State} (h : Handles s .read 1) :
    exec (.push v) s = .next (countDown (stopPushing v { s with devClk := .low })) := by
  obtain ⟨hctx, ha, hc, hp, hf⟩ := h
  calc exec (.push v) s = enginePushing v { s with devClk := .low } :=
        (execPush_interrupt v hctx).trans (atFall_handled _ ha hc)
    _ = _ := enginePushing_stop v hp hf

/-- At the stop phase with room in the ring the named byte is stored (R160). -/
theorem execPush_stores (v : Byte) {s : State} (h : Handles s .read 1) (hhigh : sample s = true)
    (hroom : s.count < 256) :
    exec (.push v) s = .next
      { s with devClk := .low, ring := Memory.write s.ring s.wr.toNat v, wr := s.wr + 1, count := s.count + 1,
               fc := 11 } :=
  (execPush_of_handles v h).trans
    (congrArg _ (countDown_stopPushing_notFull v (s := { s with devClk := .low }) hhigh hroom.ne))

/-- With a low stop bit no push is called, whichever byte is named (R136). -/
theorem enginePushing_low (v : Byte) {s : State} (hlow : sample s = false) : enginePushing v s = engine s := by
  by_cases hstop : s.ps = .read ∧ s.fc = 1
  · obtain ⟨hp, hf⟩ := hstop
    rw [← enginePushing_sr, enginePushing_stop v hp hf, enginePushing_stop s.sr hp hf,
      countDown_stopPushing_low v hlow, countDown_stopPushing_low s.sr hlow]
  · exact enginePushing_elsewhere v hstop

/-- Where the stop phase does not push another byte than the Shift Register's, push is an edge with its ordinary
invocation (R136, R253; log 32). -/
theorem execPush_eq_edge {v : Byte} {s : State} (hctx : s.ctx = .interrupt)
    (h : s.sr = v ∨ ¬ (Handles s .read 1 ∧ sample s = true)) : exec (.push v) s = atFall engine s := by
  refine (execPush_interrupt v hctx).trans ?_
  by_cases hh : s.irqArmed = true ∧ s.clkDrive = .released
  · obtain ⟨ha, hc⟩ := hh
    rw [atFall_handled _ ha hc, atFall_handled _ ha hc]
    rcases h with rfl | h
    · exact enginePushing_sr { s with devClk := .low }
    · by_cases hstop : s.ps = .read ∧ s.fc = 1
      · have hlow : sample s = false :=
          eq_false_of_ne_true fun hhigh => h ⟨⟨hctx, ha, hc, hstop⟩, hhigh⟩
        exact enginePushing_low v (s := { s with devClk := .low }) hlow
      · exact enginePushing_elsewhere v (s := { s with devClk := .low }) hstop
  · rw [atFall_lost _ (unhandled_of_not hh), atFall_lost _ (unhandled_of_not hh)]

/-- The row RD_STOP is an edge with its ordinary invocation too (R130; log 13). -/
theorem rdStop_eq_edge {s : State} (hctx : s.ctx = .interrupt) : exec .rdStop s = atFall engine s :=
  phaseRow_eq_edge (g := 0) (by decide) hctx

theorem execPush_ringInv {v : Byte} {s t : State} (h : RingInv s) (he : exec (.push v) s = .next t) : RingInv t := by
  obtain ⟨-, rfl | ⟨-, ⟨-, -, rfl⟩ | ⟨ph, -, rfl⟩⟩⟩ := execPush_cases he
  · exact h
  · exact stopPushing_ringInv v (s := { s with devClk := .low }) h
  · exact runPhase_ringInv ph (s := { s with devClk := .low }) h

/-! ### pop and clear -/

/-- An operation of one sub-step is done at once on an idle main line (R71). -/
theorem onMainLine_single (m : Micro) {s : State} (h : MainIdle s) : onMainLine [m] s = runMicro m s := by
  rw [onMainLine_idle m [] h, withMain_nil h]

theorem execPop_idle {s : State} (h : MainIdle s) : exec .pop s = .next (popStep s) := onMainLine_single .pop h

theorem execClear_idle {s : State} (h : MainIdle s) : exec .clear s = .next (ringClear s) :=
  onMainLine_single .clear h

theorem popStep_empty {s : State} (h : s.count = 0) : popStep s = { s with ret := .popped none } := by
  rw [popStep, ringPop_empty h]

theorem popStep_some {s : State} (h : s.count ≠ 0) :
    popStep s =
      { s with rd := s.rd + 1, count := s.count - 1, ret := .popped (some (Memory.read s.ring s.rd.toNat)) } := by
  rw [popStep, ringPop_some h]

theorem popStep_ringInv {s : State} (h : RingInv s) : RingInv (popStep s) := by
  by_cases hc : s.count = 0
  · rw [popStep_empty hc]; exact h
  · rw [popStep_some hc]; exact popped_ringInv hc h

theorem ringClear_ringInv {s : State} (h : RingInv s) : RingInv (ringClear s) := by
  obtain ⟨hcells, -, -⟩ := h
  exact ⟨hcells, Nat.zero_le _, rfl⟩

/-! ### The statements -/

/-- Settles O28: the byte pushed becomes the newest one held, and the byte popped was the oldest. -/
theorem ringIsFirstInFirstOut : Obligations.RingIsFirstInFirstOut := by
  intro s hring
  constructor
  · intro v hstop hhigh hroom
    exact ⟨_, execPush_stores v hstop hhigh hroom, ringContents_of_stored hring hroom rfl rfl rfl⟩
  · intro hmain hc
    refine ⟨_, Memory.read s.ring s.rd.toNat, execPop_idle hmain, ?_, ?_⟩ <;> rw [popStep_some hc.ne']
    exact ringContents_of_taken hc.ne' rfl rfl rfl

/-- Settles O29: one lemma for each of the three operations, of which pop and clear run at once. -/
theorem ringInvariantsArePreserved : Obligations.RingInvariantsArePreserved := by
  refine ⟨by decide, fun s t h => ⟨fun v he => execPush_ringInv h he, fun hm he => ?_, fun hm he => ?_⟩⟩
  · rw [execPop_idle ⟨(onMainLine_cases he).1, hm⟩] at he
    cases he
    exact popStep_ringInv h
  · rw [execClear_idle ⟨(onMainLine_cases he).1, hm⟩] at he
    cases he
    exact ringClear_ringInv h

/-- Settles O25: at the stop phase by whether the ring is full, and everywhere else push is an edge as RD_STOP is. -/
theorem pushStoresOrOverflows : Obligations.PushStoresOrOverflows := by
  intro s v hctx ⟨hcells, _, _⟩
  refine ⟨fun hstop hhigh => ⟨fun hroom => ?_, fun hfull => ?_⟩, fun h => ?_, ?_⟩
  · exact ⟨_, execPush_stores v hstop hhigh hroom, Memory.read_write_same hcells _ v,
      fun a ha => Memory.read_write_other s.ring v ha⟩
  · exact (execPush_of_handles v hstop).trans
      (congrArg _ (countDown_stopPushing_full v (s := { s with devClk := .low }) hhigh hfull))
  · exact (execPush_eq_edge hctx h).trans (rdStop_eq_edge hctx).symm
  · rintro (herror | hlost)
    · have notRead : ¬ (Handles s .read 1 ∧ sample s = true) := by simp [herror]
      exact (execPush_eq_edge hctx (.inr notRead)).trans (atFall_engine_of_error herror)
    · exact (execPush_interrupt v hctx).trans (atFall_lost _ hlost)

/-- Settles O26: pop runs at once, and the ring holds a byte or not. -/
theorem popRemovesTheOldestByte : Obligations.PopRemovesTheOldestByte := by
  intro s hmain
  exact ⟨fun hc => (execPop_idle hmain).trans (congrArg _ (popStep_some hc.ne')),
    fun hc => (execPop_idle hmain).trans (congrArg _ (popStep_empty hc))⟩

/-- Settles O27. -/
theorem clearEmptiesTheRing : Obligations.ClearEmptiesTheRing := fun _ hmain => execClear_idle hmain

end Sys2Proof.Machine
end

section
/-! ## The line primitives, and single operations of port control (42_port_control.md R175 to R177, R195) -/
namespace Sys2Proof.Machine

/-- While disarmed `clk_low` writes its drive only: an edge it makes is lost (R175, R45). -/
theorem pullClockLow_disarmed {s : State} (ha : s.irqArmed = false) :
    pullClockLow s = .next { s with clkDrive := .low } := by
  simp [pullClockLow, fallingEdge, ha]

/-- With the clock line low already `clk_low` makes no edge (R175, R40). -/
theorem pullClockLow_of_low {s : State} (hlow : clkLine s = false) :
    pullClockLow s = .next { s with clkDrive := .low } := by
  simp [pullClockLow, hlow]

/-- While armed, with the clock line high, `clk_low` makes an edge, and it is handled (R175, R130; log 15). -/
theorem pullClockLow_armed {s : State} (ha : s.irqArmed = true) (hhigh : clkLine s = true) :
    pullClockLow s = engine { s with clkDrive := .low } := by
  simp [pullClockLow, fallingEdge, ha, hhigh]

theorem recvStep_empty {s : State} (h : s.count = 0) : recvStep s = { s with main := .recv :: s.main } := by
  rw [recvStep, ringPop_empty h]

theorem recvStep_some {s : State} (h : s.count ≠ 0) :
    recvStep s =
      { s with rd := s.rd + 1, count := s.count - 1, reply := Memory.read s.ring s.rd.toNat,
               ret := .byte (Memory.read s.ring s.rd.toNat) } := by
  rw [recvStep, ringPop_some h]

/-- Settles O30: each primitive is one sub-step, and `clk_low` splits by whether it makes an edge and the edge is
handled. -/
theorem linePrimitivesWriteOneDrive : Obligations.LinePrimitivesWriteOneDrive := by
  intro s
  constructor
  · intro hmain
    have hclkLow : exec .clkLow s = pullClockLow s := onMainLine_single .clkLow hmain
    refine ⟨onMainLine_single .clkRelease hmain, onMainLine_single .dataLow hmain,
      onMainLine_single .dataRelease hmain, ?_, fun ha hhigh => hclkLow.trans (pullClockLow_armed ha hhigh)⟩
    rintro (ha | hlow)
    · exact hclkLow.trans (pullClockLow_disarmed ha)
    · exact hclkLow.trans (pullClockLow_of_low hlow)
  · intro hctx i hi
    obtain ⟨hi, hmode⟩ : contextOf i ≠ .interrupt ∧ packetMode i = none := by
      revert i
      simp [contextOf, packetMode]
    exact exec_refused_in_interrupt hi hmode hctx

/-- Settles O31: `delay` is the identity, and the free excess of `T_HOLD` is not negative. -/
theorem delayChangesNothing : Obligations.DelayChangesNothing :=
  ⟨fun _ t hmain => onMainLine_single (.wait t) hmain, le_add_of_nonneg_right Config.holdExtra.coe_nonneg⟩

/-- In its own context the main line has nothing to return from (R259). -/
theorem leaveContext_of_mainline {s : State} (h : s.ctx = .mainline) : leaveContext s = s := by
  rw [leaveContext, ← h]

/-- Settles O32: an edge while disarmed is lost, and what it leaves is in the device's drives only. -/
theorem armingSetsTheArmedBit : Obligations.ArmingSetsTheArmedBit := by
  intro s hmain
  refine ⟨onMainLine_single .irqDisarm hmain, onMainLine_single .irqArm hmain, fun d u ha hu => ?_⟩
  rw [unhandledEdgeIsLost { s with ctx := .interrupt } d rfl (.inl ha)] at hu
  cases hu
  have hback := leaveContext_of_mainline (s := { s with devClk := .low, devData := driveOf d }) hmain.1
  exact (congrArg (exec .irqArm) hback).trans
    (onMainLine_single .irqArm (s := { s with devClk := .low, devData := driveOf d }) hmain)

/-- Settles O36: the poll runs at once, and the ring holds a byte or not. -/
theorem recvTakesAByteOrPolls : Obligations.RecvTakesAByteOrPolls := by
  intro s hmain
  have hrecv : exec .recvByteBlocking s = .next (recvStep s) := onMainLine_single .recv hmain
  refine ⟨fun hc => hrecv.trans (congrArg _ (recvStep_some hc.ne')), fun hc => ?_⟩
  rw [hrecv, recvStep_empty hc, hmain.2]

end Sys2Proof.Machine
end

section
/-! ## A wait that no byte can end (42_port_control.md R196)
SUPPORT. While `ps` is `Error` or the interrupt is disarmed no edge has an effect on the block, so that each kind of turn
leaves a poll of an empty ring as it is. -/
namespace Sys2Proof.Machine

/-- No edge brings a byte: it is handled by ERR_NOP, or lost (R131, R45). -/
def WithoutBearer (s : State) : Prop := s.ps = .error ∨ s.irqArmed = false

/-- The main line has the same still to do, the ring holds as many bytes, and `ps`, the armed bit and the schedule are as
before. -/
def WaitsOn (s t : State) : Prop :=
  t.main = s.main ∧ t.count = s.count ∧ t.ps = s.ps ∧ t.irqArmed = s.irqArmed ∧ t.sched = s.sched

theorem WaitsOn.refl (s : State) : WaitsOn s s := ⟨rfl, rfl, rfl, rfl, rfl⟩

theorem atFall_withoutBearer {s : State} (h : WithoutBearer s) : atFall engine s = .next { s with devClk := .low } :=
  h.elim atFall_engine_of_error fun ha => atFall_lost engine (.inl ha)

/-- An invocation in `Error` is ERR_NOP (R131). -/
theorem engine_of_error {s : State} (hp : s.ps = .error) : engine s = .next s :=
  engine_of_phase (ph := .errNop) (by rw [hp]; rfl)

theorem clockEdge_waitsOn (d : Bool) {s : State} (h : WithoutBearer s) : ∃ t, clockEdge d s = .next t ∧ WaitsOn s t :=
  ⟨_, atFall_withoutBearer (s := { s with devData := driveOf d }) h, rfl, rfl, rfl, rfl, rfl⟩

theorem deviceStep_waitsOn {s : State} (h : WithoutBearer s) : ∃ t, deviceStep s = .next t ∧ WaitsOn s t := by
  unfold deviceStep
  split
  · exact ⟨s, rfl, .refl s⟩
  · exact clockEdge_waitsOn _ h

theorem setDeviceLines_waitsOn (c d : Drive) {s : State} (h : WithoutBearer s) :
    ∃ t, setDeviceLines c d s = .next t ∧ WaitsOn s t := by
  refine ⟨{ s with devClk := c, devData := d }, ?_, rfl, rfl, rfl, rfl, rfl⟩
  rw [setDeviceLines_eq]
  split
  · rename_i hedge
    obtain ⟨-, -, ha⟩ := hedge
    have hp : s.ps = .error := h.resolve_right (by rw [ha]; nofun)
    exact engine_of_error (s := { s with devClk := c, devData := d }) hp
  · rfl

theorem takeTurn_edge_waitsOn (d : Bool) {s : State} (h : WithoutBearer s) :
    ∃ t, takeTurn (invoke (.edge d)) s = .next t ∧ WaitsOn s t := by
  obtain ⟨t, ht, hwaits⟩ := clockEdge_waitsOn d (s := enterContext .interrupt s) h
  exact ⟨leaveContext t, by rw [takeTurn_edge, ht, mapNext_next], hwaits⟩

/-- The consumer reaches neither the main line nor the port (R58). -/
theorem consumerStep_waitsOn (s : State) : ∃ t, consumerStep s = .next t ∧ WaitsOn s t := by
  unfold consumerStep
  split
  · exact ⟨s, rfl, .refl s⟩
  · rename_i a rest _
    refine ⟨_, rfl, ?_⟩
    cases a <;> exact ⟨rfl, rfl, rfl, rfl, rfl⟩

/-- A poll of an empty ring leaves the same poll to make (R195). -/
theorem mainStep_poll {s : State} {rest : List Micro} (hm : s.main = .recv :: rest) (hc : s.count = 0) :
    mainStep s = .next s := by
  rw [mainStep, hm]
  calc runMicro .recv { s with main := rest } = .next { s with main := .recv :: rest } :=
        congrArg _ (recvStep_empty (s := { s with main := rest }) hc)
    _ = .next s := by rw [← hm]

/-- Settles O37: by induction over the turns, each of which waits on. -/
theorem recvHangsWithoutABearer : Obligations.RecvHangsWithoutABearer := by
  intro s rest ts hm hc hbearer hturns
  induction ts generalizing s with
  | nil => exact ⟨_, rfl, hm, hc, rfl, rfl⟩
  | cons u ts ih =>
    obtain ⟨t, ht, hmain, hcount, hps, harmed, hsched⟩ :
        ∃ t, takeTurn u { s with sched := ts } = .next t ∧ WaitsOn { s with sched := ts } t := by
      rcases hturns u List.mem_cons_self with rfl | rfl | rfl | ⟨c, d, rfl⟩ | ⟨d, rfl⟩
      · exact ⟨_, mainStep_poll hm hc, .refl _⟩
      · exact consumerStep_waitsOn _
      · exact deviceStep_waitsOn hbearer
      · exact setDeviceLines_waitsOn c d hbearer
      · exact takeTurn_edge_waitsOn d hbearer
    have hbearer' : WithoutBearer t := by rw [WithoutBearer, hps, harmed]; exact hbearer
    obtain ⟨w, hw, hwmain, hwcount, hwps, hwarmed⟩ :=
      ih t (hmain.trans hm) (hcount.trans hc) hbearer' fun v hv => hturns v (List.mem_cons_of_mem u hv)
    have hlisted : t = { t with sched := ts } := congrArg (fun q => { t with sched := q }) hsched
    rw [← hlisted] at hw
    have hstep : step { s with sched := u :: ts } = .next t := (step_listed rfl).trans ht
    exact ⟨w, (runFor_succ hstep).trans hw, hwmain, hwcount, hwps.trans hps, hwarmed.trans harmed⟩

end Sys2Proof.Machine
end

section
/-! ## The request-to-send and the exchange of a byte (42_port_control.md R190 to R199) -/
namespace Sys2Proof.Machine

/-- An operation that begins with `write_byte(v)` runs W1 at the invocation (R190). -/
theorem onMainLine_writeByte (v : Byte) (ms : List Micro) {s : State} (h : MainIdle s) :
    onMainLine (writeByteProgram v ++ ms) s = .next { s with irqArmed := false, main := afterDisarm v ++ ms } :=
  onMainLine_idle .irqDisarm (afterDisarm v ++ ms) h

theorem execWriteByte_idle (v : Byte) {s : State} (h : MainIdle s) :
    exec (.writeByte v) s = .next { s with irqArmed := false, main := afterDisarm v } :=
  onMainLine_writeByte v [] h

/-- Settles O34: W1 at the invocation, then W2 to W7. -/
theorem writeByteSetsUpTheFrame : Obligations.WriteByteSetsUpTheFrame := by
  intro s v hmain
  refine ⟨_, execWriteByte_idle v hmain, rfl, rfl, ?_⟩
  rw [request_to_send (k := 0) (rest := []) (ms := []) (v := v) (.inl rfl) rfl rfl, ← hmain.2]
  rfl

/-! ### The lines during the request-to-send -/

/-- What is seen of the host after each of the next steps begins with what the first of them leaves. -/
theorem drivesOf_runs_succ {n : Nat} {s t : State} {seen : Option (Drive × Drive × Bool)}
    {later : List (Option (Drive × Drive × Bool))} (h : step s = .next t) (hfirst : drivesOf (.next t) = seen)
    (hlater : (List.range n).map (fun k => drivesOf (runFor (k + 1) t)) = later) :
    (List.range (n + 1)).map (fun k => drivesOf (runFor (k + 1) s)) = seen :: later := by
  have hshift : ∀ k, runFor (k + 1) s = runFor k t := fun k => runFor_succ h
  rw [List.range_succ_eq_map, List.map_cons, List.map_map, ← hfirst, ← hlater, hshift]
  exact congrArg _ (List.map_congr_left fun k _ => congrArg drivesOf (hshift (k + 1)))

theorem decode_encode_writeByte (v : Byte) : decode (encode (.writeByte v)) = .ok (.writeByte v) := rfl

/-- The turn that invokes `write_byte(v)` on an idle main line runs W1. -/
theorem step_invoke_writeByte {s : State} {v : Byte} {rest : List Turn} (hs : s.sched = invoke (.writeByte v) :: rest)
    (h : MainIdle s) : step s = .next { s with sched := rest, irqArmed := false, main := afterDisarm v } := by
  have hexec := execWriteByte_idle v (s := enterContext .mainline { s with sched := rest }) ⟨rfl, h.2⟩
  rw [step_listed hs]
  calc issue .mainline (encode (.writeByte v)) { s with sched := rest }
      = mapNext leaveContext (exec (.writeByte v) (enterContext .mainline { s with sched := rest })) :=
        issue_of_decode .mainline _ (decode_encode_writeByte v)
    _ = .next (leaveContext { s with sched := rest, irqArmed := false, main := afterDisarm v }) := by rw [hexec]; rfl
    _ = .next { s with sched := rest, irqArmed := false, main := afterDisarm v } :=
        congrArg _ (leaveContext_of_mainline h.1)

/-- Settles O35: the seven sub-steps one after the other; the interrupt is disarmed when W2 makes its edge. -/
theorem requestToSendOnTheLines : Obligations.RequestToSendOnTheLines := by
  intro s v hmain hclk hdata
  refine drivesOf_runs_succ (step_invoke_writeByte (by rfl) (by exact hmain)) (by simp [drivesOf, hclk, hdata]) ?_
  refine drivesOf_runs_succ (step_main_next (m := .clkLow) (.inl (by rfl)) (by rfl)
    (by exact pullClockLow_disarmed rfl)) (by simp [drivesOf, hdata]) ?_
  refine drivesOf_runs_succ (step_main_next (m := .hold) (.inl (by rfl)) (by rfl) (by rfl))
    (by simp [drivesOf, delayFor, hdata]) ?_
  refine drivesOf_runs_succ (step_main_next (m := .dataLow) (.inl (by rfl)) (by rfl) (by rfl)) (by rfl) ?_
  refine drivesOf_runs_succ (step_main_next (m := .clkRelease) (.inl (by rfl)) (by rfl) (by rfl)) (by rfl) ?_
  refine drivesOf_runs_succ (step_main_next (m := .setup v) (.inl (by rfl)) (by rfl) (by rfl)) (by rfl) ?_
  exact drivesOf_runs_succ (step_main_next (m := .irqArm) (.inl (by rfl)) (by rfl) (by rfl)) (by rfl) (by rfl)

/-! ### Sending a byte and checking the reply -/

theorem sendingRow_eq_send {v : Byte} {row : Instr × Byte} (h : row ∈ sendingRows v) :
    exec row.1 = onMainLine (sendProgram row.2) := by
  fin_cases h <;> rfl

/-- Settles O38: W1 at the invocation, then `send_exchange`. -/
theorem sendByteWithAckChecksTheReply : Obligations.SendByteWithAckChecksTheReply := by
  intro s v r row hrow hmain hcells
  refine ⟨_, Memory.write s.ring 0 r,
    (congrFun (sendingRow_eq_send hrow) s).trans (onMainLine_writeByte row.2 [.recv, .ackCheck] hmain), ?_,
    Memory.read_write_same hcells 0 r, fun a ha => Memory.read_write_other s.ring r ha⟩
  refine (send_exchange (k := 0) (rest := []) (ms := []) (ds := []) (v := row.2) (r := r) (.inl (by rfl)) (by rfl)
    (by rfl) (by rfl) (by exact hcells)).trans ?_
  rw [← hmain.2]
  rfl

/-- W2 to W7, the write frame without its acknowledgment, and a poll: the ring W6 cleared holds no reply (R199). -/
theorem send_unacknowledged {s : State} {rest : List Turn} {ms : List Micro} {ds : List Bool} {v : Byte} {k : Nat}
    (hs : s.sched = mainThenDevice 6 11 ++ [.main] ++ rest) (hm : s.main = afterDisarm v ++ (.recv :: ms))
    (hd : s.dev = txClockLevels true ++ ds) (ha : s.irqArmed = false) :
    runFor (k + 18) s = runFor k
      { s with sched := rest, main := .recv :: ms, dev := ds, clkDrive := .released, dataDrive := .released, wr := 0,
               rd := 0, count := 0, ps := .error, fc := 0, sr := 0, par := parity v, irqArmed := true, devClk := .low,
               devData := .released } := by
  refine (request_to_send (k := k + 12) (rest := List.replicate 11 .device ++ (.main :: rest)) (.inl hs) hm ha).trans ?_
  refine (write_frame (k := k + 1) (j := true) (.inl (by rfl)) (by exact hd) (by rfl) (by rfl) (by rfl) (by rfl)).trans ?_
  exact runFor_succ (step_main_next (m := .recv) (.inl (by rfl)) (by rfl) (congrArg _ (recvStep_empty (by rfl))))

/-- Settles O39: W1 at the invocation, then `send_unacknowledged`. -/
theorem missingAckBitLeavesTheSendWaiting : Obligations.MissingAckBitLeavesTheSendWaiting := by
  intro s v hmain
  exact ⟨_, _, onMainLine_writeByte v [.recv, .ackCheck] hmain,
    send_unacknowledged (k := 0) (rest := []) (ms := [.ackCheck]) (ds := []) (v := v) rfl rfl rfl rfl, rfl, rfl, rfl⟩

end Sys2Proof.Machine
end

section
/-! ## A packet once begun finds its bytes (43_mouse_session.md R226)
SUPPORT. Only P2 and P3 can fault. Outside a packet the main line has neither to do, P1 begins a packet only when the
ring holds all of it, and until its bytes are taken no other agent takes one from the ring. -/
namespace Sys2Proof.Machine

/-! ### Only the main line can fault -/

/-- The outcome is no fault. -/
def Faultless (o : Out) : Prop := ∀ f, o ≠ .fault f

theorem faultless_next (s : State) : Faultless (.next s) := fun _ => nofun

theorem faultless_refused (r : Refusal) : Faultless (.refused r) := fun _ => nofun

theorem Faultless.mapNext {f : State → State} {o : Out} (h : Faultless o) : Faultless (mapNext f o) := by
  cases o with
  | next s => exact faultless_next _
  | fault r => exact absurd rfl (h r)
  | refused r => exact faultless_refused r

theorem engine_faultless (s : State) : Faultless (engine s) := by
  unfold engine
  split
  · exact faultless_next _
  · exact faultless_refused _

theorem enginePushing_faultless (v : Byte) (s : State) : Faultless (enginePushing v s) := by
  unfold enginePushing
  split
  · exact faultless_next _
  · exact engine_faultless s

theorem fallingEdge_faultless (s : State) : Faultless (fallingEdge s) := by
  unfold fallingEdge
  split
  · exact engine_faultless s
  · exact faultless_next s

theorem atFall_faultless {k : State → Out} (h : ∀ s, Faultless (k s)) (s : State) : Faultless (atFall k s) := by
  by_cases hh : s.irqArmed = true ∧ s.clkDrive = .released
  · rw [atFall_handled k hh.1 hh.2]; exact h _
  · rw [atFall_lost k (unhandled_of_not hh)]; exact faultless_next _

theorem clockEdge_faultless (d : Bool) (s : State) : Faultless (clockEdge d s) := atFall_faultless engine_faultless _

theorem setDeviceLines_faultless (c d : Drive) (s : State) : Faultless (setDeviceLines c d s) := by
  simp only [setDeviceLines]
  split
  · exact fallingEdge_faultless _
  · exact faultless_next _

theorem pullClockLow_faultless (s : State) : Faultless (pullClockLow s) := by
  simp only [pullClockLow]
  split
  · exact fallingEdge_faultless _
  · exact faultless_next _

theorem deviceStep_faultless (s : State) : Faultless (deviceStep s) := by
  unfold deviceStep
  split
  · exact faultless_next s
  · exact clockEdge_faultless _ _

theorem fromDevice_faultless (l : List Bool) (s : State) : Faultless (fromDevice l s) := by
  unfold fromDevice beginFrame
  split
  · split
    · exact deviceStep_faultless _
    · exact faultless_next _
  · exact faultless_refused _

theorem atSelector_faultless {p : PortState} {f : BitVec 4} {ph : Phase} (hph : phaseAt p f = some ph) (s : State) :
    Faultless (atSelector p f ph s) := by
  unfold atSelector
  split
  · exact atFall_faultless (fun t => by rw [branch_eq_engine hph]; exact engine_faultless t) s
  · exact faultless_refused _

theorem execEdge_faultless (d : Bool) (s : State) : Faultless (execEdge d s) := by
  unfold execEdge
  split
  · exact clockEdge_faultless d s
  · exact faultless_refused _

theorem execPush_faultless (v : Byte) (s : State) : Faultless (execPush v s) := by
  unfold execPush
  split
  · exact atFall_faultless (enginePushing_faultless v) s
  · exact faultless_refused _

theorem consumerStep_faultless (s : State) : Faultless (consumerStep s) := by
  unfold consumerStep
  split <;> exact faultless_next _

theorem byConsumer_faultless (p : List Access) (s : State) : Faultless (byConsumer p s) := by
  unfold byConsumer beginConsumer
  split
  · exact faultless_refused _
  · split
    · exact consumerStep_faultless _
    · exact faultless_next _

/-! ### The main line does not fault under the packet invariant -/

/-- P2 and P3 are the only sub-steps that can fault (R226). -/
theorem runMicro_faultless {m : Micro} (hm : m ≠ .takeByte ∧ m ≠ .decodePacket) (s : State) :
    Faultless (runMicro m s) := by
  cases m with
  | clkLow => exact pullClockLow_faultless s
  | takeByte => exact absurd rfl hm.1
  | decodePacket => exact absurd rfl hm.2
  | _ => exact faultless_next _

/-- A pop of P2 that finds a byte (R226). -/
theorem takeByteStep_some {s : State} (h : s.count ≠ 0) :
    takeByteStep s = .next
      { s with rd := s.rd + 1, count := s.count - 1, pkt := s.pkt ++ [Memory.read s.ring s.rd.toNat] } := by
  rw [takeByteStep, ringPop_some h]

/-- P3 for the three bytes of a packet: `b` now, `x` and `y` next (R227). -/
theorem decodePacketStep_three {s : State} {b0 b1 b2 : Byte} (h : s.pkt = [b0, b1, b2]) :
    decodePacketStep s = .next { s with b := b0 &&& 7, main := .addX b1 :: .subY b2 :: s.main } := by
  rw [decodePacketStep, h]
  rfl

/-- P3 for the four bytes of a packet: `b` now, `x`, `y` and `z` next (R227). -/
theorem decodePacketStep_four {s : State} {b0 b1 b2 b3 : Byte} (h : s.pkt = [b0, b1, b2, b3]) :
    decodePacketStep s = .next { s with b := b0 &&& 7, main := .addX b1 :: .subY b2 :: .addZ b3 :: s.main } := by
  rw [decodePacketStep, h]
  rfl

/-- P3 for a packet of either length does not fault, and leaves no P2 or P3 to do (R227). -/
theorem decodePacketStep_of_packetLen {s : State} {w : Bool} (h : s.pkt.length = packetLen w) :
    ∃ b adds, NoPacketWork adds ∧ decodePacketStep s = .next { s with b := b, main := adds ++ s.main } := by
  cases w with
  | false =>
    obtain ⟨b0, b1, b2, hpkt⟩ := List.length_eq_three.mp h
    exact ⟨_, [.addX b1, .subY b2], by simp [NoPacketWork], decodePacketStep_three hpkt⟩
  | true =>
    obtain ⟨b0, b1, b2, b3, hpkt⟩ := List.length_eq_four.mp h
    exact ⟨_, [.addX b1, .subY b2, .addZ b3], by simp [NoPacketWork], decodePacketStep_four hpkt⟩

theorem NoPacketWork.head {m : Micro} {l : List Micro} (h : NoPacketWork (m :: l)) :
    m ≠ .takeByte ∧ m ≠ .decodePacket := h m List.mem_cons_self

theorem NoPacketWork.tail {m : Micro} {l : List Micro} (h : NoPacketWork (m :: l)) : NoPacketWork l :=
  fun m' hm' => h m' (List.mem_cons_of_mem m hm')

theorem NoPacketWork.cons {m : Micro} {l : List Micro} (hm : m ≠ .takeByte ∧ m ≠ .decodePacket) (h : NoPacketWork l) :
    NoPacketWork (m :: l) := List.forall_mem_cons.mpr ⟨hm, h⟩

/-- What the packet invariant says of the main line's next sub-step: it is outside P2 and P3, it is a pop of P2 that
finds a byte, or it is P3 with `PLEN` bytes taken (R226). -/
theorem PacketInv.next_cases {s : State} {m : Micro} {rest : List Micro} (h : PacketInv s) (hm : s.main = m :: rest) :
    NoPacketWork (m :: rest) ∨
    (∃ n tail, m = .takeByte ∧ rest = List.replicate n .takeByte ++ .decodePacket :: tail ∧ NoPacketWork tail ∧
      n + 1 ≤ s.count ∧ s.pkt.length + (n + 1) = packetLen s.wheel) ∨
    (m = .decodePacket ∧ NoPacketWork rest ∧ s.pkt.length = packetLen s.wheel) := by
  rcases h with hplain | ⟨n, tail, hmain, hplain, hcount, hlen⟩
  · exact .inl (hm ▸ hplain)
  · rw [hm] at hmain
    cases n with
    | zero => cases hmain; exact .inr (.inr ⟨rfl, hplain, hlen⟩)
    | succ n => cases hmain; exact .inr (.inl ⟨n, tail, rfl, rfl, hplain, hcount, hlen⟩)

theorem mainStep_faultless {s : State} (h : PacketInv s) : Faultless (mainStep s) := by
  unfold mainStep
  split
  · exact faultless_next s
  · rename_i m rest hm
    rcases h.next_cases hm with hplain | ⟨n, tail, rfl, -, -, hcount, -⟩ | ⟨rfl, -, hlen⟩
    · exact runMicro_faultless hplain.head _
    · have hbyte : s.count ≠ 0 := Nat.ne_of_gt (Nat.lt_of_lt_of_le n.succ_pos hcount)
      rw [runMicro, takeByteStep_some (s := { s with main := rest }) hbyte]
      exact faultless_next _
    · obtain ⟨_, adds, -, hdecode⟩ := decodePacketStep_of_packetLen (s := { s with main := rest }) hlen
      rw [runMicro, hdecode]
      exact faultless_next _

/-- The programs that operations hand to an idle main line are outside P2 and P3. -/
theorem beginMain_faultless {p : List Micro} (hp : NoPacketWork p) (s : State) : Faultless (beginMain p s) := by
  unfold beginMain
  split
  · exact mainStep_faultless (.inl hp)
  · exact faultless_next _

theorem onMainLine_faultless {p : List Micro} (hp : NoPacketWork p) (s : State) : Faultless (onMainLine p s) := by
  unfold onMainLine
  split
  · exact beginMain_faultless hp s
  · exact faultless_refused _

theorem onEntry_faultless {p : List Micro} (hp : NoPacketWork p) (s : State) : Faultless (onEntry p s) := by
  unfold onEntry
  split
  · exact faultless_refused _
  · exact beginMain_faultless hp s

/-- No operation faults when it is invoked, whatever the state is. -/
theorem exec_faultless (i : Instr) (s : State) : Faultless (exec i s) := by
  cases i with
  | errNop | rdStart | rdDataB0 | rdDataB1 | rdDataB2 | rdDataB3 | rdDataB4 | rdDataB5 | rdDataB6 | rdDataB7 | rdParity
  | rdStop | wrDataB0 | wrDataB1 | wrDataB2 | wrDataB3 | wrDataB4 | wrDataB5 | wrDataB6 | wrDataB7 | wrParity | wrStop
  | wrAck => exact atSelector_faultless rfl s
  | frameRx | rspAck | rspBatOk | rspIdStd | rspIdWheel => exact fromDevice_faultless _ s
  | edge d => exact execEdge_faultless d s
  | push v => exact execPush_faultless v s
  | frameTx v p k =>
    exact onMainLine_faultless (writeByteProgram_plain v) { s with dev := s.dev ++ txClockLevels k }
  | cmdReset | cmdGetId | cmdSetRate | cmdSetRes | cmdEnable | argRate200 | argRate100 | argRate80 | argRes8cpmm
  | argRateCfg | sendByteWithAck => exact onMainLine_faultless (sendProgram_plain _) s
  | writeByte v => exact onMainLine_faultless (writeByteProgram_plain v) s
  | pop | clear | clkLow | clkRelease | dataLow | dataRelease | delay | irqDisarm | irqArm | initializePort
  | recvByteBlocking => exact onMainLine_faultless (by simp [NoPacketWork]) s
  | packet3 i m dx dy =>
    simp only [exec, execPacket3]
    split
    · exact faultless_refused _
    · exact onMainLine_faultless (by simp [NoPacketWork, packetProgram3]) s
  | packet4 i m dx dy dz =>
    simp only [exec, execPacket4]
    split
    · exact onMainLine_faultless (by simp [NoPacketWork, packetProgram4]) s
    · exact faultless_refused _
  | startSession => exact onEntry_faultless (sessionProgram_plain _ _) s
  | processAvailableData => exact onEntry_faultless (by simp [NoPacketWork]) s
  | consumerRead | consumerDrain => exact byConsumer_faultless _ s

theorem takeTurn_faultless (u : Turn) {s : State} (h : PacketInv s) : Faultless (takeTurn u s) := by
  cases u with
  | issue c w =>
    simp only [takeTurn, issue]
    split
    · exact (exec_faultless _ (enterContext c s)).mapNext
    · exact faultless_refused _
  | main => exact mainStep_faultless h
  | device => exact deviceStep_faultless s
  | consumer => exact consumerStep_faultless s
  | lines c d => exact setDeviceLines_faultless c d s

theorem step_faultless {s : State} (h : PacketInv s) : Faultless (step s) := by
  unfold step nextTurn
  split
  · rename_i u rest _
    exact takeTurn_faultless u (s := { s with sched := rest }) h
  · unfold defaultTurn
    split
    · exact consumerStep_faultless s
    · split
      · exact deviceStep_faultless s
      · exact mainStep_faultless h

/-! ### Every move keeps the packet invariant -/

/-- The packet being taken is untouched, and the ring holds no fewer bytes. -/
def PacketUndisturbed (s t : State) : Prop :=
  t.main = s.main ∧ t.pkt = s.pkt ∧ t.wheel = s.wheel ∧ s.count ≤ t.count

theorem PacketUndisturbed.packetInv {s t : State} (e : PacketUndisturbed s t) (h : PacketInv s) : PacketInv t := by
  obtain ⟨hmain, hpkt, hwheel, hcount⟩ := e
  rcases h with hplain | ⟨n, rest, hm, hplain, hn, hlen⟩
  · exact .inl (hmain ▸ hplain)
  · exact .inr ⟨n, rest, hmain.trans hm, hplain, hn.trans hcount, by rw [hpkt, hwheel]; exact hlen⟩

theorem countDown_stopPushing_count_le (v : Byte) (s : State) : s.count ≤ (countDown (stopPushing v s)).count := by
  unfold stopPushing
  split
  · rcases ringPush_cases v s with ⟨-, e⟩ | ⟨-, e⟩ <;> rw [e]
    · exact le_rfl
    · exact Nat.le_succ _
  · exact le_rfl

theorem stopPushing_undisturbed (v : Byte) (s : State) : PacketUndisturbed s (countDown (stopPushing v s)) := by
  have hcount := countDown_stopPushing_count_le v s
  obtain ⟨_, _, _, _, _, hframe⟩ := stopPushing_frame v s
  rw [hframe] at hcount ⊢
  exact ⟨rfl, rfl, rfl, hcount⟩

/-- `RD_STOP` is the only phase that reaches `count`, by a push (R136, R160). -/
theorem runPhase_undisturbed (ph : Phase) (s : State) : PacketUndisturbed s (runPhase ph s) := by
  cases ph with
  | rdStop => exact stopPushing_undisturbed s.sr s
  | errNop | rdData | wrData | wrParity | wrStop => exact ⟨rfl, rfl, rfl, le_rfl⟩
  | rdStart => simp only [runPhase, readStart]; split <;> exact ⟨rfl, rfl, rfl, le_rfl⟩
  | rdParity => simp only [runPhase, readParity]; split <;> exact ⟨rfl, rfl, rfl, le_rfl⟩
  | wrAck => simp only [runPhase, writeAck]; split <;> exact ⟨rfl, rfl, rfl, le_rfl⟩

theorem Prepared.packetInv {s u : State} (hp : Prepared s u) (h : PacketInv s) : PacketInv u := by
  obtain ⟨_, _, _, _, _, _, _, rfl, p, hplain, rfl⟩ := hp
  rcases h with hs | ⟨n, rest, hm, hrest, hn, hlen⟩
  · exact .inl (hs.append hplain)
  · exact .inr ⟨n, rest ++ p, by rw [hm]; simp, hrest.append hplain, hn, hlen⟩

/-- `goto FAIL` only drops sub-steps (R221). -/
theorem NoPacketWork.afterSession {l : List Micro} (h : NoPacketWork l) : NoPacketWork (afterSession l) := by
  fun_induction Machine.afterSession l with
  | case1 => exact h
  | case2 => exact h.tail
  | case3 _ _ _ ih => exact ih h.tail

theorem gotoFail_plain {s : State} (h : NoPacketWork s.main) : NoPacketWork (gotoFail s).main :=
  h.afterSession.cons (by simp)

/-- P1 is the only sub-step from which a packet begins, and it begins one only when the ring holds it (R226). -/
theorem packetTestStep_packetInv {s : State} (h : NoPacketWork s.main) : PacketInv (packetTestStep s) := by
  unfold packetTestStep
  split
  · rename_i hcount
    exact .inr ⟨packetLen s.wheel, .packetTest :: s.main, by simp [takePacketProgram], h.cons (by simp), hcount,
      Nat.zero_add _⟩
  · exact .inl (h.cons (by simp))

/-- No other sub-step outside P2 and P3 leads into them. -/
theorem runMicro_plain {m : Micro} {s t : State} (hm : m ≠ .takeByte ∧ m ≠ .decodePacket) (hp : m ≠ .packetTest)
    (hs : NoPacketWork s.main) (h : runMicro m s = .next t) : NoPacketWork t.main := by
  cases m with
  | clkLow =>
    rcases pullClockLow_cases h with rfl | ⟨-, ph, -, rfl⟩
    · exact hs
    · have ⟨hmain, _⟩ := runPhase_undisturbed ph { s with clkDrive := .low }
      rw [hmain]; exact hs
  | takeByte => exact absurd rfl hm.1
  | decodePacket => exact absurd rfl hm.2
  | packetTest => exact absurd rfl hp
  | pop =>
    cases h
    by_cases hc : s.count = 0
    · rw [popStep_empty hc]; exact hs
    · rw [popStep_some hc]; exact hs
  | recv =>
    cases h
    by_cases hc : s.count = 0
    · rw [recvStep_empty hc]; exact hs.cons (by simp)
    · rw [recvStep_some hc]; exact hs
  | ackCheck => cases h; unfold ackCheckStep; split <;> exact hs
  | cmdTest =>
    cases h; unfold cmdTestStep; split
    · exact gotoFail_plain hs
    · exact hs
  | batCheck =>
    cases h; unfold batCheckStep; split
    · exact hs
    · exact gotoFail_plain hs
  | idCheck =>
    cases h; unfold idCheckStep; split
    · exact hs
    · exact gotoFail_plain hs
  | recovery =>
    cases h; unfold recoveryStep; split
    · exact (sessionProgram_plain _ _).append hs
    · exact hs
  | _ => cases h; exact hs

theorem runMicro_packetInv {u v : State} {m : Micro} {rest : List Micro} (h : PacketInv u) (hm : u.main = m :: rest)
    (hr : runMicro m { u with main := rest } = .next v) : PacketInv v := by
  rcases h.next_cases hm with hplain | ⟨n, tail, rfl, hrest, htail, hcount, hlen⟩ | ⟨rfl, hrest, hlen⟩
  · by_cases hp : m = .packetTest
    · subst hp
      cases hr
      exact packetTestStep_packetInv hplain.tail
    · exact .inl (runMicro_plain hplain.head hp hplain.tail hr)
  · have hbyte : u.count ≠ 0 := Nat.ne_of_gt (Nat.lt_of_lt_of_le n.succ_pos hcount)
    rw [runMicro, takeByteStep_some (s := { u with main := rest }) hbyte] at hr
    cases hr
    refine .inr ⟨n, tail, hrest, htail, Nat.le_sub_one_of_lt hcount, ?_⟩
    rw [← hlen, List.length_append]
    simp only [List.length_singleton]
    omega
  · obtain ⟨_, adds, hadds, hdecode⟩ := decodePacketStep_of_packetLen (s := { u with main := rest }) hlen
    rw [runMicro, hdecode] at hr
    cases hr
    exact .inl (hadds.append hrest)

theorem Move.packetInv {u v : State} (hm : Move u v) (h : PacketInv u) : PacketInv v := by
  cases hm with
  | none => exact h
  | phase => exact (runPhase_undisturbed _ u).packetInv h
  | micro hmain hr => exact runMicro_packetInv h hmain hr
  | access a => cases a <;> exact h
  | push v => exact (stopPushing_undisturbed v u).packetInv h

/-- Settles O49: only the main line can fault, the invariant gives its pops their bytes, and every move keeps it. -/
theorem packetTakesNeverUnderrun : Obligations.PacketTakesNeverUnderrun :=
  fun _ hs => ⟨step_faultless hs, fun _ ht =>
    step_keeps (fun _ _ => Prepared.packetInv) (fun _ _ => Move.packetInv) ht hs⟩

end Sys2Proof.Machine
end

section
/-! ## One sub-step of the session and of the decoder (43_mouse_session.md R212 to R221, R227) -/
namespace Sys2Proof.Machine

theorem mainStep_of_main {s : State} {m : Micro} {rest : List Micro} (h : s.main = m :: rest) :
    mainStep s = runMicro m { s with main := rest } := by rw [mainStep, h]

/-- A session program ends with its only `streaming`, so that FAIL drops all of it and nothing behind it (R221). -/
theorem afterSession_sessionProgram (w : Bool) (r : Byte) (tail : List Micro) :
    afterSession (sessionProgram w r ++ tail) = tail := by cases w <;> rfl

/-- Settles O43: each check is one sub-step. -/
theorem sessionChecksAbortTheHandshake : Obligations.SessionChecksAbortTheHandshake := fun _ _ =>
  ⟨mainStep_of_main, mainStep_of_main, mainStep_of_main, mainStep_of_main, mainStep_of_main, mainStep_of_main,
    afterSession_sessionProgram⟩

/-- Settles O45: each write of the decoder is one sub-step. -/
theorem decoderStepsAreSeparate : Obligations.DecoderStepsAreSeparate := fun s _ _ _ _ _ rest =>
  ⟨fun hm hpkt => (mainStep_of_main hm).trans (decodePacketStep_three (s := { s with main := rest }) hpkt),
    fun hm hpkt => (mainStep_of_main hm).trans (decodePacketStep_four (s := { s with main := rest }) hpkt),
    mainStep_of_main, mainStep_of_main, mainStep_of_main, mainStep_of_main, rfl, rfl⟩

end Sys2Proof.Machine
end

section
/-! ## process_available_data without a complete packet (43_mouse_session.md R224, R229 to R231) -/
namespace Sys2Proof.Machine

/-- An entry point begins its operation with the first sub-step at once on an idle main line (R14, R71). -/
theorem onEntry_idle (m : Micro) (ms : List Micro) {s : State} (hc : s.ctx ≠ .interrupt) (hm : s.main = []) :
    onEntry (m :: ms) s = runMicro m { s with main := ms } := by
  rw [onEntry, if_neg hc, beginMain, hm]
  rfl

/-- The call of `process_available_data` runs its first P1 (R224). -/
theorem execProcess_idle {s : State} (hc : s.ctx ≠ .interrupt) (hm : s.main = []) :
    exec .processAvailableData s = .next (packetTestStep s) := by
  refine (onEntry_idle .packetTest [] hc hm).trans ?_
  rw [← hm]
  rfl

/-- P1 with a complete packet goes on to P2 (R224, R226). -/
theorem packetTestStep_complete {s : State} (h : packetLen s.wheel ≤ s.count) :
    packetTestStep s = { s with pkt := [], main := takePacketProgram (packetLen s.wheel) ++ s.main } := if_pos h

/-- P1 without a complete packet goes on to P4 (R224). -/
theorem packetTestStep_partial {s : State} (h : s.count < packetLen s.wheel) :
    packetTestStep s = { s with main := .recovery :: s.main } := if_neg h.not_ge

/-- P4 without an error returns true (R230). -/
theorem recoveryStep_of_ok {s : State} (h : s.ps ≠ .error) : recoveryStep s = { s with ret := .flag true } := if_neg h

/-- P4 in `Error` counts the error and re-handshakes (R229). -/
theorem recoveryStep_of_error {s : State} (h : s.ps = .error) :
    recoveryStep s =
      { s with errcnt := s.errcnt + 1, main := sessionProgram s.wheelEnabled s.sampleRate ++ s.main } := if_pos h

/-- The call with less than a packet in the ring leaves P4 to do. -/
theorem execProcess_partial {s : State} (hc : s.ctx ≠ .interrupt) (hm : s.main = [])
    (hn : s.count < packetLen s.wheel) : exec .processAvailableData s = .next { s with main := [.recovery] } := by
  rw [execProcess_idle hc hm, packetTestStep_partial hn, hm]

/-- Settles O47. -/
theorem processIsIdempotentWithoutPackets : Obligations.ProcessIsIdempotentWithoutPackets := by
  intro s hc hm hps hn
  refine ⟨_, execProcess_partial hc hm hn, ?_⟩
  refine (runFor_succ (step_main_next (.inl rfl) rfl (congrArg _
    (recoveryStep_of_ok (s := { s with main := [], sched := [] }) hps)))).trans ?_
  rw [← hm]
  rfl

/-- Settles O48: P4 puts the session program before an idle main line, and its first sub-step is S0. -/
theorem processRecoversFromError : Obligations.ProcessRecoversFromError := by
  intro s hc hm hps hn
  have hrecovery (rest : List Turn) : step { s with main := [.recovery], sched := .main :: rest } = .next
      { s with errcnt := s.errcnt + 1, main := sessionProgram s.wheelEnabled s.sampleRate, sched := rest } :=
    step_main_next (.inl rfl) rfl (congrArg _
      ((recoveryStep_of_error (s := { s with main := [], sched := rest }) hps).trans (by rw [List.append_nil])))
  exact ⟨_, _, execProcess_partial hc hm hn, runFor_succ (hrecovery []),
    (runFor_succ (hrecovery [.main])).trans (runFor_succ (step_main_next (m := .sessionInit) (.inl rfl) rfl rfl)),
    rfl, rfl, rfl, rfl, rfl, rfl, rfl, rfl, rfl, rfl⟩

end Sys2Proof.Machine
end

section
/-! ## process_available_data with complete packets (43_mouse_session.md R224 to R228)
SUPPORT. P2 takes the oldest bytes held, P3 decodes them, and P1 follows: a packet is one round of this loop, and the
rounds of `n` packets leave what `decodeHeld` says. -/
namespace Sys2Proof.Machine

/-- The oldest bytes held, one by one (R31). -/
theorem ringContents_take {s : State} {n : Nat} (h : n ≤ s.count) :
    (ringContents s).take n = (List.range n).map (heldByte s) := by
  rw [ringContents_eq_heldBytes, ← List.map_take, List.take_range, Nat.min_eq_left h]

/-- P2: pops that find a byte each take the oldest bytes in order (R226). -/
theorem run_takeBytes {n : Nat} {s : State} {ms : List Micro} {rest : List Turn} {k : Nat}
    (hs : s.sched = List.replicate n .main ++ rest) (hm : s.main = List.replicate n .takeByte ++ ms) (hn : n ≤ s.count) :
    runFor (k + n) s = runFor k
      { s with sched := rest, main := ms, rd := s.rd + BitVec.ofNat 8 n, count := s.count - n,
               pkt := s.pkt ++ (ringContents s).take n } := by
  induction n generalizing s with
  | zero =>
    rw [← (show s.sched = rest from hs), ← (show s.main = ms from hm)]
    simp
  | succ n ih =>
    have hbyte : s.count ≠ 0 := Nat.ne_of_gt (Nat.lt_of_lt_of_le n.succ_pos hn)
    refine (runFor_succ (step_main_next (.inl hs) hm (takeByteStep_some hbyte))).trans ?_
    refine (ih rfl rfl (Nat.le_sub_one_of_lt hn)).trans ?_
    have hrd : s.rd + 1 + BitVec.ofNat 8 n = s.rd + BitVec.ofNat 8 (n + 1) := by
      rw [Nat.add_comm, BitVec.ofNat_add, BitVec.add_assoc]; rfl
    have hcount : s.count - 1 - n = s.count - (n + 1) := by omega
    have htaken := ringContents_of_taken (s := s) (t := { s with rd := s.rd + 1, count := s.count - 1 }) hbyte rfl rfl rfl
    simp only [hrd, hcount, List.append_assoc]
    rw [htaken]
    rfl

/-- The main-line turns of one packet: the pops of P2, the writes of P3, and P1. -/
def packetTurns (wheel : Bool) : Nat := if wheel then 9 else 7

/-- One round of the loop, from just after a P1 that finds a packet to just after the next P1 (R224). -/
theorem run_packet {s : State} {rest : List Turn} {k : Nat} (hn : packetLen s.wheel ≤ s.count) :
    runFor (k + packetTurns s.wheel)
        (packetTestStep { s with sched := List.replicate (packetTurns s.wheel) .main ++ rest }) =
      runFor k (packetTestStep
        { s with b := heldByte s 0 &&& 7, x := wrap s.accBits (s.x + (heldByte s 1).toInt),
                 y := wrap s.accBits (s.y - (heldByte s 2).toInt),
                 z := if s.wheel then wrap s.accBits (s.z + (heldByte s 3).toInt) else s.z,
                 rd := s.rd + BitVec.ofNat 8 (packetLen s.wheel), count := s.count - packetLen s.wheel,
                 pkt := (ringContents s).take (packetLen s.wheel), sched := rest }) := by
  rw [packetTestStep_complete (s := { s with sched := List.replicate (packetTurns s.wheel) .main ++ rest }) hn]
  cases hw : s.wheel with
  | false =>
    rw [hw] at hn
    refine (run_takeBytes (n := 3) (k := k + 4) (ms := .decodePacket :: .packetTest :: s.main)
      (rest := List.replicate 4 .main ++ rest) (by rfl) (by rfl) (by exact hn)).trans ?_
    refine (runFor_succ (k := k + 3) (step_main_next (.inl (by rfl)) (by rfl)
      (by exact decodePacketStep_three (ringContents_take (s := s) hn)))).trans ?_
    refine (run_addX_subY (k := k + 1) rfl rfl).trans ?_
    exact runFor_succ (step_main_next (.inl rfl) rfl rfl)
  | true =>
    rw [hw] at hn
    refine (run_takeBytes (n := 4) (k := k + 5) (ms := .decodePacket :: .packetTest :: s.main)
      (rest := List.replicate 5 .main ++ rest) (by rfl) (by rfl) (by exact hn)).trans ?_
    refine (runFor_succ (k := k + 4) (step_main_next (.inl (by rfl)) (by rfl)
      (by exact decodePacketStep_four (ringContents_take (s := s) hn)))).trans ?_
    refine (run_addX_subY (k := k + 2) rfl rfl).trans ?_
    refine (run_addZ (k := k + 1) rfl rfl).trans ?_
    exact runFor_succ (step_main_next (.inl rfl) rfl rfl)

/-- Decoding packets reaches `b` and the accumulators only (R227). -/
theorem decodeHeld_frame (s : State) (n : Nat) :
    ∃ b x y z, decodeHeld s n = { s with b := b, x := x, y := y, z := z } := by
  induction n with
  | zero => exact ⟨_, _, _, _, rfl⟩
  | succ n ih =>
    obtain ⟨b, x, y, z, hframe⟩ := ih
    exact ⟨_, _, _, _, by rw [decodeHeld, hframe]⟩

@[simp] theorem decodeHeld_wheel (s : State) (n : Nat) : (decodeHeld s n).wheel = s.wheel := by
  obtain ⟨_, _, _, _, h⟩ := decodeHeld_frame s n
  rw [h]

@[simp] theorem decodeHeld_ring (s : State) (n : Nat) : (decodeHeld s n).ring = s.ring := by
  obtain ⟨_, _, _, _, h⟩ := decodeHeld_frame s n
  rw [h]

/-- `s` with its first `n` packets taken and decoded: `r` bytes are left, and the last bytes taken are `p`. -/
def afterPackets (s : State) (n r : Nat) (p : List Byte) : State :=
  { decodeHeld s n with rd := s.rd + BitVec.ofNat 8 (n * packetLen s.wheel), count := r, pkt := p }

/-- The byte held after the packets taken stands behind their bytes (R31). -/
theorem heldByte_afterPackets (s : State) (n r : Nat) (p : List Byte) (j : Nat) :
    heldByte (afterPackets s n r p) j = heldByte s (n * packetLen s.wheel + j) := by
  simp only [heldByte, afterPackets, decodeHeld_ring, BitVec.ofNat_add, BitVec.add_assoc]

@[simp] theorem afterPackets_wheel (s : State) (n r : Nat) (p : List Byte) : (afterPackets s n r p).wheel = s.wheel :=
  decodeHeld_wheel s n

/-- One more packet taken and decoded (R226, R227). -/
theorem afterPackets_succ (s : State) (n r : Nat) (p q : List Byte) :
    let u := afterPackets s n (packetLen s.wheel + r) p
    { u with b := heldByte u 0 &&& 7, x := wrap u.accBits (u.x + (heldByte u 1).toInt),
             y := wrap u.accBits (u.y - (heldByte u 2).toInt),
             z := if u.wheel then wrap u.accBits (u.z + (heldByte u 3).toInt) else u.z,
             rd := u.rd + BitVec.ofNat 8 (packetLen u.wheel), count := u.count - packetLen u.wheel, pkt := q } =
      afterPackets s (n + 1) r q := by
  simp only [heldByte_afterPackets, afterPackets_wheel, Nat.add_zero]
  have hrd : s.rd + BitVec.ofNat 8 (n * packetLen s.wheel) + BitVec.ofNat 8 (packetLen s.wheel) =
      s.rd + BitVec.ofNat 8 ((n + 1) * packetLen s.wheel) := by
    rw [Nat.succ_mul, BitVec.ofNat_add, BitVec.add_assoc]
  have hcount : packetLen s.wheel + r - packetLen s.wheel = r := Nat.add_sub_cancel_left _ _
  simp only [afterPackets, decodeHeld, hrd, hcount, decodeHeld_wheel]

/-- The rounds of `n` complete packets, from just after the first P1 to just after the one that follows them (R224). -/
theorem run_packets {s : State} {n r k : Nat} {rest : List Turn} (hn : s.count = n * packetLen s.wheel + r) :
    ∃ p, runFor (k + packetTurns s.wheel * n)
        (packetTestStep { s with sched := List.replicate (packetTurns s.wheel * n) .main ++ rest }) =
      runFor k (packetTestStep { afterPackets s n r p with sched := rest }) := by
  induction n generalizing r k rest with
  | zero =>
    rw [Nat.zero_mul, Nat.zero_add] at hn
    exact ⟨s.pkt, by simp [afterPackets, decodeHeld, ← hn]⟩
  | succ n ih =>
    rw [Nat.succ_mul, Nat.add_assoc] at hn
    obtain ⟨p, hrun⟩ := ih hn (k := k + packetTurns s.wheel) (rest := List.replicate (packetTurns s.wheel) .main ++ rest)
    have hround := run_packet (s := afterPackets s n (packetLen s.wheel + r) p) (rest := rest) (k := k)
      (by rw [afterPackets_wheel]; exact Nat.le_add_right _ _)
    rw [afterPackets_wheel] at hround
    refine ⟨(ringContents (afterPackets s n (packetLen s.wheel + r) p)).take (packetLen s.wheel), ?_⟩
    rw [← afterPackets_succ (p := p), Nat.mul_succ, List.replicate_add, List.append_assoc, Nat.add_comm (_ * n),
      ← Nat.add_assoc, hrun]
    simpa only [afterPackets_wheel] using hround

/-- The schedule is no matter of P1. -/
theorem packetTestStep_sched (s : State) (q : List Turn) :
    packetTestStep { s with sched := q } = { packetTestStep s with sched := q } := by
  unfold packetTestStep
  split <;> rfl

/-- P4 field by field (R229, R230). -/
theorem recoveryStep_eq (s : State) :
    recoveryStep s =
      { s with errcnt := if s.ps = .error then s.errcnt + 1 else s.errcnt,
               ret := if s.ps = .error then s.ret else .flag true,
               main := if s.ps = .error then sessionProgram s.wheelEnabled s.sampleRate ++ s.main else s.main } := by
  unfold recoveryStep
  split <;> rfl

/-- The whole of `process_available_data` after its first P1: the rounds of the complete packets held, then P4 (R224). -/
theorem run_process {s : State} {n r : Nat} (hn : s.count = n * packetLen s.wheel + r) (hr : r < packetLen s.wheel) :
    ∃ p, runFor (packetTurns s.wheel * n + 1)
        { packetTestStep s with sched := List.replicate (packetTurns s.wheel * n + 1) .main } =
      .next (recoveryStep { afterPackets s n r p with sched := [] }) := by
  obtain ⟨p, hrun⟩ := run_packets hn (k := 1) (rest := [.main])
  refine ⟨p, ?_⟩
  rw [Nat.add_comm 1] at hrun
  rw [← packetTestStep_sched, List.replicate_succ', hrun,
    packetTestStep_partial (s := { afterPackets s n r p with sched := [.main] }) (by rw [afterPackets_wheel]; exact hr)]
  exact runFor_succ (step_main_next (.inl rfl) rfl rfl)

/-- Settles O46: `run_process`, whose packets reach `b` and the accumulators only. -/
theorem processDecodesOnePacket : Obligations.ProcessDecodesOnePacket := by
  intro s n r hc hm hn hr
  obtain ⟨p, hrun⟩ := run_process hn hr
  obtain ⟨b, x, y, z, hframe⟩ := decodeHeld_frame s n
  refine ⟨_, _, execProcess_idle hc hm, hrun, ?_⟩
  rw [recoveryStep_eq, afterPackets, hframe, hm, List.append_nil]

end Sys2Proof.Machine
end

section
/-! ## The consumer (43_mouse_session.md R236, R237) -/
namespace Sys2Proof.Machine

/-- A consumer operation begins with its first access at once on an idle consumer (R81). -/
theorem byConsumer_idle (a : Access) (p : List Access) {s : State} (hc : s.ctx ≠ .interrupt) (hk : s.cons = []) :
    byConsumer (a :: p) s = .next (runAccess a { s with cons := p }) := by
  rw [byConsumer, if_neg hc, beginConsumer, hk]
  rfl

/-- An access reaches neither the schedule nor what the consumer has still to do. -/
theorem runAccess_sched_cons (a : Access) (s : State) (q : List Turn) (p : List Access) :
    runAccess a { s with sched := q, cons := p } = { runAccess a s with sched := q, cons := p } := by
  cases a <;> rfl

/-- A listed consumer turn makes the next access. -/
theorem step_consumer (a : Access) (p : List Access) (q : List Turn) (s : State) :
    step { s with sched := .consumer :: q, cons := a :: p } = .next { runAccess a s with sched := q, cons := p } :=
  calc step { s with sched := .consumer :: q, cons := a :: p }
    _ = consumerStep { s with sched := q, cons := a :: p } := step_listed (u := .consumer) rfl
    _ = .next (runAccess a { s with sched := q, cons := p }) := rfl
    _ = .next { runAccess a s with sched := q, cons := p } := by rw [runAccess_sched_cons]

/-- What a list of accesses does, one after the other (R81). -/
def runAccesses (p : List Access) (s : State) : State := p.foldl (fun u a => runAccess a u) s

/-- As many consumer turns as there are accesses to make. -/
theorem run_consumer (p : List Access) (s : State) :
    runFor p.length { s with sched := List.replicate p.length .consumer, cons := p } =
      .next { runAccesses p s with sched := [], cons := [] } := by
  induction p generalizing s with
  | nil => rfl
  | cons a p ih =>
    exact (runFor_succ (step_consumer a p _ s)).trans (ih (runAccess a s))

/-- A whole consumer operation: its first access at the invocation, the others one a turn (R236, R237). -/
theorem run_byConsumer {program : List Access} {a : Access} {p : List Access} {s : State} (hp : program = a :: p)
    (hc : s.ctx ≠ .interrupt) (hk : s.cons = []) :
    ∃ t, byConsumer program s = .next t ∧
      runFor p.length { t with sched := List.replicate p.length .consumer } =
        .next { runAccesses program s with sched := [], cons := s.cons } := by
  subst hp
  refine ⟨{ runAccess a s with cons := p, sched := s.sched }, ?_, hk ▸ run_consumer p (runAccess a s)⟩
  rw [byConsumer_idle a p hc hk]
  exact congrArg _ (runAccess_sched_cons a s s.sched p)

theorem runAccesses_readProgram (s : State) :
    runAccesses readProgram s =
      { s with snap := { x := s.x, y := s.y, z := s.z, b := s.b, sess := s.sess, wheel := s.wheel,
                         errcnt := s.errcnt } } := by
  simp only [runAccesses, readProgram, List.foldl, runAccess]

/-- The copies a drain reads are those it writes back less the amounts (R68). -/
theorem runAccesses_drainProgram (s : State) (dx dy dz : Acc) :
    runAccesses (drainProgram dx dy dz) s =
      { s with x := wrap s.accBits (s.x - dx), y := wrap s.accBits (s.y - dy), z := wrap s.accBits (s.z - dz),
               snap := { s.snap with x := s.x, y := s.y, z := s.z } } := by
  simp only [runAccesses, drainProgram, List.foldl, runAccess]

/-- Settles O50: the copies a drain reads are those it writes back less the amounts. -/
theorem consumerReadsAndDrains : Obligations.ConsumerReadsAndDrains := by
  intro s dx dy dz hc hk
  obtain ⟨t, ht, hread⟩ := run_byConsumer (program := readProgram) rfl hc hk
  obtain ⟨u, hu, hdrain⟩ := run_byConsumer (program := drainProgram dx dy dz) rfl hc hk
  rw [runAccesses_readProgram] at hread
  rw [runAccesses_drainProgram] at hdrain
  exact ⟨⟨t, ht, hread⟩, u, _, hu, hdrain, rfl⟩

end Sys2Proof.Machine
end

section
/-! ## The program of a session (43_mouse_session.md R211 to R222)
SUPPORT. A session program is S0, the self test, the commands of the wheel part if there is one, five more commands, and
the sub-step that ends it. -/
namespace Sys2Proof.Machine

/-- The commands of the wheel part: the magic rates 200, 100, 80, then GET_DEVICE_ID (R216, R217). -/
def wheelCommands : List Byte :=
  [Config.cmdSetRate, Config.rate200, Config.cmdSetRate, Config.rate100, Config.cmdSetRate, Config.rate80,
    Config.cmdGetId]

/-- The commands of S6 to S8 (R218, R219, R220). -/
def closingCommands (rate : Byte) : List Byte :=
  [Config.cmdSetRes, Config.resArg, Config.cmdSetRate, rate, Config.cmdEnable]

/-- What a session does after the self test. -/
def afterSelfTest (wheelEnabled : Bool) (rate : Byte) : List Micro :=
  (if wheelEnabled then wheelCommands.flatMap cmdProgram ++ [.recv, .wheelRecord] else []) ++
    ((closingCommands rate).flatMap cmdProgram ++ [.streaming])

/-- What a session does after S0. -/
def afterSessionInit (wheelEnabled : Bool) (rate : Byte) : List Micro :=
  cmdProgram Config.cmdReset ++ (.recv :: .batCheck :: .recv :: .idCheck :: afterSelfTest wheelEnabled rate)

theorem sessionProgram_eq (w : Bool) (rate : Byte) :
    sessionProgram w rate = .sessionInit :: afterSessionInit w rate := by
  cases w <;> rfl

/-- The bytes of the handshake (R222). -/
theorem sentBytes_afterSessionInit (w : Bool) (rate : Byte) :
    sentBytes (afterSessionInit w rate) =
      [Config.cmdReset] ++ (if w then wheelCommands else []) ++ closingCommands rate := by
  cases w <;> rfl

/-- The call of `start_session` on an idle main line runs S0 (R211). -/
theorem execStartSession_idle {s : State} (hc : s.ctx ≠ .interrupt) (hm : s.main = []) :
    exec .startSession s = .next (sessionInit { s with main := afterSessionInit s.wheelEnabled s.sampleRate }) :=
  calc exec .startSession s
    _ = onEntry (sessionProgram s.wheelEnabled s.sampleRate) s := rfl
    _ = onEntry (.sessionInit :: afterSessionInit s.wheelEnabled s.sampleRate) s := by rw [sessionProgram_eq]
    _ = _ := onEntry_idle .sessionInit _ hc hm

/-- Settles O40: S0 runs at the invocation, and what is left sends the commands of the handshake. -/
theorem startSessionReinitializes : Obligations.StartSessionReinitializes := fun s hc hm =>
  ⟨_, execStartSession_idle hc hm, sentBytes_afterSessionInit s.wheelEnabled s.sampleRate⟩

end Sys2Proof.Machine
end

section
/-! ## The exchanges of a handshake
SUPPORT. Between two of its exchanges with the device a session listens: `Listening` is what each exchange needs and what
it leaves, so that the handshake is their composition (30_encoding.md R112, 43_mouse_session.md R222). -/
namespace Sys2Proof.Machine

/-- The first `n` steps of every run from `s` lead to `t`. -/
def RunsTo (n : Nat) (s t : State) : Prop := ∀ k, runFor (k + n) s = runFor k t

theorem RunsTo.of_step {s t : State} (h : step s = .next t) : RunsTo 1 s t := fun _ => runFor_succ h

theorem RunsTo.trans {m n : Nat} {s t u : State} (h : RunsTo m s t) (h' : RunsTo n t u) : RunsTo (m + n) s u := by
  intro k
  rw [Nat.add_comm m, ← Nat.add_assoc, h, h']

theorem RunsTo.runFor {n : Nat} {s t : State} (h : RunsTo n s t) : runFor n s = .next t := by
  have hrun := h 0
  rwa [Nat.zero_add] at hrun

/-- Nothing is listed and the consumer is idle; the main line has `ms` to do and the device `ds` to clock. -/
structure Unscheduled (s : State) (ms : List Micro) (ds : List Bool) : Prop where
  sched : s.sched = []
  cons : s.cons = []
  ctx : s.ctx = .mainline
  main : s.main = ms
  dev : s.dev = ds

/-- The port is ready to read a frame: `ps` is `Read` at the start of a frame, armed, with the lines released and the ring
empty and in canonical form (R185). -/
structure ReadyToRead (s : State) : Prop where
  ps : s.ps = .read
  fc : s.fc = 11
  armed : s.irqArmed = true
  clk : s.clkDrive = .released
  data : s.dataDrive = .released
  indices : s.wr = s.rd
  empty : s.count = 0
  cells : Memory.wf s.ring = true

/-- A session between two exchanges. -/
structure Listening (s : State) (ms : List Micro) (ds : List Bool) : Prop where
  agents : Unscheduled s ms ds
  port : ReadyToRead s

/-- The registers of the session are as before. -/
structure SessionKept (s t : State) : Prop where
  sess : t.sess = s.sess
  x : t.x = s.x
  y : t.y = s.y
  z : t.z = s.z
  b : t.b = s.b
  wheel : t.wheel = s.wheel
  errcnt : t.errcnt = s.errcnt

theorem SessionKept.trans {s t u : State} (h : SessionKept s t) (h' : SessionKept t u) : SessionKept s u :=
  ⟨h'.sess.trans h.sess, h'.x.trans h.x, h'.y.trans h.y, h'.z.trans h.z, h'.b.trans h.b, h'.wheel.trans h.wheel,
    h'.errcnt.trans h.errcnt⟩

theorem SessionKept.withMain {s t : State} (h : SessionKept s t) (ms : List Micro) :
    SessionKept s { t with main := ms } := ⟨h.sess, h.x, h.y, h.z, h.b, h.wheel, h.errcnt⟩

theorem SessionKept.withWheel {s t : State} (h : SessionKept s t) (w : Bool) :
    SessionKept { s with wheel := w } { t with wheel := w } := ⟨h.sess, h.x, h.y, h.z, h.b, rfl, h.errcnt⟩

/-- In the default order the main line takes its next sub-step unless that is a poll. -/
theorem Unscheduled.step {s : State} {m : Micro} {ms : List Micro} {ds : List Bool} (h : Unscheduled s (m :: ms) ds)
    (hm : m ≠ .recv) : step s = runMicro m { s with main := ms } := by
  have hmoves : mainWaits s = false := by
    rw [mainWaits, h.main]
    cases m with
    | recv => exact absurd rfl hm
    | _ => rfl
  rw [step_main (.inr ⟨h.sched, rfl, h.cons, .inl hmoves⟩) h.main, ← h.sched]

/-- `n` steps after `s` a session is in `t`: it listens, with `ms` and `ds` still to come, and has the registers of `s`. -/
structure Reaches (n : Nat) (s t : State) (ms : List Micro) (ds : List Bool) : Prop where
  runs : RunsTo n s t
  listens : Listening t ms ds
  kept : SessionKept s t

theorem Reaches.trans {m n : Nat} {s t u : State} {ms ms' : List Micro} {ds ds' : List Bool} (h : Reaches m s t ms ds)
    (h' : Reaches n t u ms' ds') : Reaches (m + n) s u ms' ds' :=
  ⟨h.runs.trans h'.runs, h'.listens, h.kept.trans h'.kept⟩

/-- `send_byte_with_ack(v)` against a device that acknowledges the byte and replies 0xFA (R198). -/
theorem run_send {s : State} {v : Byte} {ms : List Micro} {ds : List Bool}
    (h : Listening s (sendProgram v ++ ms) (ackThenReply Config.rspAck ++ ds)) : ∃ t, Reaches 31 s t ms ds := by
  obtain ⟨hagents, hport⟩ := h
  have hdisarm : step s =
      .next { s with main := afterDisarm v ++ (.recv :: .ackCheck :: ms), irqArmed := false } :=
    hagents.step (m := .irqDisarm) (by nofun)
  refine ⟨_, (RunsTo.of_step hdisarm).trans fun k => send_exchange (k := k) (ms := ms) (r := Config.rspAck) (rest := [])
    (.inr ⟨hagents.sched, rfl, hagents.cons⟩) rfl hagents.dev rfl hport.cells, ?_, ?_⟩
  · exact ⟨⟨rfl, hagents.cons, hagents.ctx, rfl, rfl⟩,
      ⟨rfl, rfl, rfl, rfl, rfl, rfl, rfl, Memory.write_wf 0 _ hport.cells⟩⟩
  · exact ⟨rfl, rfl, rfl, rfl, rfl, rfl, rfl⟩

/-- Neither what the main line has still to do nor `wheel` is a matter of listening. -/
theorem Listening.withMain {s : State} {ms : List Micro} {ds : List Bool} (h : Listening s ms ds) (ms' : List Micro)
    (w : Bool) : Listening { s with main := ms', wheel := w } ms' ds :=
  ⟨⟨h.agents.sched, h.agents.cons, h.agents.ctx, rfl, h.agents.dev⟩,
    ⟨h.port.ps, h.port.fc, h.port.armed, h.port.clk, h.port.data, h.port.indices, h.port.empty, h.port.cells⟩⟩

/-- A sub-step that passes leaves a session listening. -/
theorem Listening.pass {s : State} {m : Micro} {ms : List Micro} {ds : List Bool} (h : Listening s (m :: ms) ds)
    (hm : m ≠ .recv) (hpass : runMicro m { s with main := ms } = .next { s with main := ms }) :
    Reaches 1 s { s with main := ms } ms ds :=
  ⟨.of_step ((h.agents.step hm).trans hpass), h.withMain ms s.wheel, ⟨rfl, rfl, rfl, rfl, rfl, rfl, rfl⟩⟩

/-- `cmd(v)` against such a device as `run_send` speaks of: its test of `ps` passes (R212). -/
theorem run_command {s : State} {v : Byte} {ms : List Micro} {ds : List Bool}
    (h : Listening s (cmdProgram v ++ ms) (ackThenReply Config.rspAck ++ ds)) : ∃ t, Reaches 32 s t ms ds := by
  obtain ⟨t, hsent⟩ := run_send (ms := .cmdTest :: ms) h
  have hlistens := hsent.listens
  have hok : t.ps ≠ .error := by rw [hlistens.port.ps]; nofun
  exact ⟨_, hsent.trans (hlistens.pass (by nofun) (congrArg _ (if_neg hok)))⟩

/-- Commands one after the other, each acknowledged and answered with 0xFA. -/
theorem run_commands {vs : List Byte} {s : State} {ms : List Micro} {ds : List Bool}
    (h : Listening s (vs.flatMap cmdProgram ++ ms)
      ((List.replicate vs.length (ackThenReply Config.rspAck)).flatten ++ ds)) :
    ∃ t, Reaches (32 * vs.length) s t ms ds := by
  induction vs generalizing s with
  | nil => exact ⟨s, fun _ => rfl, h, rfl, rfl, rfl, rfl, rfl, rfl, rfl⟩
  | cons v vs ih =>
    rw [List.flatMap_cons, List.append_assoc, List.length_cons, List.replicate_succ, List.flatten_cons,
      List.append_assoc] at h
    obtain ⟨t, ht⟩ := run_command h
    obtain ⟨u, hu⟩ := ih ht.listens
    rw [List.length_cons, Nat.mul_succ, Nat.add_comm]
    exact ⟨u, ht.trans hu⟩

/-- `recv_byte_blocking()` while the device sends `v` (R195). -/
theorem run_recv {s : State} {v : Byte} {ms : List Micro} {ds : List Bool}
    (h : Listening s (.recv :: ms) (rxFrame v ++ ds)) : ∃ t, Reaches 12 s t ms ds ∧ t.reply = v := by
  obtain ⟨hagents, hport⟩ := h
  have hwaits : mainWaits s = true := by rw [mainWaits, hagents.main, hport.empty]; rfl
  have hframe (k : Nat) := read_frame (k := k) (rest := []) (.inr ⟨hagents.sched, rfl, hagents.cons, hwaits⟩)
    hagents.dev hport.armed hport.clk hport.data hport.ps hport.fc (by rw [hport.empty]; decide)
  have hback : Memory.read (Memory.write s.ring s.wr.toNat v) s.rd.toNat = v := by
    rw [hport.indices]
    exact Memory.read_write_same hport.cells _ v
  refine ⟨_, ⟨RunsTo.trans hframe (.of_step (step_main_next (m := .recv) (ms := ms)
    (.inr ⟨rfl, rfl, hagents.cons, .inl ?_⟩) hagents.main
      (congrArg Host.Outcome.next (recvStep_some s.count.succ_ne_zero)))), ?_, ?_⟩, hback⟩
  · rw [mainWaits, hagents.main]
    rfl
  · exact ⟨⟨rfl, hagents.cons, hagents.ctx, rfl, rfl⟩, ⟨hport.ps, hport.fc, hport.armed, hport.clk, hport.data,
      congrArg (· + 1) hport.indices, hport.empty, Memory.write_wf s.wr v hport.cells⟩⟩
  · exact ⟨rfl, rfl, rfl, rfl, rfl, rfl, rfl⟩

end Sys2Proof.Machine
end

section
/-! ## The handshake (43_mouse_session.md R211 to R222) -/
namespace Sys2Proof.Machine

/-- The turn that invokes `start_session` on an idle main line runs S0 (R211). -/
theorem step_invoke_startSession {s : State} (hs : s.sched = [invoke .startSession]) (hm : s.main = []) :
    step s = .next (sessionInit
      { s with sched := [], ctx := .mainline, main := afterSessionInit s.wheelEnabled s.sampleRate }) := by
  have hexec := execStartSession_idle (s := enterContext .mainline { s with sched := [] }) (by nofun) hm
  rw [step_listed hs]
  calc issue .mainline (encode .startSession) { s with sched := [] }
      = mapNext leaveContext (exec .startSession (enterContext .mainline { s with sched := [] })) :=
        issue_of_decode .mainline _ rfl
    _ = .next (sessionInit
          { s with sched := [], ctx := .mainline, main := afterSessionInit s.wheelEnabled s.sampleRate }) := by
        rw [hexec]; rfl

/-- The invocation of `start_session` on an idle main line, with the consumer idle and the device's part to come (R211). -/
theorem run_start {s : State} (hs : s.sched = [invoke .startSession]) (hm : s.main = []) (hk : s.cons = [])
    (hcells : Memory.wf s.ring = true) :
    ∃ t, RunsTo 1 s t ∧ Listening t (afterSessionInit s.wheelEnabled s.sampleRate) s.dev ∧
      SessionKept (sessionInit s) t :=
  ⟨_, .of_step (step_invoke_startSession hs hm),
    ⟨⟨rfl, hk, rfl, rfl, rfl⟩, ⟨rfl, rfl, rfl, rfl, rfl, rfl, rfl, hcells⟩⟩, ⟨rfl, rfl, rfl, rfl, rfl, rfl, rfl⟩⟩

/-- RESET with the self test's two bytes, both as they should be (R213, R214, R215). -/
theorem run_selfTest {s : State} {ms : List Micro} {ds : List Bool}
    (h : Listening s (cmdProgram Config.cmdReset ++ (.recv :: .batCheck :: .recv :: .idCheck :: ms))
      (ackThenReply Config.rspAck ++ (rxFrame Config.rspBatOk ++ (rxFrame Config.rspIdStd ++ ds)))) :
    ∃ t, Reaches 58 s t ms ds := by
  obtain ⟨t1, hreset⟩ := run_command h
  obtain ⟨t2, hbat, hbatByte⟩ := run_recv hreset.listens
  have hbatPassed := hbat.listens.pass (by nofun) (congrArg Host.Outcome.next (if_pos hbatByte))
  obtain ⟨t3, hid, hidByte⟩ := run_recv hbatPassed.listens
  have hidPassed := hid.listens.pass (by nofun) (congrArg Host.Outcome.next (if_pos hidByte))
  exact ⟨_, hreset.trans (hbat.trans (hbatPassed.trans (hid.trans hidPassed)))⟩

/-- The wheel part records whether the device's id is WHEEL_ID (R216, R217). -/
theorem run_wheelPart {s : State} {id : Byte} {ms : List Micro} {ds : List Bool}
    (h : Listening s (wheelCommands.flatMap cmdProgram ++ (.recv :: .wheelRecord :: ms))
      ((List.replicate 7 (ackThenReply Config.rspAck)).flatten ++ (rxFrame id ++ ds))) :
    ∃ t, RunsTo 237 s t ∧ Listening t ms ds ∧ SessionKept { s with wheel := id == Config.wheelId } t := by
  obtain ⟨t1, hcommands⟩ := run_commands h
  obtain ⟨t2, hid, rfl⟩ := run_recv hcommands.listens
  obtain ⟨hrun, hlistens, hkept⟩ := hcommands.trans hid
  exact ⟨_, hrun.trans (.of_step (hlistens.agents.step (by nofun))), hlistens.withMain ms _,
    (hkept.withWheel _).withMain ms⟩

/-- S6 to S8 (R218, R219, R220). -/
theorem run_closing {s : State} {rate : Byte} {ds : List Bool}
    (h : Listening s ((closingCommands rate).flatMap cmdProgram ++ [.streaming])
      ((List.replicate 5 (ackThenReply Config.rspAck)).flatten ++ ds)) :
    ∃ t, RunsTo 161 s (streamingStep t) ∧ Listening t [] ds ∧ SessionKept s t := by
  obtain ⟨t, hrun, hlistens, hkept⟩ := run_commands h
  exact ⟨{ t with main := [] }, hrun.trans (.of_step (hlistens.agents.step (by nofun))), hlistens.withMain [] t.wheel,
    hkept.withMain []⟩

/-- The device's part after the self test (R112). -/
def scriptAfterSelfTest (wheelEnabled : Bool) (id : Byte) : List Bool :=
  (if wheelEnabled then (List.replicate 7 (ackThenReply Config.rspAck)).flatten ++ rxFrame id else []) ++
    (List.replicate 5 (ackThenReply Config.rspAck)).flatten

/-- S4 to S8 (R216 to R220). -/
theorem run_afterSelfTest {s : State} {w : Bool} {rate id : Byte} (hw : s.wheel = false)
    (h : Listening s (afterSelfTest w rate) (scriptAfterSelfTest w id)) :
    ∃ t, RunsTo (if w then 398 else 161) s (streamingStep t) ∧ Listening t [] [] ∧
      SessionKept { s with wheel := w && id == Config.wheelId } t := by
  cases w with
  | false =>
    obtain ⟨t, hrun, hidle, hkept⟩ := run_closing (ds := []) (by rw [List.append_nil]; exact h)
    exact ⟨t, hrun, hidle, by rw [Bool.false_and, ← hw]; exact hkept⟩
  | true =>
    rw [afterSelfTest, scriptAfterSelfTest, if_pos rfl, if_pos rfl, List.append_assoc, List.append_assoc] at h
    obtain ⟨u, hwheel, hlistens, hrecorded⟩ := run_wheelPart h
    obtain ⟨t, hrun, hidle, hkept⟩ := run_closing (ds := []) (by rw [List.append_nil]; exact hlistens)
    exact ⟨t, hwheel.trans hrun, hidle, hrecorded.trans hkept⟩

/-- The device's part of a handshake, of either length (R112). -/
def handshakeScript (wheelEnabled : Bool) (id : Byte) : List Bool :=
  ackThenReply Config.rspAck ++ (rxFrame Config.rspBatOk ++ (rxFrame Config.rspIdStd ++
    scriptAfterSelfTest wheelEnabled id))

/-- A whole session, of either length (R222). -/
theorem run_session {s : State} {id : Byte} (hm : s.main = []) (hk : s.cons = []) (hcells : Memory.wf s.ring = true)
    (hd : s.dev = handshakeScript s.wheelEnabled id) (hs : s.sched = [invoke .startSession]) :
    ∃ t, RunsTo (if s.wheelEnabled then 457 else 220) s (streamingStep t) ∧ Listening t [] [] ∧
      SessionKept { sessionInit s with wheel := s.wheelEnabled && id == Config.wheelId } t := by
  obtain ⟨u, hstart, hready, hzeroed⟩ := run_start hs hm hk hcells
  rw [hd] at hready
  obtain ⟨v, hselfTest, hlistens, hsame⟩ := run_selfTest hready
  have hbefore := hzeroed.trans hsame
  obtain ⟨t, hrun, hidle, hkept⟩ := run_afterSelfTest (hbefore.wheel.trans rfl) hlistens
  have hsteps : (1 + (58 + if s.wheelEnabled then 398 else 161)) = if s.wheelEnabled then 457 else 220 := by
    split <;> rfl
  exact ⟨t, hsteps ▸ hstart.trans (hselfTest.trans hrun), hidle, (hbefore.withWheel _).trans hkept⟩

theorem deviceScript_eq (w : Bool) (id : Byte) :
    (if w then wheelDeviceScript id else deviceScript) = handshakeScript w id := by
  cases w <;> simp [deviceScript, wheelDeviceScript, handshakeScript, scriptAfterSelfTest]

/-- Settles O41: `run_session`, which leaves a session listening with nothing still to do. -/
theorem handshakeReachesStreaming : Obligations.HandshakeReachesStreaming := by
  intro s id ⟨hm, hd, hk, hc⟩ hcells
  obtain ⟨t, hrun, ⟨hagents, hport⟩, hkept⟩ := run_session (id := id)
    (s := { s with dev := if s.wheelEnabled then wheelDeviceScript id else deviceScript, sched := [invoke .startSession] })
    hm hk hcells (deviceScript_eq s.wheelEnabled id) rfl
  exact ⟨_, hrun.runFor, rfl, rfl, hport.ps, hport.fc, hport.empty, hkept.x, hkept.y, hkept.z, hkept.b, hkept.errcnt,
    hkept.wheel, hagents.main, hagents.dev, hagents.cons, hagents.ctx⟩

/-- FAIL drops all that a session does after the self test's first byte (R221). -/
theorem afterSession_afterBatCheck (w : Bool) (rate : Byte) :
    afterSession (.recv :: .idCheck :: afterSelfTest w rate) = [] := by cases w <;> rfl

/-- S2 with a byte other than 0xAA, then FAIL (R214, R221). -/
theorem run_badBat {s : State} {w : Bool} {rate : Byte} {ds : List Bool}
    (h : Unscheduled s (.batCheck :: .recv :: .idCheck :: afterSelfTest w rate) ds) (hbyte : s.reply ≠ Config.rspBatOk) :
    RunsTo 2 s (sessionFailStep { raisePortError .badBat s with main := [] }) := by
  have hcheck := (h.step (by nofun)).trans (congrArg Host.Outcome.next (if_neg hbyte))
  rw [gotoFail, raisePortError_main, afterSession_afterBatCheck] at hcheck
  have hfail : Unscheduled { raisePortError .badBat s with main := [.sessionFail] } [.sessionFail] ds :=
    ⟨h.sched, h.cons, h.ctx, rfl, h.dev⟩
  exact (RunsTo.of_step hcheck).trans (.of_step (hfail.step (by nofun)))

/-- Settles O42: RESET is acknowledged, the wrong byte arrives, and S2 goes to FAIL. -/
theorem wrongSelfTestByteFailsTheSession : Obligations.WrongSelfTestByteFailsTheSession := by
  intro s w ⟨hm, hd, hk, hc⟩ hcells hw
  obtain ⟨u, hstart, hready, hzeroed⟩ := run_start
    (s := { s with dev := ackThenReply 0xFA ++ rxFrame w, sched := [invoke .startSession] }) rfl hm hk hcells
  obtain ⟨v, hreset⟩ := run_command hready
  obtain ⟨t, hbat, rfl⟩ := run_recv (v := w) (ds := []) (by rw [List.append_nil]; exact hreset.listens)
  obtain ⟨hrun, hlistens, hsame⟩ := hreset.trans hbat
  have hkept := hzeroed.trans hsame
  exact ⟨_, (hstart.trans (hrun.trans (run_badBat hlistens.agents hw))).runFor, rfl, rfl, rfl, rfl, hkept.x, hkept.y,
    hkept.z, hkept.b⟩

end Sys2Proof.Machine
end

section
/-! ## The decoder inverts the encoder (30_encoding.md R90, R91, R101 to R117; log 4)
Every format tag selects its own reader, so a row's word decodes by computation except where the reader puts an operand
together: the cursor of ERR_NOP, an edge's level, the two frames, the packets, a delay's time, a drain's amounts. -/
namespace Sys2Proof

/-- A selector word with `ps = Error` reads as ERR_NOP with its cursor (R100, R131). -/
theorem decodeSelector_error : ∀ f : BitVec 4, decodeSelector (0#4 ++ f : BitVec 8) = .ok (.errNop f) := by decide

theorem decodeLevel_ite (d : Bool) : decodeLevel (if d then 1 else 0) = .ok (.edge d) := by cases d <;> rfl

/-! ### Frames -/

/-- A read frame is a write frame with filler in the acknowledgment's place (R90, R91). -/
theorem frameRxBits_eq (v : Byte) (p : Bool) : frameRxBits v p = frameTxBits v p false := rfl

/-- A write frame position by position: start, the byte, parity, stop, acknowledgment, zero filler (R91). -/
theorem frameTxBits_getLsbD (v : Byte) (p k : Bool) (j : Nat) :
    (frameTxBits v p k).getLsbD j =
      if j = 0 then false else if j < 9 then v.getLsbD (j - 1) else if j = 9 then p else if j = 10 then true
      else if j = 11 then k else false := by
  change (0#4 ++ BitVec.ofBool k ++ 1#1 ++ BitVec.ofBool p ++ v ++ 0#1 : BitVec (4 + 1 + 1 + 1 + 8 + 1)).getLsbD j = _
  simp only [BitVec.getLsbD_append]
  grind

theorem frameTxBits_byte (v : Byte) (p k : Bool) : (frameTxBits v p k).extractLsb' 1 8 = v := by
  apply BitVec.eq_of_getLsbD_eq
  intro j hj
  have hbyte : 1 + j < 9 := by omega
  simp [frameTxBits_getLsbD, hj, hbyte]

/-- The high byte is below `2 ^ n` when the word is zero from position `8 + n` on. -/
theorem highByte_lt {w : BitVec 16} {n : Nat} (h : ∀ j, 8 + n ≤ j → w.getLsbD j = false) :
    (highByte w).toNat < 2 ^ n := by
  apply Nat.lt_pow_two_of_testBit
  intro i hi
  change (highByte w).getLsbD i = false
  rw [highByte, BitVec.getLsbD_extractLsb', h (8 + i) (by omega), Bool.and_false]

theorem highByte_frameTxBits_lt (v : Byte) (p k : Bool) : (highByte (frameTxBits v p k)).toNat < 16 := by
  refine highByte_lt (n := 4) fun j hj => ?_
  rw [frameTxBits_getLsbD]
  grind

theorem highByte_frameRxBits_lt (v : Byte) (p : Bool) : (highByte (frameRxBits v p)).toNat < 8 := by
  refine highByte_lt (n := 3) fun j hj => ?_
  rw [frameRxBits_eq, frameTxBits_getLsbD]
  grind

theorem decodeFrameRx_frameRxBits (v : Byte) (p : Bool) :
    decodeFrameRx (lowByte (frameRxBits v p)) (highByte (frameRxBits v p)) = .ok (.frameRx v p) := by
  have hfiller := highByte_frameRxBits_lt v p
  rw [frameRxBits_eq] at hfiller ⊢
  simp [decodeFrameRx, hfiller, frameTxBits_getLsbD, frameTxBits_byte, -BitVec.getLsbD_eq_getElem]

/-- A write frame decodes when it carries the byte's own parity (R91). -/
theorem decodeFrameTx_frameTxBits (v : Byte) (k : Bool) :
    decodeFrameTx (lowByte (frameTxBits v (Machine.parity v) k)) (highByte (frameTxBits v (Machine.parity v) k)) =
      .ok (.frameTx v (Machine.parity v) k) := by
  have hfiller := highByte_frameTxBits_lt v (Machine.parity v) k
  simp [decodeFrameTx, hfiller, frameTxBits_getLsbD, frameTxBits_byte, -BitVec.getLsbD_eq_getElem]

/-! ### Operands of several bytes -/

/-- A packet's first byte splits into its two fields (R113). -/
theorem decodePacket3_fields (i : BitVec 5) (m : BitVec 3) (dx dy : Byte) :
    decodePacket3 [(i ++ m : BitVec 8), dx, dy] = .ok (.packet3 i m dx dy) := by
  obtain ⟨hi, hm⟩ := packet_byte0 i m
  simp only [decodePacket3, hi, hm]

theorem decodePacket4_fields (i : BitVec 5) (m : BitVec 3) (dx dy dz : Byte) :
    decodePacket4 [(i ++ m : BitVec 8), dx, dy, dz] = .ok (.packet4 i m dx dy dz) := by
  obtain ⟨hi, hm⟩ := packet_byte0 i m
  simp only [decodePacket4, hi, hm]

theorem decode_encode_delay {t : Nat} (h : t < 2 ^ 32) : decode (encode (.delay t)) = .ok (.delay t) :=
  congrArg (Decoded.ok <| .delay ·) (delay_bytes h)

theorem decode_encode_consumerDrain {dx dy dz : Acc} (hx : amountFits dx = true) (hy : amountFits dy = true)
    (hz : amountFits dz = true) : decode (encode (.consumerDrain dx dy dz)) = .ok (.consumerDrain dx dy dz) := by
  change Decoded.ok (.consumerDrain (amountOf ..) (amountOf ..) (amountOf ..)) = _
  rw [amount_bytes hx, amount_bytes hy, amount_bytes hz]

/-- Settles O1: by the kind of row; one with no operand, or with a byte that stands whole in the word, decodes by
computation. -/
theorem decodeInvertsEncode : Obligations.DecodeInvertsEncode := by
  intro i hwf
  cases i with
  | errNop f => exact decodeSelector_error f
  | frameRx v p => exact decodeFrameRx_frameRxBits v p
  | frameTx v p k =>
    obtain rfl : p = Machine.parity v := eq_of_beq hwf
    exact decodeFrameTx_frameTxBits v k
  | packet3 i m dx dy => exact decodePacket3_fields i m dx dy
  | packet4 i m dx dy dz => exact decodePacket4_fields i m dx dy dz
  | edge d => exact decodeLevel_ite d
  | delay t => exact decode_encode_delay (of_decide_eq_true hwf)
  | consumerDrain dx dy dz =>
    simp only [Instr.wf, Bool.and_eq_true] at hwf
    obtain ⟨⟨hx, hy⟩, hz⟩ := hwf
    exact decode_encode_consumerDrain hx hy hz
  | _ => rfl

end Sys2Proof
end
